-- ==== Sys2Proof/Word.lean ====
section
/-! DEFINITION. The word types of the stego core (00_scope.md R11, R12; 20_memory.md R51, R52). -/

namespace Sys2Proof

/-- A register or a pixel word: 32 bits, bit 0 least significant (R11, R20, R51). -/
abbrev Word := BitVec 32

/-- A payload byte (R56). -/
abbrev Byte := BitVec 8

/-- A cursor index or BitIndex: 64-bit two's complement (R85). -/
abbrev BitIndex := BitVec 64

end Sys2Proof
end

