-- ==== Sys2Proof/Config.lean ====
section
/-! DEFINITION. What an implementation or a platform fixes (00_scope.md R9, R10; 70_reset_and_hazards.md R189),
and the free value of the model (R187). -/

namespace Sys2Proof.Config

/-- `PAYLOAD_BIT_ORDER` (R9, R57). -/
inductive BitOrder where
  | lsbFirst
  | msbFirst
  deriving DecidableEq, Repr

/-- `EST_FIRST_PIXEL`: 8 or 9 (R9, R102). -/
inductive EstFirst where
  | eight
  | nine
  deriving DecidableEq, Repr

def EstFirst.toNat : EstFirst → Nat
  | .eight => 8
  | .nine => 9

/-- The parameters of R9, and how much memory the platform backs (R189): pixel words `0 .. pixWords-1`, payload
bytes `0 .. payBytes-1`. "A model takes each one as an argument": they stand in State, and no step changes them
(DESIGN CHOICE, log 2). -/
structure Params where
  maxPixels : Word
  estFirst  : EstFirst
  bitOrder  : BitOrder
  base      : Nat
  pixWords  : Nat
  payBytes  : Nat
  deriving DecidableEq, Repr

/-- The values R9 takes; BASE is OPEN there, and the backing is the platform's: DESIGN CHOICE (log 3, log 5). -/
def Params.default : Params where
  maxPixels := 0xFFFFFFFF#32
  estFirst  := .eight
  bitOrder  := .lsbFirst
  base      := 0
  pixWords  := 2 ^ 32
  payBytes  := 2 ^ 29

/-- `HDR_PIXELS = 8` (R10). -/
def hdrPixels : Nat := 8

/-- `PAYLOAD_START = HDR_PIXELS + 1 = 9` (R10, R126). -/
def payloadStart : Nat := hdrPixels + 1

/-- FREE VALUE (R187, I7): what the `n`-th read of a result register made while BUSY returns. Nothing constrains
it (log 6). -/
opaque busyRead : Nat → Word

end Sys2Proof.Config
end

