-- ==== Sys2Proof/Syntax.lean ====
section
/-! DEFINITION. The commands of the block: one constructor per row of spec/opcode_table.json (30_encoding.md R71).
A command word carries no operand (R75), so no constructor has a field. -/

namespace Sys2Proof

inductive Instr where
  /-- NEXT_HDR, R88. -/
  | nextHdr
  /-- NEXT_PAY, R89. -/
  | nextPay
  /-- IS_WRITABLE, R105. -/
  | isWritable
  /-- ESTIMATE, R106. -/
  | estimate
  /-- ENCODE, R135. -/
  | encode
  /-- DECODE, R140. -/
  | decode
  /-- READ_HEADER, R122. -/
  | readHeader
  deriving DecidableEq, Repr

end Sys2Proof
end

