-- ==== Sys2Proof/WellFormed.lean ====
section
/-! DEFINITION. What is well formed: commands, command words, parameters (R9, R70, R73, R75). -/

namespace Sys2Proof

/-- A command has no operand field, so every command is well formed (R75). -/
def Instr.wf : Instr → Bool
  | .nextHdr | .nextPay | .isWritable | .estimate | .encode | .decode | .readHeader => true

/-- A command word is legal if RSVD is 0 and OPCODE is 1..7 (R70, R73). -/
def wordWf (w : Word) : Bool :=
  w.extractLsb' 4 28 == 0 && 1 ≤ (w.extractLsb' 0 4).toNat && (w.extractLsb' 0 4).toNat ≤ 7

/-- The legal parameters of R9 (`MAX_PIXELS` is 8 .. 2^32-1), over memories whose indices the ports can
address (R50, R56). -/
def Config.Params.wf (p : Config.Params) : Bool :=
  8 ≤ p.maxPixels.toNat && p.pixWords ≤ 2 ^ 32 && p.payBytes ≤ 2 ^ 29

end Sys2Proof
end

