-- ==== Sys2Proof/Decode.lean ====
section
/-! DEFINITION. The decoder of command words and the encoder (30_encoding.md R70, R71, R73, R74). -/

namespace Sys2Proof

/-- Why a word is illegal (R73). -/
inductive IllegalWord where
  /-- A bit of RSVD [31:4] is 1. -/
  | reservedBits
  /-- OPCODE is 0x0 or 0x8-0xF. -/
  | reservedOpcode
  deriving DecidableEq, Repr

/-- R74. -/
def decode (c : Word) : Except IllegalWord Instr :=
  if c.extractLsb' 4 28 ≠ 0 then .error .reservedBits
  else
    match (c.extractLsb' 0 4).toNat with
    | 1 => .ok .nextHdr
    | 2 => .ok .nextPay
    | 3 => .ok .isWritable
    | 4 => .ok .estimate
    | 5 => .ok .encode
    | 6 => .ok .decode
    | 7 => .ok .readHeader
    | _ => .error .reservedOpcode

/-- The OPCODE of a command (R71). -/
def Instr.opcode : Instr → BitVec 4
  | .nextHdr => 0x1
  | .nextPay => 0x2
  | .isWritable => 0x3
  | .estimate => 0x4
  | .encode => 0x5
  | .decode => 0x6
  | .readHeader => 0x7

/-- The command word: RSVD = 0 above OPCODE (R70, R71). -/
def encode (i : Instr) : Word := 0#28 ++ i.opcode

/-- The table's rows are single 32-bit words. Bits of `w` at `nbits` and above are 0; a value that needs more
than 32 bits is no command word. -/
def decodeTableWord (nbits w : Nat) : Option Instr :=
  let v := w % 2 ^ nbits
  if v < 2 ^ 32 then (decode (BitVec.ofNat 32 v)).toOption else none

end Sys2Proof
end

