-- ==== Sys2Proof/Machine/State.lean ====
section
/-! DEFINITION. The machine's state (10_state.md), as plain data, and the state right after reset
(70_reset_and_hazards.md R180). -/

namespace Sys2Proof.Machine

/-- The named registers of R22. Every other offset of the bank is reserved. -/
inductive Reg where
  | cmd | status | width | height | capacity | minX | maxX | minY | maxY | payloadBytes | fillNum | fillDen
  | cursorInLo | cursorInHi | pixelIndex | cursorOutLo | cursorOutHi | result | estimateLo | estimateHi
  | bitsDone | scanPixel | bitPtrLo | bitPtrHi | outBytes
  | hdrLen | hdrCap | hdrMinX | hdrMaxX | hdrMinY | hdrMaxY
  deriving DecidableEq, Repr

/-- The error kinds of R160. -/
inductive ErrKind where
  | invalidConfiguration
  | capacityError
  | insufficientCapacityError
  | truncatedPayloadError
  | corruptHeaderError
  | malformedPayloadError
  | illegalCommand
  deriving DecidableEq, Repr

/-- The four region bounds (R28, R100). -/
structure Region where
  minX : Word
  maxX : Word
  minY : Word
  maxY : Word
  deriving DecidableEq, Repr

/-- The header record, in field order (R115). -/
structure Header where
  len  : Word
  cap  : Word
  minX : Word
  maxX : Word
  minY : Word
  maxY : Word
  deriving DecidableEq, Repr

/-- The configuration and operand registers, RW (R21, R22, R26 to R31, R33). -/
structure Conf where
  width        : Word
  height       : Word
  capacity     : Word
  minX         : Word
  maxX         : Word
  minY         : Word
  maxY         : Word
  payloadBytes : Word
  fillNum      : Word
  fillDen      : Word
  cursorInLo   : Word
  cursorInHi   : Word
  pixelIndex   : Word
  deriving DecidableEq, Repr

/-- The result registers, RO (R22, R32, R34 to R37, R39). A LO/HI pair is one 64-bit field, and RESULT is its
bit 0: the other bits read 0 (log 9). -/
structure Results where
  cursorOut : BitVec 64
  writable  : Bool
  estimate  : BitVec 64
  bitsDone  : Word
  scanPixel : Word
  bitPtr    : BitIndex
  outBytes  : Word
  hdr       : Header
  deriving DecidableEq, Repr

/-- The fields of STATUS but BUSY (R24). BUSY is the FSM's state, held once, in `State.fsm` (R38). -/
structure Status where
  done    : Bool
  err     : Bool
  errCode : BitVec 4
  wdrop   : Bool
  deriving DecidableEq, Repr

/-- The core FSM (R38, R130): IDLE, or RUN in one of its phases. A phase carries the loop variables that no
register holds. The scan's variables are the registers BITS_DONE, SCAN_PIXEL and BITPTR (R39). -/
inductive Fsm where
  /-- IDLE: `STATUS.BUSY = 0`. -/
  | idle
  /-- An illegal command word was written: its one step raises IllegalCommand (R72, R191). -/
  | illegal
  /-- The command is latched and its first step, CHECK, is to come. -/
  | start (i : Instr)
  /-- ESTIMATE: the next pixel index to test, and the count so far. -/
  | estimatePixel (i count : Nat)
  /-- ENCODE, phase EST. -/
  | encodeEst (i count : Nat)
  /-- ENCODE, phase HDR: the next header bit, and the cursor of the last one. -/
  | encodeHdr (i : Nat) (idx : BitIndex)
  /-- ENCODE, phase SCAN. -/
  | encodeScan
  /-- READ_HEADER: the next header bit, the cursor of the last one, the bits so far. -/
  | readHdr (i : Nat) (idx : BitIndex) (bits : BitVec 192)
  /-- DECODE, phase HDR. -/
  | decodeHdr (i : Nat) (idx : BitIndex) (bits : BitVec 192)
  /-- DECODE, phase VALIDATE. -/
  | decodeValidate
  /-- DECODE, phase SCAN. -/
  | decodeScan
  /-- DECODE, phase TAIL. -/
  | decodeTail
  deriving DecidableEq, Repr

/-- A memory of `w`-bit cells: address and value, addresses rising, no cell equal to what an unlisted one reads
as (`Memory.wf`). `Memory 8` is a list of `Host.Cell`. -/
abbrev Memory (w : Nat) := List (Nat × BitVec w)

/-- One line of a host program as the machine sees it (R77, R79, R81): bus transactions of `size` bytes at a
platform address, the `wait` loop, and the host's own accesses to the two memories. -/
inductive HostOp where
  | write (addr size : Nat) (data : Word)
  | read (addr size : Nat)
  | wait
  | storePix (i : Nat) (v : Word)
  | storePay (a : Nat) (v : Byte)
  | loadPix (i : Nat)
  | loadPay (a : Nat)
  deriving DecidableEq, Repr

/-- Whose move comes next, where the model is told (R166, R180; log 1). -/
inductive Turn where
  /-- The host makes its next transaction. A legal CMD write starts the command and no more. -/
  | host
  /-- The core FSM makes one step. -/
  | core
  /-- The reset input is asserted. -/
  | reset
  /-- Time passes and neither moves: a command takes any finite number of steps (R192, log 24). -/
  | stall
  deriving DecidableEq, Repr

/-- The machine: parameters, whether reset was ever asserted (R193), registers, FSM, the hidden accumulator of
the packer (R39), the two memories (R41, R42). The last four fields are the model's own: the host's remaining
program, the order of the next moves, the data of the host's last read, the counter of draws. -/
structure State where
  params    : Config.Params
  everReset : Bool
  conf      : Conf
  res       : Results
  status    : Status
  fsm       : Fsm
  acc       : Byte
  pix       : Memory 32
  pay       : Memory 8
  program   : List HostOp
  turns     : List Turn
  readData  : Word
  draws     : Nat
  deriving DecidableEq, Repr

/-- The machine has no transition because an address does not exist. All are safe: the model stops where the
spec says nothing of a run (R189, I10). -/
inductive Fault where
  /-- Raised by ENCODE, DECODE, READ_HEADER and the host's pixel accesses: a pixel index the platform does not
  back (R189). Safe. -/
  | unbackedPixel
  /-- Raised by ENCODE, DECODE and the host's payload accesses: a payload address the platform does not back
  (R189). Safe. -/
  | unbackedPayload
  /-- Raised by a bus access outside `BASE .. BASE + 0xFF`: no register is there (R20, R63). Safe. -/
  | outsideBank
  deriving DecidableEq, Repr

/-- The machine has no transition because the move is outside the protocol. All are safe. -/
inductive Refusal where
  /-- An instruction that has no meaning yet: none is left. Safe. -/
  | notModelled (mnemonic : String)
  /-- Raised by every move but reset before the first reset (R193, I20). Safe. -/
  | beforeReset
  /-- Raised by a register access that is not 32 bits wide, or at an offset that is no multiple of 4 (R59, I9). Safe. -/
  | badAccess
  /-- Raised by a host access to pixel or payload memory while BUSY (R188, I8). Safe. -/
  | memoryWhileBusy
  deriving DecidableEq, Repr

def Conf.reset : Conf where
  width := 0
  height := 0
  capacity := 0
  minX := 0
  maxX := 0
  minY := 0
  maxY := 0
  payloadBytes := 0
  fillNum := 2
  fillDen := 5
  cursorInLo := 0
  cursorInHi := 0
  pixelIndex := 0

def Header.zero : Header where
  len := 0
  cap := 0
  minX := 0
  maxX := 0
  minY := 0
  maxY := 0

def Results.reset : Results where
  cursorOut := 0
  writable := false
  estimate := 0
  bitsDone := 0
  scanPixel := 0
  bitPtr := 0
  outBytes := 0
  hdr := Header.zero

def Status.reset : Status where
  done := false
  err := false
  errCode := 0
  wdrop := false

/-- The machine right after reset (R180): registers at R22's values, FSM in IDLE, packer cleared, nothing listed
in either memory, no host program. -/
def State.reset : State where
  params := Config.Params.default
  everReset := true
  conf := Conf.reset
  res := Results.reset
  status := Status.reset
  fsm := .idle
  acc := 0
  pix := []
  pay := []
  program := []
  turns := []
  readData := 0
  draws := 0

end Sys2Proof.Machine
end

