-- ==== Sys2Proof/Machine/Flags.lean ====
section
/-! DEFINITION. STATUS: its word, its error codes, and every way it changes (10_state.md R24; 60_exceptions.md R160). -/

namespace Sys2Proof.Machine

/-- The code of an error kind (R160). -/
def ErrKind.code : ErrKind → BitVec 4
  | .invalidConfiguration => 1
  | .capacityError => 2
  | .insufficientCapacityError => 3
  | .truncatedPayloadError => 4
  | .corruptHeaderError => 5
  | .malformedPayloadError => 6
  | .illegalCommand => 7

/-- `STATUS.BUSY`: the FSM is not IDLE (R38). -/
def State.busy (s : State) : Bool := s.fsm != .idle

/-- The STATUS word: BUSY [0], DONE [1], ERR [2], ERRCODE [7:4], WDROP [8]; the other bits read 0 (R24). -/
def statusWord (busy : Bool) (st : Status) : Word :=
  0#23 ++ BitVec.ofBool st.wdrop ++ st.errCode ++ 0#1 ++ BitVec.ofBool st.err ++ BitVec.ofBool st.done
    ++ BitVec.ofBool busy

/-- A command start zeroes DONE, ERR and ERRCODE and leaves WDROP (R24, R72). -/
def Status.started (st : Status) : Status := { st with done := false, err := false, errCode := 0 }

/-- Normal completion sets DONE (R164). -/
def Status.completed (st : Status) : Status := { st with done := true }

/-- The abort sets ERRCODE, ERR and DONE (R163). -/
def Status.aborted (e : ErrKind) (st : Status) : Status := { st with done := true, err := true, errCode := e.code }

/-- A write of `v` to STATUS while idle: W1C of DONE, ERR (with ERRCODE) and WDROP (R21, R24, R165). -/
def Status.writeOneToClear (v : Word) (st : Status) : Status where
  done := st.done && !v.getLsbD 1
  err := st.err && !v.getLsbD 2
  errCode := if v.getLsbD 2 then 0 else st.errCode
  wdrop := st.wdrop && !v.getLsbD 8

/-- A register write dropped because BUSY = 1 (R186). -/
def Status.dropped (st : Status) : Status := { st with wdrop := true }

end Sys2Proof.Machine
end

