-- ==== Sys2Proof/Machine/Operands.lean ====
section
/-! DEFINITION. The operands of the commands (30_encoding.md R75) and the configuration checks (60_exceptions.md R161). -/

namespace Sys2Proof.Machine

/-- `s64(CURSOR_IN_HI, CURSOR_IN_LO)` (R31, R75). -/
def Conf.cursorIn (c : Conf) : BitIndex := c.cursorInHi ++ c.cursorInLo

/-- The region operand `(MINX, MAXX, MINY, MAXY)` (R75). -/
def Conf.region (c : Conf) : Region where
  minX := c.minX
  maxX := c.maxX
  minY := c.minY
  maxY := c.maxY

/-- The region a header holds (R140). -/
def Header.region (h : Header) : Region where
  minX := h.minX
  maxX := h.maxX
  minY := h.minY
  maxY := h.maxY

/-- The pixel count `N`, computed exactly (R26, R75). -/
def Conf.pixelCount (c : Conf) : Nat := c.width.toNat * c.height.toNat

/-- The payload bit length `L = 8 * PAYLOAD_BYTES` (R29). -/
def Conf.payloadBits (c : Conf) : Nat := 8 * c.payloadBytes.toNat

/-- `1 <= c <= 8`, unsigned on the whole register (R27, D42). -/
def legalCapacity (c : Word) : Bool := 1 ≤ c.toNat && c.toNat ≤ 8

/-- R100. -/
def validRegion (r : Region) : Bool := r.minX.toNat ≤ r.maxX.toNat && r.minY.toNat ≤ r.maxY.toNat

/-- `8 <= N <= MAX_PIXELS` (R26). -/
def pixelCountOk (p : Config.Params) (c : Conf) : Bool :=
  8 ≤ c.pixelCount && c.pixelCount ≤ p.maxPixels.toNat

/-- IS_WRITABLE's configuration is legal (R105, R161). -/
def isWritableConfOk (c : Conf) : Bool := c.width.toNat != 0 && validRegion c.region

/-- ESTIMATE's configuration is legal (R106, R161). -/
def estimateConfOk (p : Config.Params) (c : Conf) : Bool :=
  legalCapacity c.capacity && validRegion c.region && pixelCountOk p c

/-- ENCODE's configuration is legal (R135, R161). -/
def encodeConfOk (p : Config.Params) (c : Conf) : Bool :=
  estimateConfOk p c && c.payloadBytes.toNat ≤ 0x1FFFFFFF && c.fillDen.toNat != 0

/-- What DECODE asks of a header (R125). `PayloadBitLength >= 0` always holds. -/
def validHeader (h : Header) : Bool := legalCapacity h.cap && validRegion h.region

end Sys2Proof.Machine
end

