-- ==== Sys2Proof/Machine/Ops.lean ====
section
/-! DEFINITION. The named operations: memory cells and single bits (20_memory.md), register fields, the start of a
command, taking an error, completing, and reset. -/

namespace Sys2Proof.Machine

/-! ## Memory -/

/-- What cell `x` holds. An unlisted cell reads 0 (DESIGN CHOICE, log 4). -/
def Memory.read {w : Nat} : Memory w → Nat → BitVec w
  | [], _ => 0#w
  | (a, v) :: m, x => if x = a then v else Memory.read m x

/-- Put `v` at `x`, keeping the canonical form: a cell that would hold 0 is not listed. -/
def Memory.write {w : Nat} : Memory w → Nat → BitVec w → Memory w
  | [], x, v => if v = 0#w then [] else [(x, v)]
  | (a, u) :: m, x, v =>
    if x < a then (if v = 0#w then (a, u) :: m else (x, v) :: (a, u) :: m)
    else if x = a then (if v = 0#w then m else (x, v) :: m)
    else (a, u) :: Memory.write m x v

/-- The canonical form: addresses strictly rising, no cell equal to what an unlisted one reads as. -/
abbrev Memory.wf {w : Nat} (m : Memory w) : Prop :=
  m.Pairwise (fun p q => p.1 < q.1) ∧ ∀ p ∈ m, p.2 ≠ 0#w

/-! ## Bits of a word -/

/-- `v[p] <- b` (R54). -/
def setBit {w : Nat} (v : BitVec w) (p : Nat) (b : Bool) : BitVec w :=
  if b then v ||| (1#w <<< p) else v &&& ~~~(1#w <<< p)

/-- `pixelOf(b) = b div 32` (R52). -/
def pixelOf (b : BitIndex) : Nat := b.toNat / 32

/-- `posOf(b) = b mod 32` (R52). -/
def posOf (b : BitIndex) : Nat := b.toNat % 32

/-- `laneOf(b) = posOf(b) div 8` (R52). -/
def laneOf (b : BitIndex) : Nat := posOf b / 8

/-- `laneBit(b) = b mod 8` (R52). -/
def laneBitOf (b : BitIndex) : Nat := b.toNat % 8

/-- `PixReadBit(b)` (R53). -/
def pixReadBit (m : Memory 32) (b : BitIndex) : Bool := (m.read (pixelOf b)).getLsbD (posOf b)

/-- `PixWriteBit(b, v)`: a read-modify-write of one word (R54). -/
def pixWriteBit (m : Memory 32) (b : BitIndex) (v : Bool) : Memory 32 :=
  m.write (pixelOf b) (setBit (m.read (pixelOf b)) (posOf b) v)

/-- The bit of a payload byte that holds bit `k` of the payload bitstream (R57, R146). -/
def payBitPos (o : Config.BitOrder) (k : Nat) : Nat :=
  match o with
  | .lsbFirst => k % 8
  | .msbFirst => 7 - k % 8

/-- `PayBit(k)` (R57). -/
def payBit (o : Config.BitOrder) (m : Memory 8) (k : Nat) : Bool := (m.read (k / 8)).getLsbD (payBitPos o k)

/-! ## Result registers -/

def State.setCursorOut (v : BitVec 64) (s : State) : State := { s with res := { s.res with cursorOut := v } }

def State.setWritable (b : Bool) (s : State) : State := { s with res := { s.res with writable := b } }

def State.setEstimate (v : BitVec 64) (s : State) : State := { s with res := { s.res with estimate := v } }

def State.setHdr (h : Header) (s : State) : State := { s with res := { s.res with hdr := h } }

/-- `k`, `pix` and `ptr`: BITS_DONE, SCAN_PIXEL and BITPTR (R39). -/
def State.setScan (k pix : Word) (ptr : BitIndex) (s : State) : State :=
  { s with res := { s.res with bitsDone := k, scanPixel := pix, bitPtr := ptr } }

/-- `OUT_BYTES <- 0; acc <- 0`, the start of DECODE's payload phase (R37, R140). -/
def State.clearPacker (s : State) : State := { s with res := { s.res with outBytes := 0 }, acc := 0 }

def State.setPix (m : Memory 32) (s : State) : State := { s with pix := m }

def State.setFsm (f : Fsm) (s : State) : State := { s with fsm := f }

/-- `collect(bit, k)`: the packer (R146). -/
def State.collect (bit : Bool) (k : Nat) (s : State) : State :=
  let acc := setBit s.acc (payBitPos s.params.bitOrder k) bit
  if k % 8 = 7 then
    { s with pay := s.pay.write (k / 8) acc, res := { s.res with outBytes := s.res.outBytes + 1 }, acc := 0 }
  else { s with acc := acc }

/-! ## Starting, ending and abandoning a command -/

/-- The first line of R72, with the FSM entering RUN in phase `f`: WDROP is left (R24). -/
def State.begin (f : Fsm) (s : State) : State := { s with status := s.status.started, fsm := f }

/-- `raise E`, the block's trap entry: ERRCODE, ERR and DONE are set, BUSY falls, and everything else stays as it
is (R15, R163). -/
def State.raise (e : ErrKind) (s : State) : State := { s with status := s.status.aborted e, fsm := .idle }

/-- Normal completion (R164). There is no return from an error: the next start, or W1C writes, clear it (R165). -/
def State.complete (s : State) : State := { s with status := s.status.completed, fsm := .idle }

/-- The reset input: every register to its reset value, FSM to IDLE, packer cleared, both memories kept (R180,
R181, R193). What it does to the host's side is open: the model keeps the remaining program, the data last read and
the counter of draws (DESIGN CHOICE, log 23). -/
def State.resetInput (s : State) : State :=
  { s with everReset := true, conf := Conf.reset, res := Results.reset, status := Status.reset, fsm := .idle, acc := 0 }

/-- The outcome type of a command. -/
abbrev Result := Host.Outcome State Fault Refusal

end Sys2Proof.Machine
end

