-- ==== Sys2Proof/Machine/Bus.lean ====
section
/-! DEFINITION. The host's side: the register bank as the bus sees it, and the host's own memory accesses
(10_state.md R20 to R24; 20_memory.md R59, R62, R63; 70_reset_and_hazards.md R186 to R189). -/

namespace Sys2Proof.Machine

/-- A register's byte offset in the bank (R22). -/
def Reg.offset : Reg → Nat
  | .cmd => 0x00
  | .status => 0x04
  | .width => 0x08
  | .height => 0x0C
  | .capacity => 0x10
  | .minX => 0x14
  | .maxX => 0x18
  | .minY => 0x1C
  | .maxY => 0x20
  | .payloadBytes => 0x24
  | .fillNum => 0x28
  | .fillDen => 0x2C
  | .cursorInLo => 0x30
  | .cursorInHi => 0x34
  | .pixelIndex => 0x38
  | .cursorOutLo => 0x40
  | .cursorOutHi => 0x44
  | .result => 0x48
  | .estimateLo => 0x50
  | .estimateHi => 0x54
  | .bitsDone => 0x58
  | .scanPixel => 0x5C
  | .bitPtrLo => 0x60
  | .bitPtrHi => 0x64
  | .outBytes => 0x68
  | .hdrLen => 0x70
  | .hdrCap => 0x74
  | .hdrMinX => 0x78
  | .hdrMaxX => 0x7C
  | .hdrMinY => 0x80
  | .hdrMaxY => 0x84

/-- The register at an offset of the bank; none where the offset is reserved (R22). -/
def regAt (off : Nat) : Option Reg :=
  match off with
  | 0x00 => some .cmd
  | 0x04 => some .status
  | 0x08 => some .width
  | 0x0C => some .height
  | 0x10 => some .capacity
  | 0x14 => some .minX
  | 0x18 => some .maxX
  | 0x1C => some .minY
  | 0x20 => some .maxY
  | 0x24 => some .payloadBytes
  | 0x28 => some .fillNum
  | 0x2C => some .fillDen
  | 0x30 => some .cursorInLo
  | 0x34 => some .cursorInHi
  | 0x38 => some .pixelIndex
  | 0x40 => some .cursorOutLo
  | 0x44 => some .cursorOutHi
  | 0x48 => some .result
  | 0x50 => some .estimateLo
  | 0x54 => some .estimateHi
  | 0x58 => some .bitsDone
  | 0x5C => some .scanPixel
  | 0x60 => some .bitPtrLo
  | 0x64 => some .bitPtrHi
  | 0x68 => some .outBytes
  | 0x70 => some .hdrLen
  | 0x74 => some .hdrCap
  | 0x78 => some .hdrMinX
  | 0x7C => some .hdrMaxX
  | 0x80 => some .hdrMinY
  | 0x84 => some .hdrMaxY
  | _ => none

/-- What a read of a register returns while idle (R21, R22, R24). CMD reads 0 (R23). -/
def readReg (r : Reg) (s : State) : Word :=
  match r with
  | .cmd => 0
  | .status => statusWord s.busy s.status
  | .width => s.conf.width
  | .height => s.conf.height
  | .capacity => s.conf.capacity
  | .minX => s.conf.minX
  | .maxX => s.conf.maxX
  | .minY => s.conf.minY
  | .maxY => s.conf.maxY
  | .payloadBytes => s.conf.payloadBytes
  | .fillNum => s.conf.fillNum
  | .fillDen => s.conf.fillDen
  | .cursorInLo => s.conf.cursorInLo
  | .cursorInHi => s.conf.cursorInHi
  | .pixelIndex => s.conf.pixelIndex
  | .cursorOutLo => s.res.cursorOut.extractLsb' 0 32
  | .cursorOutHi => s.res.cursorOut.extractLsb' 32 32
  | .result => 0#31 ++ BitVec.ofBool s.res.writable
  | .estimateLo => s.res.estimate.extractLsb' 0 32
  | .estimateHi => s.res.estimate.extractLsb' 32 32
  | .bitsDone => s.res.bitsDone
  | .scanPixel => s.res.scanPixel
  | .bitPtrLo => s.res.bitPtr.extractLsb' 0 32
  | .bitPtrHi => s.res.bitPtr.extractLsb' 32 32
  | .outBytes => s.res.outBytes
  | .hdrLen => s.res.hdr.len
  | .hdrCap => s.res.hdr.cap
  | .hdrMinX => s.res.hdr.minX
  | .hdrMaxX => s.res.hdr.maxX
  | .hdrMinY => s.res.hdr.minY
  | .hdrMaxY => s.res.hdr.maxY

/-- The result registers of R187. -/
def Reg.isResult : Reg → Bool
  | .cursorOutLo | .cursorOutHi | .result | .estimateLo | .estimateHi | .bitsDone | .scanPixel | .bitPtrLo
  | .bitPtrHi | .outBytes | .hdrLen | .hdrCap | .hdrMinX | .hdrMaxX | .hdrMinY | .hdrMaxY => true
  | .cmd | .status | .width | .height | .capacity | .minX | .maxX | .minY | .maxY | .payloadBytes | .fillNum
  | .fillDen | .cursorInLo | .cursorInHi | .pixelIndex => false

/-- A write to a register other than CMD while idle: RW registers store it, STATUS clears W1C bits, RO registers
ignore it (R21, R62). -/
def writeReg (r : Reg) (v : Word) (s : State) : State :=
  match r with
  | .status => { s with status := s.status.writeOneToClear v }
  | .width => { s with conf := { s.conf with width := v } }
  | .height => { s with conf := { s.conf with height := v } }
  | .capacity => { s with conf := { s.conf with capacity := v } }
  | .minX => { s with conf := { s.conf with minX := v } }
  | .maxX => { s with conf := { s.conf with maxX := v } }
  | .minY => { s with conf := { s.conf with minY := v } }
  | .maxY => { s with conf := { s.conf with maxY := v } }
  | .payloadBytes => { s with conf := { s.conf with payloadBytes := v } }
  | .fillNum => { s with conf := { s.conf with fillNum := v } }
  | .fillDen => { s with conf := { s.conf with fillDen := v } }
  | .cursorInLo => { s with conf := { s.conf with cursorInLo := v } }
  | .cursorInHi => { s with conf := { s.conf with cursorInHi := v } }
  | .pixelIndex => { s with conf := { s.conf with pixelIndex := v } }
  | .cmd | .cursorOutLo | .cursorOutHi | .result | .estimateLo | .estimateHi | .bitsDone | .scanPixel | .bitPtrLo
  | .bitPtrHi | .outBytes | .hdrLen | .hdrCap | .hdrMinX | .hdrMaxX | .hdrMinY | .hdrMaxY => s

/-- Where a bus access lands. -/
inductive BusTarget where
  | reg (r : Reg)
  /-- A reserved offset of the bank. -/
  | reserved
  /-- Not 32 bits wide, or not aligned (R59). -/
  | badAccess
  /-- Outside the bank (R63). -/
  | outside
  deriving DecidableEq, Repr

/-- The bank is the 0x100 bytes at BASE; accesses are 32 bits at offsets that are multiples of 4 (R20, R59, R63). -/
def busTarget (p : Config.Params) (addr size : Nat) : BusTarget :=
  if addr < p.base ∨ p.base + 0x100 ≤ addr then .outside
  else if size ≠ 4 ∨ (addr - p.base) % 4 ≠ 0 then .badAccess
  else
    match regAt (addr - p.base) with
    | some r => .reg r
    | none => .reserved

/-- The rest of the host's program, once its first line is done. -/
def State.advance (s : State) : State := { s with program := s.program.tail }

/-- The data of a host read. -/
def State.returnData (v : Word) (s : State) : State := { s with readData := v }

/-- A host read of a register (R21, R187): a result register read while BUSY returns a draw. -/
def busRead (r : Reg) (s : State) : State :=
  if s.busy && r.isResult then { s with readData := Config.busyRead s.draws, draws := s.draws + 1 }
  else s.returnData (readReg r s)

/-- A write dropped because BUSY = 1 (R186). -/
def dropWrite (s : State) : State := { s with status := s.status.dropped }

/-- A host write to a register or a reserved offset. `onCmd` is what a write to CMD while idle does (R23, R72). -/
def busWrite (onCmd : Word → State → Result) (t : Option Reg) (v : Word) (s : State) : Result :=
  if s.busy then .next (dropWrite s)
  else
    match t with
    | some .cmd => onCmd v s
    | some r => .next (writeReg r v s)
    | none => .next s

/-- A host access to a memory cell: refused while BUSY, a fault where nothing is backed (R188, R189). -/
def hostMemory (backed : Bool) (f : Fault) (s s' : State) : Result :=
  if s.busy then .refused .memoryWhileBusy else if backed then .next s' else .fault f

/-- `wait` polls STATUS and stays at its line while BUSY = 1 (R79). -/
def hostWait (s : State) : State :=
  let s1 := s.returnData (readReg .status s)
  if s.busy then s1 else s1.advance

/-- The host's next line (R77). A host with no line left does nothing. -/
def hostMove (onCmd : Word → State → Result) (s : State) : Result :=
  match s.program with
  | [] => .next s
  | .wait :: _ => .next (hostWait s)
  | .write addr size v :: _ =>
    match busTarget s.params addr size with
    | .reg r => busWrite onCmd (some r) v s.advance
    | .reserved => busWrite onCmd none v s.advance
    | .badAccess => .refused .badAccess
    | .outside => .fault .outsideBank
  | .read addr size :: _ =>
    match busTarget s.params addr size with
    | .reg r => .next (busRead r s.advance)
    | .reserved => .next (s.advance.returnData 0)
    | .badAccess => .refused .badAccess
    | .outside => .fault .outsideBank
  | .storePix i v :: _ =>
    hostMemory (decide (i < s.params.pixWords)) .unbackedPixel s { s.advance with pix := s.pix.write i v }
  | .storePay a v :: _ =>
    hostMemory (decide (a < s.params.payBytes)) .unbackedPayload s { s.advance with pay := s.pay.write a v }
  | .loadPix i :: _ =>
    hostMemory (decide (i < s.params.pixWords)) .unbackedPixel s (s.advance.returnData (s.pix.read i))
  | .loadPay a :: _ =>
    hostMemory (decide (a < s.params.payBytes)) .unbackedPayload s
      (s.advance.returnData ((s.pay.read a).setWidth 32))

end Sys2Proof.Machine
end

