-- ==== Sys2Proof/Machine/Cursor.lean ====
section
/-! DEFINITION. The bit-cursor, NEXT_HDR and NEXT_PAY (40_cursor.md). -/

namespace Sys2Proof.Machine

/-- `idx[4:0]` (R85). -/
def cursorPos (idx : BitIndex) : Nat := (idx.extractLsb' 0 5).toNat

/-- R86. `+` on 64 bits is `wrap64` (R85). -/
def nextHeaderBit (idx : BitIndex) : BitIndex :=
  if (cursorPos idx + 1) % 32 = 0 then idx + 9 else idx + 1

/-- R87, its branches in the rule's order. The comparison is unsigned on the whole of CAPACITY. -/
def nextPayloadBit (idx : BitIndex) (capacity : Word) : BitIndex :=
  let p := cursorPos idx
  let laneBit := p % 8
  let lane := p / 8
  if lane = 0 ∧ laneBit < 7 then idx + 1
  else if laneBit + 1 < capacity.toNat then idx + 1
  else if lane = 0 ∧ laneBit = 7 then idx + 1
  else if p = 31 then idx + 1
  else idx + BitVec.ofNat 64 (8 - laneBit)

/-- What NEXT_HDR does once started (R88). -/
def nextHdrBody (s : State) : Result :=
  .next (s.setCursorOut (nextHeaderBit s.conf.cursorIn)).complete

/-- What NEXT_PAY does once started (R89). -/
def nextPayBody (s : State) : Result :=
  if legalCapacity s.conf.capacity then
    .next (s.setCursorOut (nextPayloadBit s.conf.cursorIn s.conf.capacity)).complete
  else .next (s.raise .invalidConfiguration)

/-- NEXT_HDR (R88). -/
def execNextHdr (s : State) : Result := nextHdrBody (s.begin (.start .nextHdr))

/-- NEXT_PAY (R89). -/
def execNextPay (s : State) : Result := nextPayBody (s.begin (.start .nextPay))

end Sys2Proof.Machine
end

