-- ==== Sys2Proof/Machine/Header.lean ====
section
/-! DEFINITION. The header framer and READ_HEADER (42_header.md). -/

namespace Sys2Proof.Machine

/-- The header as one 192-bit value, PayloadBitLength in bits 31:0 (R116). -/
def serialize (h : Header) : BitVec 192 := h.maxY ++ h.minY ++ h.maxX ++ h.minX ++ h.cap ++ h.len

/-- Field `f` is bits `32f+31 : 32f` (R119). -/
def deserialize (b : BitVec 192) : Header where
  len := b.extractLsb' 0 32
  cap := b.extractLsb' 32 32
  minX := b.extractLsb' 64 32
  maxX := b.extractLsb' 96 32
  minY := b.extractLsb' 128 32
  maxY := b.extractLsb' 160 32

/-- The number of header bits (R10, R115). -/
def headerBits : Nat := 192

/-- The cursor "before the stream starts" (R86). -/
def beforeStream : BitIndex := -1

/-- The last `n` rounds of R123's loop, from header bit `i` with the cursor at `idx`. -/
def writeHeaderFrom (b : BitVec 192) : Nat → Nat → BitIndex → Memory 32 → Memory 32
  | 0, _, _, m => m
  | n + 1, i, idx, m =>
    writeHeaderFrom b n (i + 1) (nextHeaderBit idx) (pixWriteBit m (nextHeaderBit idx) (b.getLsbD i))

/-- `writeHeader(h)` (R123). -/
def writeHeader (h : Header) (m : Memory 32) : Memory 32 :=
  writeHeaderFrom (serialize h) headerBits 0 beforeStream m

/-- The last `n` rounds of R124's loop, from header bit `i` with the cursor at `idx` and `bits` read so far. -/
def readHeaderFrom (m : Memory 32) : Nat → Nat → BitIndex → BitVec 192 → BitVec 192
  | 0, _, _, bits => bits
  | n + 1, i, idx, bits =>
    readHeaderFrom m n (i + 1) (nextHeaderBit idx) (setBit bits i (pixReadBit m (nextHeaderBit idx)))

/-- `readHeader()` (R124). -/
def readHeader (m : Memory 32) : Header := deserialize (readHeaderFrom m headerBits 0 beforeStream 0)

/-- The platform backs the eight pixel words a header occupies (R120, R189). -/
def headerBacked (p : Config.Params) : Bool := Config.hdrPixels ≤ p.pixWords

/-- What READ_HEADER does once started (R122). -/
def readHeaderBody (s : State) : Result :=
  if pixelCountOk s.params s.conf then
    if headerBacked s.params then .next (s.setHdr (readHeader s.pix)).complete
    else .fault .unbackedPixel
  else .next (s.raise .invalidConfiguration)

/-- READ_HEADER (R122). -/
def execReadHeader (s : State) : Result := readHeaderBody (s.begin (.start .readHeader))

end Sys2Proof.Machine
end

