-- ==== Sys2Proof/Machine/Region.lean ====
section
/-! DEFINITION. The payload-region addresser, the capacity estimate, IS_WRITABLE and ESTIMATE (41_region.md). -/

namespace Sys2Proof.Machine

/-- R100. -/
def degenerate (r : Region) : Bool := r.minX == r.maxX && r.minY == r.maxY

/-- R101. -/
def isWritable (i width : Nat) (r : Region) : Bool :=
  let x := i % width
  let y := i / width
  if degenerate r then true
  else r.minX.toNat ≤ x && x ≤ r.maxX.toNat && r.minY.toNat ≤ y && y ≤ r.maxY.toNat

/-- How many payload bits a writable pixel holds (R92). -/
def bitsPerPixel (c : Nat) : Nat := 8 + 3 * c

/-- `| { i in [first, N) : isWritable(i, width, r) } |` (R102). -/
def countWritable (first n width : Nat) (r : Region) : Nat :=
  (List.range' first (n - first)).countP (fun i => isWritable i width r)

/-- R102, over the registers it reads and EST_FIRST_PIXEL. -/
def estimate (p : Config.Params) (c : Conf) : Nat :=
  countWritable p.estFirst.toNat c.pixelCount c.width.toNat c.region * bitsPerPixel c.capacity.toNat

/-- R104, on exact integers. -/
def fillOk (c : Conf) (l e : Nat) : Bool := !decide (l * c.fillDen.toNat > c.fillNum.toNat * e)

/-- What IS_WRITABLE does once started (R105). -/
def isWritableBody (s : State) : Result :=
  if isWritableConfOk s.conf then
    .next (s.setWritable (isWritable s.conf.pixelIndex.toNat s.conf.width.toNat s.conf.region)).complete
  else .next (s.raise .invalidConfiguration)

/-- What ESTIMATE does once started (R106). -/
def estimateBody (s : State) : Result :=
  if estimateConfOk s.params s.conf then
    .next (s.setEstimate (BitVec.ofNat 64 (estimate s.params s.conf))).complete
  else .next (s.raise .invalidConfiguration)

/-- IS_WRITABLE (R105). -/
def execIsWritable (s : State) : Result := isWritableBody (s.begin (.start .isWritable))

/-- ESTIMATE (R106). -/
def execEstimate (s : State) : Result := estimateBody (s.begin (.start .estimate))

end Sys2Proof.Machine
end

