-- ==== Sys2Proof/Machine/Codec.lean ====
section
/-! DEFINITION. The payload scan, ENCODE and DECODE (43_codec.md). -/

namespace Sys2Proof.Machine

/-- The per-bit action of a scan: ENCODE writes, DECODE reads (R130, R131). -/
inductive Direction where
  | write
  | read
  deriving DecidableEq, Repr

/-- What a scan is given (R131): `N`, the width, capacity, region, bit length and action. -/
structure ScanArgs where
  n      : Nat
  width  : Nat
  cap    : Word
  region : Region
  len    : Nat
  dir    : Direction
  deriving DecidableEq, Repr

/-- How a scan, or one iteration of it, ends. -/
inductive ScanEnd where
  /-- All `L` bits are moved (R131). -/
  | done (s : State)
  /-- `pix >= N` with bits left (R131). -/
  | exhausted (s : State)
  /-- An address the bit needs is not backed (R189). -/
  | unbacked (f : Fault)
  deriving DecidableEq, Repr

/-- ENCODE's scan (R135). -/
def encodeArgs (s : State) : ScanArgs where
  n := s.conf.pixelCount
  width := s.conf.width.toNat
  cap := s.conf.capacity
  region := s.conf.region
  len := s.conf.payloadBits
  dir := .write

/-- DECODE's scan: capacity, region and length come from the header (R140). -/
def decodeArgs (s : State) : ScanArgs where
  n := s.conf.pixelCount
  width := s.conf.width.toNat
  cap := s.res.hdr.cap
  region := s.res.hdr.region
  len := s.res.hdr.len.toNat
  dir := .read

/-- `k <- 0; pix <- PAYLOAD_START; ptr <- -1` (R131). -/
def scanInit (s : State) : State := s.setScan 0 (BitVec.ofNat 32 Config.payloadStart) (-1)

/-- `act(ptr, k)`. ENCODE reads the payload byte and writes the pixel bit (R135); DECODE reads the pixel bit and
packs it (R140, R146). -/
def scanAct (d : Direction) (ptr : BitIndex) (s : State) : State :=
  match d with
  | .write => s.setPix (pixWriteBit s.pix ptr (payBit s.params.bitOrder s.pay s.res.bitsDone.toNat))
  | .read => s.collect (pixReadBit s.pix ptr) s.res.bitsDone.toNat

/-- Which address of `act(ptr, k)` the platform does not back, if one is not (R189). ENCODE reads payload byte
`k div 8`; DECODE writes it with its last bit. -/
def scanFault (d : Direction) (s : State) : Option Fault :=
  let k := s.res.bitsDone.toNat
  match d with
  | .write =>
    if s.params.payBytes ≤ k / 8 then some .unbackedPayload
    else if s.params.pixWords ≤ s.res.scanPixel.toNat then some .unbackedPixel
    else none
  | .read =>
    if s.params.pixWords ≤ s.res.scanPixel.toNat then some .unbackedPixel
    else if k % 8 = 7 ∧ s.params.payBytes ≤ k / 8 then some .unbackedPayload
    else none

/-- `if ptr == -1: ptr <- 32 * pix` (R131). -/
def activePtr (s : State) : BitIndex :=
  if s.res.bitPtr = -1 then BitVec.ofNat 64 (32 * s.res.scanPixel.toNat) else s.res.bitPtr

/-- A writable pixel's iteration: `act(ptr, k); k <- k + 1; ptr <- nextPayloadBit(ptr, c); pix <- ptr div 32` (R131). -/
def scanBit (a : ScanArgs) (s : State) : State :=
  let ptr := activePtr s
  let next := nextPayloadBit ptr a.cap
  (scanAct a.dir ptr s).setScan (s.res.bitsDone + 1) (BitVec.ofNat 32 (pixelOf next)) next

/-- Any other pixel's iteration: `ptr <- -1; pix <- pix + 1` (R131). -/
def skipPixel (s : State) : State := s.setScan s.res.bitsDone (s.res.scanPixel + 1) (-1)

/-- The current pixel is inside the image and not writable. -/
def atSkippedPixel (a : ScanArgs) (s : State) : Bool :=
  decide (s.res.scanPixel.toNat < a.n) && !isWritable s.res.scanPixel.toNat a.width a.region

/-- At most `n` iterations, as long as the scan stands at a pixel that is not writable. -/
def skipPixels (a : ScanArgs) : Nat → State → State
  | 0, s => s
  | n + 1, s => if atSkippedPixel a s then skipPixels a n (skipPixel s) else s

/-- The iterations of R131's loop up to the next bit: skip to the next writable pixel, then test for exhaustion. -/
def toNextBit (a : ScanArgs) (s : State) : State := skipPixels a (a.n - s.res.scanPixel.toNat) s

/-- R131's loop with `left` bits to go (`k = L - left`): it stops before an iteration when none is left (R132). -/
def scanFrom (a : ScanArgs) : Nat → State → ScanEnd
  | 0, s => .done s
  | left + 1, s =>
    let s1 := toNextBit a s
    if a.n ≤ s1.res.scanPixel.toNat then .exhausted s1
    else
      match scanFault a.dir s1 with
      | some f => .unbacked f
      | none => scanFrom a left (scanBit a s1)

/-- `scan(N, w, c, r, L, act, exhaustErr)` (R131). -/
def scan (a : ScanArgs) (s : State) : ScanEnd := scanFrom a a.len (scanInit s)

/-- The record ENCODE builds (R121). -/
def encodeHeader (c : Conf) : Header where
  len := BitVec.ofNat 32 c.payloadBits
  cap := c.capacity
  minX := c.minX
  maxX := c.maxX
  minY := c.minY
  maxY := c.maxY

/-- ENCODE's phase HDR: HDR_* and the header in pixels 0..7 (R121, R135). -/
def encodeWriteHeader (s : State) : State :=
  (s.setHdr (encodeHeader s.conf)).setPix (writeHeader (encodeHeader s.conf) s.pix)

/-- ENCODE's phases SCAN and END (R135). -/
def encodeScanEnd : ScanEnd → Result
  | .done s => .next s.complete
  | .exhausted s => .next (s.raise .insufficientCapacityError)
  | .unbacked f => .fault f

/-- What ENCODE does once started (R135). -/
def encodeBody (s : State) : Result :=
  if encodeConfOk s.params s.conf then
    let e := estimate s.params s.conf
    let s1 := s.setEstimate (BitVec.ofNat 64 e)
    if fillOk s.conf s.conf.payloadBits e then
      if headerBacked s.params then
        let s2 := encodeWriteHeader s1
        encodeScanEnd (scan (encodeArgs s2) s2)
      else .fault .unbackedPixel
    else .next (s1.raise .capacityError)
  else .next (s.raise .invalidConfiguration)

/-- DECODE's phases TAIL and END, for a header of `len` bits (R140). -/
def decodeTailEnd (len : Nat) (s : State) : State :=
  if len % 8 = 0 then s.complete else s.raise .malformedPayloadError

/-- DECODE's phases SCAN, TAIL and END (R140). -/
def decodeScanEnd (len : Nat) : ScanEnd → Result
  | .done s => .next (decodeTailEnd len s)
  | .exhausted s => .next (s.raise .truncatedPayloadError)
  | .unbacked f => .fault f

/-- What DECODE does once started (R140). -/
def decodeBody (s : State) : Result :=
  if pixelCountOk s.params s.conf then
    if headerBacked s.params then
      let s1 := s.setHdr (readHeader s.pix)
      if validHeader s1.res.hdr then
        let a := decodeArgs s1
        decodeScanEnd a.len (scan a s1.clearPacker)
      else .next (s1.raise .corruptHeaderError)
    else .fault .unbackedPixel
  else .next (s.raise .invalidConfiguration)

/-- ENCODE (R135). -/
def execEncode (s : State) : Result := encodeBody (s.begin (.start .encode))

/-- DECODE (R140). -/
def execDecode (s : State) : Result := decodeBody (s.begin (.start .decode))

end Sys2Proof.Machine
end

