-- ==== Sys2Proof/Machine/Dispatch.lean ====
section
/-! DEFINITION. One arm per command of 30_encoding.md R71. -/

namespace Sys2Proof.Machine

def exec (i : Instr) (s : State) : Host.Outcome State Fault Refusal :=
  match i with
  | .nextHdr => Sys2Proof.Machine.execNextHdr s
  | .nextPay => Sys2Proof.Machine.execNextPay s
  | .isWritable => Sys2Proof.Machine.execIsWritable s
  | .estimate => Sys2Proof.Machine.execEstimate s
  | .encode => Sys2Proof.Machine.execEncode s
  | .decode => Sys2Proof.Machine.execDecode s
  | .readHeader => Sys2Proof.Machine.execReadHeader s

end Sys2Proof.Machine
end

