-- ==== Sys2Proof/Machine/Fsm.lean ====
section
/-! DEFINITION. The core FSM: what one FSM step does in each phase (10_state.md R38; 43_codec.md R130;
70_reset_and_hazards.md R191). Each loop iteration of the pseudocode is one step. ESTIMATE and READ_HEADER test
their configuration in the step of their first iteration (log 10). -/

namespace Sys2Proof.Machine

/-- One estimate pixel: the count after pixel `i` (R102). -/
def countPixel (s : State) (i count : Nat) : Nat :=
  if decide (i < s.conf.pixelCount) && isWritable i s.conf.width.toNat s.conf.region then count + 1 else count

/-- ESTIMATE's step at pixel `i` (R106). -/
def estimateStep (i count : Nat) (s : State) : Result :=
  let c := countPixel s i count
  if i + 1 < s.conf.pixelCount then .next (s.setFsm (.estimatePixel (i + 1) c))
  else .next (s.setEstimate (BitVec.ofNat 64 (c * bitsPerPixel s.conf.capacity.toNat))).complete

/-- The end of ENCODE's phase EST, with the estimate `e`: the fill guard, then HDR_* (R135). -/
def encodeEstEnd (e : Nat) (s : State) : Result :=
  let s1 := s.setEstimate (BitVec.ofNat 64 e)
  if fillOk s.conf s.conf.payloadBits e then
    if headerBacked s.params then
      .next ((s1.setHdr (encodeHeader s.conf)).setFsm (.encodeHdr 0 beforeStream))
    else .fault .unbackedPixel
  else .next (s1.raise .capacityError)

/-- ENCODE's step of phase EST at pixel `i` (R135). -/
def encodeEstStep (i count : Nat) (s : State) : Result :=
  let c := countPixel s i count
  if i + 1 < s.conf.pixelCount then .next (s.setFsm (.encodeEst (i + 1) c))
  else encodeEstEnd (c * bitsPerPixel s.conf.capacity.toNat) s

/-- ENCODE's step of phase HDR: header bit `i` (R123). The scan's variables are set with the last one (R131). -/
def encodeHdrStep (i : Nat) (idx : BitIndex) (s : State) : Result :=
  let idx' := nextHeaderBit idx
  let s1 := s.setPix (pixWriteBit s.pix idx' ((serialize s.res.hdr).getLsbD i))
  if i + 1 < headerBits then .next (s1.setFsm (.encodeHdr (i + 1) idx'))
  else .next ((scanInit s1).setFsm .encodeScan)

/-- READ_HEADER's step: header bit `i` (R124). -/
def readHdrStep (i : Nat) (idx : BitIndex) (bits : BitVec 192) (s : State) : Result :=
  let idx' := nextHeaderBit idx
  let bits' := setBit bits i (pixReadBit s.pix idx')
  if i + 1 < headerBits then .next (s.setFsm (.readHdr (i + 1) idx' bits'))
  else .next (s.setHdr (deserialize bits')).complete

/-- DECODE's step of phase HDR: header bit `i` (R124, R140). -/
def decodeHdrStep (i : Nat) (idx : BitIndex) (bits : BitVec 192) (s : State) : Result :=
  let idx' := nextHeaderBit idx
  let bits' := setBit bits i (pixReadBit s.pix idx')
  if i + 1 < headerBits then .next (s.setFsm (.decodeHdr (i + 1) idx' bits'))
  else .next ((s.setHdr (deserialize bits')).setFsm .decodeValidate)

/-- One iteration of R131's loop, with its tests in R132's order. -/
def scanStep (a : ScanArgs) (onEnd : ScanEnd → Result) (s : State) : Result :=
  if s.res.bitsDone.toNat < a.len then
    if a.n ≤ s.res.scanPixel.toNat then onEnd (.exhausted s)
    else if isWritable s.res.scanPixel.toNat a.width a.region then
      match scanFault a.dir s with
      | some f => onEnd (.unbacked f)
      | none => .next (scanBit a s)
    else .next (skipPixel s)
  else onEnd (.done s)

/-- DECODE goes from SCAN to TAIL, or ends (R130, R140). -/
def decodeScanStepEnd : ScanEnd → Result
  | .done s => .next (s.setFsm .decodeTail)
  | .exhausted s => .next (s.raise .truncatedPayloadError)
  | .unbacked f => .fault f

/-- DECODE's phase VALIDATE (R140). -/
def decodeValidateStep (s : State) : Result :=
  if validHeader s.res.hdr then .next ((scanInit s.clearPacker).setFsm .decodeScan)
  else .next (s.raise .corruptHeaderError)

/-- A command's first step: the one-step commands whole, the others their CHECK (R130, R161, R191). -/
def startStep (i : Instr) (s : State) : Result :=
  match i with
  | .nextHdr => nextHdrBody s
  | .nextPay => nextPayBody s
  | .isWritable => isWritableBody s
  | .estimate =>
    if estimateConfOk s.params s.conf then estimateStep s.params.estFirst.toNat 0 s
    else .next (s.raise .invalidConfiguration)
  | .encode =>
    if encodeConfOk s.params s.conf then .next (s.setFsm (.encodeEst s.params.estFirst.toNat 0))
    else .next (s.raise .invalidConfiguration)
  | .decode =>
    if pixelCountOk s.params s.conf then
      if headerBacked s.params then .next (s.setFsm (.decodeHdr 0 beforeStream 0)) else .fault .unbackedPixel
    else .next (s.raise .invalidConfiguration)
  | .readHeader =>
    if pixelCountOk s.params s.conf then
      if headerBacked s.params then readHdrStep 0 beforeStream 0 s else .fault .unbackedPixel
    else .next (s.raise .invalidConfiguration)

/-- One step of the core FSM. In IDLE the block does nothing (R174). -/
def coreStep (s : State) : Result :=
  match s.fsm with
  | .idle => .next s
  | .illegal => .next (s.raise .illegalCommand)
  | .start i => startStep i s
  | .estimatePixel i count => estimateStep i count s
  | .encodeEst i count => encodeEstStep i count s
  | .encodeHdr i idx => encodeHdrStep i idx s
  | .encodeScan => scanStep (encodeArgs s) encodeScanEnd s
  | .readHdr i idx bits => readHdrStep i idx bits s
  | .decodeHdr i idx bits => decodeHdrStep i idx bits s
  | .decodeValidate => decodeValidateStep s
  | .decodeScan => scanStep (decodeArgs s) decodeScanStepEnd s
  | .decodeTail => .next (decodeTailEnd s.res.hdr.len.toNat s)

/-- `n` FSM steps with nothing in between. -/
def coreRun : Nat → State → Result
  | 0, s => .next s
  | n + 1, s =>
    match coreStep s with
    | .next s1 => coreRun n s1
    | .fault f => .fault f
    | .refused r => .refused r

/-- R191's bounds on a command's FSM steps. A command turned away in its first step takes that one step, so
ESTIMATE's bound is at least 1 (log 11). -/
def stepBound (i : Instr) (s : State) : Nat :=
  let n := s.conf.pixelCount
  match i with
  | .nextHdr | .nextPay | .isWritable => 1
  | .readHeader => 192
  | .estimate => max 1 n
  | .encode => 1 + n + 192 + s.conf.payloadBits + n
  | .decode => 1 + 192 + 1 + (readHeader s.pix).len.toNat + n + 1

end Sys2Proof.Machine
end

