-- ==== Sys2Proof/Machine/Command.lean ====
section
/-! DEFINITION. What a CMD write does, and whose move is next (30_encoding.md R72; 60_exceptions.md R166). -/

namespace Sys2Proof.Machine

/-- An illegal command word: IllegalCommand, and nothing but STATUS changes (R72, R73). -/
def execIllegal (s : State) : State := (s.begin .illegal).raise .illegalCommand

/-- A CMD write with nothing else happening until the command ends: the command whole (R40, R61, R72). -/
def runCommand (w : Word) (s : State) : Result :=
  match decode w with
  | .ok i => exec i s
  | .error _ => .next (execIllegal s)

/-- A CMD write that starts the command and no more: BUSY is 1 after it (R72). -/
def startCommand (w : Word) (s : State) : Result :=
  match decode w with
  | .ok i => .next (s.begin (.start i))
  | .error _ => .next (s.begin .illegal)

/-- The next move, given the order's rest `ts`. Nothing but reset is a move before the first reset (R193). -/
def takeTurn (t : Turn) (ts : List Turn) (s : State) : Result :=
  let s1 := { s with turns := ts }
  match t with
  | .reset => .next s1.resetInput
  | .host => if s.everReset then hostMove startCommand s1 else .refused .beforeReset
  | .core => if s.everReset then coreStep s1 else .refused .beforeReset
  | .stall => if s.everReset then .next s1 else .refused .beforeReset

/-- Where no order is given, nothing interferes: a running command goes on, and the host moves when the block is
idle, each of its commands run whole (R61, R191; log 1). -/
def defaultTurn (s : State) : Result :=
  if s.everReset then
    if s.busy then coreStep s else hostMove runCommand s
  else .refused .beforeReset

/-- One step of the machine. -/
def machineStep (s : State) : Result :=
  match s.turns with
  | t :: ts => takeTurn t ts s
  | [] => defaultTurn s

end Sys2Proof.Machine
end

