-- ==== Sys2Proof/Machine/Step.lean ====
section
/-! DEFINITION. One step of the machine, and where a step takes its next command from. -/

namespace Sys2Proof.Machine

def step (s : State) : Host.Outcome State Fault Refusal := machineStep s

/-- `s` with the host about to write the command word `w` to CMD, nothing interfering: the block is idle, reset
was asserted, and no order of moves is pending (log 17). -/
def State.withFetchWord (s : State) (nbits w : Nat) : State :=
  { s with
    everReset := true
    fsm := .idle
    turns := []
    program := .write s.params.base 4 (BitVec.ofNat 32 (w % 2 ^ nbits)) :: s.program }

end Sys2Proof.Machine
end

