-- ==== Sys2Proof/Machine/HostProgram.lean ====
section
/-! DEFINITION. The host-sequence notation and its bus transactions (30_encoding.md R77 to R81). -/

namespace Sys2Proof.Machine

/-- The 64-bit pairs (R80). -/
inductive Pair where
  | cursorIn | cursorOut | estimate | bitPtr
  deriving DecidableEq, Repr

def Pair.lo : Pair → Reg
  | .cursorIn => .cursorInLo
  | .cursorOut => .cursorOutLo
  | .estimate => .estimateLo
  | .bitPtr => .bitPtrLo

def Pair.hi : Pair → Reg
  | .cursorIn => .cursorInHi
  | .cursorOut => .cursorOutHi
  | .estimate => .estimateHi
  | .bitPtr => .bitPtrHi

/-- A line of the notation (R77). -/
inductive HostLine where
  | wr (r : Reg) (v : Word)
  | rd (r : Reg)
  | cmd (i : Instr)
  | wait
  | wr64 (p : Pair) (v : BitVec 64)
  | pix (i : Nat) (v : Word)
  | pay (a : Nat) (v : Byte)
  | expect (r : Reg) (v : Word)
  deriving DecidableEq, Repr

/-- A 32-bit write to a register of the bank at BASE (R22, R77). -/
def wrOp (p : Config.Params) (r : Reg) (v : Word) : HostOp := .write (p.base + r.offset) 4 v

/-- What a line expands to (R77 to R80). `expect` is a check, not a transaction. -/
def HostLine.expand (p : Config.Params) : HostLine → List HostOp
  | .wr r v => [wrOp p r v]
  | .rd r => [.read (p.base + r.offset) 4]
  | .cmd i => [wrOp p .cmd (encode i)]
  | .wait => [.wait]
  | .wr64 q v => [wrOp p q.lo (v.extractLsb' 0 32), wrOp p q.hi (v.extractLsb' 32 32)]
  | .pix i v => [.storePix i v]
  | .pay a v => [.storePay a v]
  | .expect _ _ => []

/-- A host program is its list of transactions, in order (R81). -/
def hostProgram (p : Config.Params) (lines : List HostLine) : List HostOp := lines.flatMap (HostLine.expand p)

end Sys2Proof.Machine
end

