-- ==== Sys2Proof/Safety.lean ====
section
/-! DEFINITION. What claims call a good state and a good run, in terms of spec/: the states a command ends in, where
header and payload bits lie, what the platform owes, and the machine's invariant. -/

namespace Sys2Proof.Machine

/-! ## How a command ends -/

/-- `s` after a command that completed with the result registers `r`: DONE set, ERR and ERRCODE 0, WDROP as before,
the FSM in IDLE, nothing else changed (R72, R164). -/
def State.endedOk (s : State) (r : Results) : State :=
  { s with res := r, status := { done := true, err := false, errCode := 0, wdrop := s.status.wdrop }, fsm := .idle }

/-- `s` after a command that an error of this code ended, the result registers at `r` (R72, R163). -/
def State.endedErr (s : State) (code : BitVec 4) (r : Results) : State :=
  { s with res := r, status := { done := true, err := true, errCode := code, wdrop := s.status.wdrop }, fsm := .idle }

/-! ## The region and the estimate -/

/-- A pixel is writable (R100, R101). -/
abbrev WritableAt (i width : Nat) (r : Region) : Prop :=
  (r.minX = r.maxX ∧ r.minY = r.maxY) ∨
    (r.minX.toNat ≤ i % width ∧ i % width ≤ r.maxX.toNat ∧ r.minY.toNat ≤ i / width ∧ i / width ≤ r.maxY.toNat)

/-- The writable pixels in `[first, N)` (R102). -/
def writableSet (first n width : Nat) (r : Region) : Finset Nat :=
  (Finset.Ico first n).filter (fun i => WritableAt i width r)

/-- The payload bits the scan can place: the writable pixels in `[9, N)` times `8 + 3c` (R107). -/
def ScanArgs.room (a : ScanArgs) : Nat := (writableSet 9 a.n a.width a.region).card * (8 + 3 * a.cap.toNat)

/-- The estimate `E` of R102, for the registers of `s`. -/
def State.estimateOf (s : State) : Nat :=
  (writableSet s.params.estFirst.toNat (s.conf.width.toNat * s.conf.height.toNat) s.conf.width.toNat
    s.conf.region).card * (8 + 3 * s.conf.capacity.toNat)

/-- `fillOk(L, E)` of R104, as the rule writes it. -/
abbrev State.FillOk (s : State) : Prop :=
  ¬ (8 * s.conf.payloadBytes.toNat * s.conf.fillDen.toNat > s.conf.fillNum.toNat * s.estimateOf)

/-! ## Where bits lie -/

/-- `hdrPos(i)` (R90). -/
def hdrPos (i : Nat) : Nat := 32 * (i / 24) + 8 + i % 24

/-- The `j`-th payload-framed offset within a pixel at capacity `c`: lane 0 whole, then the low `c` bits of lanes 1,
2 and 3 (R92). -/
def payOffset (c j : Nat) : Nat := if j < 8 then j else 8 * ((j - 8) / c + 1) + (j - 8) % c

/-- A bit of a pixel that payload framing selects (R92). -/
abbrev PayFramed (c p : Nat) : Prop := p < 32 ∧ (p < 8 ∨ p % 8 < c)

/-- The writable pixels in `[9, N)` in the scan's order. -/
def ScanArgs.pixels (a : ScanArgs) : List Nat :=
  (List.range' 9 (a.n - 9)).filter (fun i => decide (WritableAt i a.width a.region))

/-- The BitIndex of payload bit `k` (R133): the `(k mod (8+3c))`-th framed position of the `(k div (8+3c))`-th
writable pixel at or after pixel 9. -/
def ScanArgs.bitPos (a : ScanArgs) (k : Nat) : Nat :=
  32 * a.pixels.getD (k / (8 + 3 * a.cap.toNat)) 0 + payOffset a.cap.toNat (k % (8 + 3 * a.cap.toNat))

/-- Bit `b` of the conceptual bit stream of a pixel memory (R52). -/
def streamBit (m : Memory 32) (b : Nat) : Bool := (m.read (b / 32)).getLsbD (b % 32)

/-- The 192 header bits of a record, field 0 lowest (R116). -/
def Header.word (h : Header) : BitVec 192 := h.maxY ++ h.minY ++ h.maxX ++ h.minX ++ h.cap ++ h.len

/-- Lane `j` of pixel word `i` (R51). -/
def laneByte (m : Memory 32) (i j : Nat) : Byte := (m.read i).extractLsb' (8 * j) 8

/-- The record that pixels 0..7 hold, by the field-to-pixel map of R118. -/
def headerInPixels (m : Memory 32) : Header where
  len := laneByte m 1 1 ++ laneByte m 0 3 ++ laneByte m 0 2 ++ laneByte m 0 1
  cap := laneByte m 2 2 ++ laneByte m 2 1 ++ laneByte m 1 3 ++ laneByte m 1 2
  minX := laneByte m 3 3 ++ laneByte m 3 2 ++ laneByte m 3 1 ++ laneByte m 2 3
  maxX := laneByte m 5 1 ++ laneByte m 4 3 ++ laneByte m 4 2 ++ laneByte m 4 1
  minY := laneByte m 6 2 ++ laneByte m 6 1 ++ laneByte m 5 3 ++ laneByte m 5 2
  maxY := laneByte m 7 3 ++ laneByte m 7 2 ++ laneByte m 7 1 ++ laneByte m 6 3

/-- The record ENCODE builds from the registers of `s` (R121). -/
def State.record (s : State) : Header where
  len := 8 * s.conf.payloadBytes
  cap := s.conf.capacity
  minX := s.conf.minX
  maxX := s.conf.maxX
  minY := s.conf.minY
  maxY := s.conf.maxY

/-- DECODE's scan for the header that pixel memory holds (R140). -/
def State.decodeScanArgs (s : State) : ScanArgs where
  n := s.conf.width.toNat * s.conf.height.toNat
  width := s.conf.width.toNat
  cap := (headerInPixels s.pix).cap
  region := (headerInPixels s.pix).region
  len := (headerInPixels s.pix).len.toNat
  dir := .read

/-! ## Legal configurations, spelled out (R161) -/

abbrev State.N (s : State) : Nat := s.conf.width.toNat * s.conf.height.toNat

abbrev State.PixelCountLegal (s : State) : Prop := 8 ≤ s.N ∧ s.N ≤ s.params.maxPixels.toNat

abbrev CapacityLegal (c : Word) : Prop := 1 ≤ c.toNat ∧ c.toNat ≤ 8

abbrev RegionLegal (r : Region) : Prop := r.minX.toNat ≤ r.maxX.toNat ∧ r.minY.toNat ≤ r.maxY.toNat

abbrev State.IsWritableLegal (s : State) : Prop := s.conf.width.toNat ≠ 0 ∧ RegionLegal s.conf.region

abbrev State.EstimateLegal (s : State) : Prop :=
  CapacityLegal s.conf.capacity ∧ RegionLegal s.conf.region ∧ s.PixelCountLegal

abbrev State.EncodeLegal (s : State) : Prop :=
  s.EstimateLegal ∧ s.conf.payloadBytes.toNat ≤ 0x1FFFFFFF ∧ s.conf.fillDen.toNat ≠ 0

/-- `validHeader` (R125). -/
abbrev HeaderLegal (h : Header) : Prop := CapacityLegal h.cap ∧ RegionLegal h.region

/-! ## What the platform owes (R189) -/

abbrev State.PixelsBacked (s : State) : Prop := s.N ≤ s.params.pixWords

abbrev State.EncodeBacked (s : State) : Prop :=
  s.PixelsBacked ∧ s.conf.payloadBytes.toNat ≤ s.params.payBytes

abbrev State.DecodeBacked (s : State) : Prop :=
  s.PixelsBacked ∧ (headerInPixels s.pix).len.toNat / 8 ≤ s.params.payBytes

/-! ## Whose move it is -/

/-- The block is idle, the host moves next, and `ts` is the order of the moves after it: no order is pending, or the
order names the host (log 1). -/
abbrev State.HostNext (s : State) (ts : List Turn) : Prop :=
  s.everReset = true ∧ s.fsm = .idle ∧ (s.turns = [] ∧ ts = [] ∨ s.turns = .host :: ts)

/-! ## The invariant -/

/-- STATUS is as R25 says, and ERRCODE is one of R160's (I6). -/
structure StatusOk (s : State) : Prop where
  errHasCode : s.status.err = true → s.status.errCode ≠ 0
  noErrNoCode : s.status.err = false → s.status.errCode = 0
  busyClear : s.busy = true → s.status.done = false ∧ s.status.err = false
  codeKnown : s.status.errCode.toNat ≤ 7

/-- A running scan: `k` is at most `L`, and `ptr` is -1 or a payload-framed bit of pixel `pix` (R133). -/
structure ScanOk (a : ScanArgs) (s : State) : Prop where
  bits : s.res.bitsDone.toNat ≤ a.len
  pixel : 9 ≤ s.res.scanPixel.toNat
  pixelLe : s.res.scanPixel.toNat ≤ max 9 a.n
  ptr : s.res.bitPtr = -1 ∨
    ∃ p, PayFramed a.cap.toNat p ∧ s.res.bitPtr.toNat = 32 * s.res.scanPixel.toNat + p

/-- What holds in each phase of a running command: the checks before it have passed. -/
def PhaseOk (s : State) : Prop :=
  match s.fsm with
  | .idle | .illegal | .start _ => True
  | .estimatePixel _ _ => s.EstimateLegal
  | .encodeEst _ _ => s.EncodeLegal
  | .encodeHdr i _ => s.EncodeLegal ∧ i < 192
  | .encodeScan => s.EncodeLegal ∧ ScanOk (encodeArgs s) s
  | .readHdr i _ _ => s.PixelCountLegal ∧ i < 192
  | .decodeHdr i _ _ => s.PixelCountLegal ∧ i < 192
  | .decodeValidate => s.PixelCountLegal
  | .decodeScan => s.PixelCountLegal ∧ HeaderLegal s.res.hdr ∧ ScanOk (decodeArgs s) s
  | .decodeTail => s.PixelCountLegal ∧ HeaderLegal s.res.hdr

/-- The invariant of the machine: both memories in their canonical form, STATUS as R25 says, and a running command
in a phase its checks allow. -/
structure Inv (s : State) : Prop where
  pixWf : s.pix.wf
  payWf : s.pay.wf
  status : StatusOk s
  phase : PhaseOk s

end Sys2Proof.Machine
end

