-- ==== Sys2Proof/Certificates/Slice0/Obligations.lean ====
section
/-! DEFINITION. The statements about the model, each from a numbered rule of spec/ or derived from its sections. -/

open Sys2Proof Sys2Proof.Machine

/-! ## Command words (30_encoding.md) -/

/-- The seven words of R71, bit by bit: RSVD, then OPCODE. -/
def Obligations.TableWordsDecode : Prop :=
  decode 0b00000000000000000000000000000001#32 = .ok .nextHdr ∧
  decode 0b00000000000000000000000000000010#32 = .ok .nextPay ∧
  decode 0b00000000000000000000000000000011#32 = .ok .isWritable ∧
  decode 0b00000000000000000000000000000100#32 = .ok .estimate ∧
  decode 0b00000000000000000000000000000101#32 = .ok .encode ∧
  decode 0b00000000000000000000000000000110#32 = .ok .decode ∧
  decode 0b00000000000000000000000000000111#32 = .ok .readHeader

/-- R73, R74: every word is the one word of one of the seven commands, or illegal, and illegal exactly when RSVD is
not 0 or OPCODE is 0 or 8..15. -/
def Obligations.DecoderTotality : Prop :=
  (∀ (w : Word) (i : Instr), decode w = .ok i ↔ w = encode i) ∧
  (∀ w : Word, (∃ e, decode w = .error e) ↔
    (w.toNat / 16 ≠ 0 ∨ w.toNat % 16 = 0 ∨ 8 ≤ w.toNat % 16))

/-- A step of an idle block whose host writes a legal command word, nothing interfering, is that command's
execution, after the host's line. That this is one step is the empty order of moves, the model's choice (log 1). -/
def Obligations.StepRunsDecodedCommand : Prop :=
  ∀ (s : State) (i : Instr) (w : Word) (rest : List HostOp),
    s.everReset = true → s.turns = [] → s.fsm = .idle →
    s.program = .write s.params.base 4 w :: rest → decode w = .ok i →
    step s = exec i { s with program := rest }

/-- R72, R73, R163: with nothing interfering, an illegal command word written to CMD while idle changes STATUS only:
DONE, ERR and ERRCODE 7, and the block is idle again. That this is one step is the empty order of moves, the model's
choice (log 1); `CmdWriteStartsCommand` says what happens where the order names the host. -/
def Obligations.IllegalCommandOnlyStatus : Prop :=
  ∀ (s : State) (w : Word) (rest : List HostOp),
    s.everReset = true → s.turns = [] → s.fsm = .idle →
    s.program = .write s.params.base 4 w :: rest →
    (w.toNat / 16 ≠ 0 ∨ w.toNat % 16 = 0 ∨ 8 ≤ w.toNat % 16) →
    step s = .next { s with
      program := rest
      status := { done := true, err := true, errCode := 7, wdrop := s.status.wdrop } }

/-- R72's first line, where the host's turn ends with the CMD write, for every word: BUSY is 1, DONE, ERR and ERRCODE
are 0, WDROP is as before, nothing else changed. The FSM holds the command of a legal word; after an illegal word the
block's next step raises IllegalCommand. -/
def Obligations.CmdWriteStartsCommand : Prop :=
  ∀ (s : State) (w : Word) (rest : List HostOp) (ts : List Turn),
    s.everReset = true → s.turns = .host :: ts → s.fsm = .idle →
    s.program = .write s.params.base 4 w :: rest →
    let started (f : Fsm) : State := { s with
      turns := ts
      program := rest
      fsm := f
      status := { done := false, err := false, errCode := 0, wdrop := s.status.wdrop } }
    (∀ i, decode w = .ok i → step s = .next (started (.start i)) ∧ (started (.start i)).busy = true) ∧
    (∀ e, decode w = .error e →
      step s = .next (started .illegal) ∧ (started .illegal).busy = true ∧
      coreStep (started .illegal) = .next { s with
        turns := ts
        program := rest
        status := { done := true, err := true, errCode := 7, wdrop := s.status.wdrop } })

/-! ## The cursor (40_cursor.md) -/

/-- R88: NEXT_HDR always completes. From the last bit of a pixel it adds 9, from any other index 1, on 64 bits. -/
def Obligations.NextHdrResult : Prop :=
  ∀ s : State,
    let idx : BitIndex := s.conf.cursorInHi ++ s.conf.cursorInLo
    exec .nextHdr s =
      .next (s.endedOk { s.res with cursorOut := if idx.toNat % 32 = 31 then idx + 9 else idx + 1 })

/-- R89: NEXT_PAY gives the index of R91 for a capacity in 1..8, and otherwise ends with InvalidConfiguration and
CURSOR_OUT unchanged. -/
def Obligations.NextPayResult : Prop :=
  ∀ s : State,
    let idx : BitIndex := s.conf.cursorInHi ++ s.conf.cursorInLo
    let c := s.conf.capacity.toNat
    (1 ≤ c ∧ c ≤ 8 →
      exec .nextPay s = .next (s.endedOk { s.res with
        cursorOut :=
          if idx.toNat % 32 < 8 ∨ idx.toNat % 8 + 1 < c then idx + 1
          else idx + BitVec.ofNat 64 (8 - idx.toNat % 8) })) ∧
    (¬(1 ≤ c ∧ c ≤ 8) → exec .nextPay s = .next (s.endedErr 1 s.res))

/-- R91: the equivalent form of nextPayloadBit, for every index and every capacity. -/
def Obligations.PayloadCursorEquivalentForm : Prop :=
  ∀ (idx : BitIndex) (c : Word),
    nextPayloadBit idx c =
      if idx.toNat % 32 / 8 = 0 ∨ idx.toNat % 8 + 1 < c.toNat then idx + 1
      else idx + BitVec.ofNat 64 (8 - idx.toNat % 8)

/-- R90: `i + 1` calls of nextHeaderBit from -1 reach `hdrPos(i)`, and the last header bit is bit 31 of pixel 7. -/
def Obligations.HeaderCursorClosedForm : Prop :=
  (∀ i : Nat, nextHeaderBit^[i + 1] (-1) = BitVec.ofNat 64 (32 * (i / 24) + 8 + i % 24)) ∧
  32 * (191 / 24) + 8 + 191 % 24 = 32 * 7 + 31

/-- R92: for a capacity in 1..8, payload framing from bit 0 of a pixel visits the framed offsets in increasing
order, each once, and then reaches bit 0 of the next pixel. -/
def Obligations.PayloadCursorFootprint : Prop :=
  ∀ (m : Nat) (c : Word), 1 ≤ c.toNat → c.toNat ≤ 8 →
    (∀ j, j < 8 + 3 * c.toNat →
      (nextPayloadBit · c)^[j] (BitVec.ofNat 64 (32 * m)) = BitVec.ofNat 64 (32 * m + payOffset c.toNat j)) ∧
    (nextPayloadBit · c)^[8 + 3 * c.toNat] (BitVec.ofNat 64 (32 * m)) = BitVec.ofNat 64 (32 * (m + 1)) ∧
    (∀ j k, j < k → k < 8 + 3 * c.toNat → payOffset c.toNat j < payOffset c.toNat k) ∧
    (∀ p, PayFramed c.toNat p ↔ ∃ j, j < 8 + 3 * c.toNat ∧ payOffset c.toNat j = p)

/-- R94: below `2^63 - 8` both functions go strictly up, nextHeaderBit by 1 or 9 and nextPayloadBit by 1 to 8. -/
def Obligations.CursorsAdvance : Prop :=
  ∀ (idx : BitIndex) (c : Word), 0 ≤ idx.toInt → idx.toInt < 2 ^ 63 - 8 →
    ((nextHeaderBit idx).toInt = idx.toInt + 1 ∨ (nextHeaderBit idx).toInt = idx.toInt + 9) ∧
    (idx.toInt < (nextPayloadBit idx c).toInt ∧ (nextPayloadBit idx c).toInt ≤ idx.toInt + 8)

/-! ## The region and the estimate (41_region.md) -/

/-- R105 with R101: IS_WRITABLE answers the region predicate, inclusive and unsigned; WIDTH = 0 or an invalid region
ends it with InvalidConfiguration and RESULT unchanged. -/
def Obligations.IsWritableResult : Prop :=
  ∀ s : State,
    (s.conf.width.toNat ≠ 0 ∧ RegionLegal s.conf.region →
      exec .isWritable s = .next (s.endedOk { s.res with
        writable := decide (WritableAt s.conf.pixelIndex.toNat s.conf.width.toNat s.conf.region) })) ∧
    (¬(s.conf.width.toNat ≠ 0 ∧ RegionLegal s.conf.region) →
      exec .isWritable s = .next (s.endedErr 1 s.res))

/-- R106 with R102: ESTIMATE is the number of writable pixels in `[EST_FIRST_PIXEL, N)` times `8 + 3c`; an illegal
configuration ends it with InvalidConfiguration and ESTIMATE unchanged. -/
def Obligations.EstimateResult : Prop :=
  ∀ s : State,
    (s.EstimateLegal →
      exec .estimate s = .next (s.endedOk { s.res with estimate := BitVec.ofNat 64 s.estimateOf })) ∧
    (¬s.EstimateLegal → exec .estimate s = .next (s.endedErr 1 s.res))

/-- R103: the estimate is below 2^37 and exact in the 64-bit pair. -/
def Obligations.EstimateFitsPair : Prop :=
  ∀ s : State, s.EstimateLegal →
    ∃ t, exec .estimate s = .next t ∧ t.res.estimate.toNat = s.estimateOf ∧ t.res.estimate.toNat < 2 ^ 37

/-- R107: with EST_FIRST_PIXEL 9 the estimate is what the scan can place, with 8 it counts pixel 8 as well; and with
9 and a fill ratio of 1 or below no ENCODE ends with InsufficientCapacityError. -/
def Obligations.EstimateExactness : Prop :=
  (∀ s : State,
    let a := encodeArgs s
    (s.params.estFirst = .nine → s.estimateOf = a.room) ∧
    (s.params.estFirst = .eight → 8 < s.N → WritableAt 8 a.width a.region →
      s.estimateOf = a.room + (8 + 3 * s.conf.capacity.toNat)) ∧
    (s.params.estFirst = .eight → ¬(8 < s.N ∧ WritableAt 8 a.width a.region) → s.estimateOf = a.room)) ∧
  (∀ s t : State, s.params.estFirst = .nine → s.conf.fillNum.toNat ≤ s.conf.fillDen.toNat →
    exec .encode s = .next t → t.status.errCode ≠ 3)

/-! ## The header (42_header.md) -/

/-- R122 with R118: READ_HEADER reads the six fields from lanes 1 to 3 of pixels 0..7, whatever their values, and
changes no memory; fewer than 8 pixels, or more than MAX_PIXELS, end it with InvalidConfiguration. -/
def Obligations.ReadHeaderResult : Prop :=
  ∀ s : State,
    (s.PixelCountLegal → 8 ≤ s.params.pixWords →
      exec .readHeader s = .next (s.endedOk { s.res with hdr := headerInPixels s.pix })) ∧
    (¬s.PixelCountLegal → exec .readHeader s = .next (s.endedErr 1 s.res))

/-- R119: a header written to pixel memory reads back, for every record and whatever the pixels held before. -/
def Obligations.HeaderRoundTrip : Prop :=
  (∀ h : Header, deserialize (serialize h) = h) ∧
  (∀ b : BitVec 192, serialize (deserialize b) = b) ∧
  (∀ (h : Header) (m : Memory 32), m.wf → readHeader (writeHeader h m) = h)

/-- R123 with R117: writeHeader puts header bits `24i+23 : 24i` into bits 31:8 of pixel `i < 8`, keeps its lane 0, and
changes no other pixel. -/
def Obligations.WriteHeaderPlacement : Prop :=
  ∀ (h : Header) (m : Memory 32) (i : Nat), m.wf →
    (i < 8 → (writeHeader h m).read i = h.word.extractLsb' (24 * i) 24 ++ laneByte m i 0) ∧
    (8 ≤ i → (writeHeader h m).read i = m.read i)

/-- R54, R55: PixWriteBit puts the bit at its place and changes no other bit of any pixel. -/
def Obligations.PixelBitWriteIsLocal : Prop :=
  ∀ (m : Memory 32) (b : BitIndex) (v : Bool), m.wf →
    pixReadBit (pixWriteBit m b v) b = v ∧
    (∀ n, n ≠ b.toNat → streamBit (pixWriteBit m b v) n = streamBit m n)

/-! ## Errors and completion (60_exceptions.md) -/

/-- R161: exactly when each command ends with code 1, InvalidConfiguration, and that a command that ends so has
changed STATUS only. -/
def Obligations.InvalidConfigurationExactly : Prop :=
  ∀ s : State,
    let invalid (i : Instr) : Prop := ∃ t, exec i s = .next t ∧ t.status.errCode = 1
    ¬invalid .nextHdr ∧
    (invalid .nextPay ↔ ¬CapacityLegal s.conf.capacity) ∧
    (invalid .isWritable ↔
      s.conf.width.toNat = 0 ∨ s.conf.minX.toNat > s.conf.maxX.toNat ∨ s.conf.minY.toNat > s.conf.maxY.toNat) ∧
    (invalid .estimate ↔ ¬s.EstimateLegal) ∧
    (invalid .encode ↔
      ¬s.EstimateLegal ∨ s.conf.payloadBytes.toNat > 0x1FFFFFFF ∨ s.conf.fillDen.toNat = 0) ∧
    (invalid .decode ↔ s.N < 8 ∨ s.N > s.params.maxPixels.toNat) ∧
    (invalid .readHeader ↔ s.N < 8 ∨ s.N > s.params.maxPixels.toNat) ∧
    (∀ i, invalid i → exec i s = .next (s.endedErr 1 s.res))

/-- R163, R164: a command that ends leaves the block idle with DONE set and WDROP as it was, and ERR is set exactly
with a code of R160. -/
def Obligations.CommandsEndIdle : Prop :=
  ∀ (i : Instr) (s t : State), exec i s = .next t →
    t.busy = false ∧ t.status.done = true ∧ t.status.wdrop = s.status.wdrop ∧
    (t.status.err = false ∧ t.status.errCode = 0 ∨
      t.status.err = true ∧ 1 ≤ t.status.errCode.toNat ∧ t.status.errCode.toNat ≤ 6)

/-- R71's last sentence, and the frame of every command: the result registers each may write, and the memories each
may write. No command writes a configuration or operand register. -/
def Obligations.CommandsWriteOnlyTheirResults : Prop :=
  ∀ (i : Instr) (s t : State), exec i s = .next t →
    t = { s with
      res := t.res, status := t.status, fsm := .idle, acc := t.acc, pix := t.pix, pay := t.pay } ∧
    (i ≠ .nextHdr → i ≠ .nextPay → t.res.cursorOut = s.res.cursorOut) ∧
    (i ≠ .isWritable → t.res.writable = s.res.writable) ∧
    (i ≠ .estimate → i ≠ .encode → t.res.estimate = s.res.estimate) ∧
    (i ≠ .encode → i ≠ .decode →
      t.res.bitsDone = s.res.bitsDone ∧ t.res.scanPixel = s.res.scanPixel ∧ t.res.bitPtr = s.res.bitPtr) ∧
    (i ≠ .decode → t.res.outBytes = s.res.outBytes ∧ t.acc = s.acc) ∧
    (i ≠ .encode → i ≠ .decode → i ≠ .readHeader → t.res.hdr = s.res.hdr) ∧
    (i ≠ .encode → t.pix = s.pix) ∧
    (i ≠ .decode → t.pay = s.pay)

/-- No command is refused, and none stops with a fault on a platform that backs what R189 says. -/
def Obligations.BackedCommandsComplete : Prop :=
  ∀ s : State,
    (∃ t, exec .nextHdr s = .next t) ∧ (∃ t, exec .nextPay s = .next t) ∧
    (∃ t, exec .isWritable s = .next t) ∧ (∃ t, exec .estimate s = .next t) ∧
    (8 ≤ s.params.pixWords → ∃ t, exec .readHeader s = .next t) ∧
    (s.EncodeBacked → ∃ t, exec .encode s = .next t) ∧
    (s.DecodeBacked → ∃ t, exec .decode s = .next t)

/-- I10, R189: READ_HEADER, DECODE and an ENCODE that passed its guard stop with a fault where the platform does not
back the header's eight pixel words. -/
def Obligations.UnbackedHeaderFaults : Prop :=
  ∀ s : State, s.params.pixWords < 8 → s.PixelCountLegal →
    exec .readHeader s = .fault .unbackedPixel ∧ exec .decode s = .fault .unbackedPixel ∧
    (s.EncodeLegal → s.FillOk → exec .encode s = .fault .unbackedPixel)

/-! ## ENCODE (43_codec.md) -/

/-- R135, R137: a payload over the fill guard ends ENCODE with CapacityError; only ESTIMATE and STATUS change. -/
def Obligations.EncodeCapacityError : Prop :=
  ∀ s : State, s.EncodeLegal → ¬s.FillOk →
    exec .encode s = .next (s.endedErr 2 { s.res with estimate := BitVec.ofNat 64 s.estimateOf })

/-- R135, R136: a payload that passes the guard and fits the writable pixels from 9 on is encoded. ESTIMATE, HDR_*,
BITS_DONE, SCAN_PIXEL and BITPTR are as R136 says; only they, STATUS and pixel memory change. -/
def Obligations.EncodeSucceeds : Prop :=
  ∀ s : State, s.EncodeLegal → s.FillOk → s.EncodeBacked →
    8 * s.conf.payloadBytes.toNat ≤ (encodeArgs s).room →
    let l := 8 * s.conf.payloadBytes.toNat
    let ptr : BitIndex :=
      if l = 0 then -1 else nextPayloadBit (BitVec.ofNat 64 ((encodeArgs s).bitPos (l - 1))) s.conf.capacity
    ∃ m : Memory 32,
      exec .encode s = .next { s.endedOk { s.res with
          estimate := BitVec.ofNat 64 s.estimateOf
          hdr := s.record
          bitsDone := BitVec.ofNat 32 l
          scanPixel := if l = 0 then 9 else BitVec.ofNat 32 (ptr.toNat / 32)
          bitPtr := ptr } with pix := m }

/-- R137: a payload that passes the guard and does not fit ends ENCODE with InsufficientCapacityError, BITS_DONE the
number of bits that fit, SCAN_PIXEL at or above N, and ESTIMATE and HDR_* at their new values. -/
def Obligations.EncodeRunsOut : Prop :=
  ∀ s : State, s.EncodeLegal → s.FillOk → s.EncodeBacked →
    (encodeArgs s).room < 8 * s.conf.payloadBytes.toNat →
    ∃ (m : Memory 32) (pix : Word) (ptr : BitIndex), s.N ≤ pix.toNat ∧
      exec .encode s = .next { s.endedErr 3 { s.res with
          estimate := BitVec.ofNat 64 s.estimateOf
          hdr := s.record
          bitsDone := BitVec.ofNat 32 (encodeArgs s).room
          scanPixel := pix
          bitPtr := ptr } with pix := m }

/-- R133 with R57: an ENCODE that passed its guard put the record into pixels 0..7, and every payload bit `k` it says it
did at the place R133 gives, in the order PAYLOAD_BIT_ORDER says. -/
def Obligations.EncodePlacesPayload : Prop :=
  ∀ s t : State, s.pix.wf → exec .encode s = .next t → s.EncodeLegal → s.FillOk →
    headerInPixels t.pix = s.record ∧
    ∀ k, k < t.res.bitsDone.toNat →
      streamBit t.pix ((encodeArgs s).bitPos k) =
        (s.pay.read (k / 8)).getLsbD
          (match s.params.bitOrder with
            | .lsbFirst => k % 8
            | .msbFirst => 7 - k % 8)

/-- R55: whatever way ENCODE ends, a bit of pixel memory it changed is the place R117 gives a header bit, or the place
R133 gives one of the payload bits it did, a framed bit of a writable pixel in `[9, N)`. -/
def Obligations.EncodeTouchesOnlyFramedBits : Prop :=
  ∀ s t : State, s.pix.wf → exec .encode s = .next t →
    ∀ i p, p < 32 → (t.pix.read i).getLsbD p ≠ (s.pix.read i).getLsbD p →
      (∃ j, j < 192 ∧ 32 * i + p = hdrPos j) ∨
      (9 ≤ i ∧ i < s.N ∧ WritableAt i s.conf.width.toNat s.conf.region ∧ PayFramed s.conf.capacity.toNat p ∧
        ∃ k, k < t.res.bitsDone.toNat ∧ 32 * i + p = (encodeArgs s).bitPos k)

/-! ## DECODE (43_codec.md) -/

/-- R140, R142: a header outside its ranges ends DECODE with CorruptHeaderError; only HDR_* and STATUS change. -/
def Obligations.DecodeCorruptHeader : Prop :=
  ∀ s : State, s.PixelCountLegal → 8 ≤ s.params.pixWords → ¬HeaderLegal (headerInPixels s.pix) →
    exec .decode s = .next (s.endedErr 5 { s.res with hdr := headerInPixels s.pix })

/-- R140, R141, R142: a legal header whose bits the image holds is scanned in full: HDR_*, BITS_DONE, SCAN_PIXEL,
BITPTR and OUT_BYTES are as the rules say, and DECODE completes if the length is a multiple of 8, else it ends with
MalformedPayloadError. -/
def Obligations.DecodeReadsAllBits : Prop :=
  ∀ s : State, s.PixelCountLegal → s.DecodeBacked → HeaderLegal (headerInPixels s.pix) →
    (headerInPixels s.pix).len.toNat ≤ s.decodeScanArgs.room →
    let h := headerInPixels s.pix
    let l := h.len.toNat
    let ptr : BitIndex :=
      if l = 0 then -1 else nextPayloadBit (BitVec.ofNat 64 (s.decodeScanArgs.bitPos (l - 1))) h.cap
    let r : Results := { s.res with
      hdr := h
      bitsDone := h.len
      scanPixel := if l = 0 then 9 else BitVec.ofNat 32 (ptr.toNat / 32)
      bitPtr := ptr
      outBytes := BitVec.ofNat 32 (l / 8) }
    ∃ (m : Memory 8) (acc : Byte),
      exec .decode s =
        .next { (if l % 8 = 0 then s.endedOk r else s.endedErr 6 r) with pay := m, acc := acc }

/-- R140, R142: a legal header with more bits than the image holds ends DECODE with TruncatedPayloadError, whatever
the length's remainder by 8, with the bytes completed so far counted. -/
def Obligations.DecodeTruncated : Prop :=
  ∀ s : State, s.PixelCountLegal → s.DecodeBacked → HeaderLegal (headerInPixels s.pix) →
    s.decodeScanArgs.room < (headerInPixels s.pix).len.toNat →
    ∃ (m : Memory 8) (acc : Byte) (pix : Word) (ptr : BitIndex), s.N ≤ pix.toNat ∧
      exec .decode s = .next { s.endedErr 4 { s.res with
          hdr := headerInPixels s.pix
          bitsDone := BitVec.ofNat 32 s.decodeScanArgs.room
          scanPixel := pix
          bitPtr := ptr
          outBytes := BitVec.ofNat 32 (s.decodeScanArgs.room / 8) } with pay := m, acc := acc }

/-- R146 with R133: a DECODE that scanned packed every completed byte from the bits at the places R133 gives, and
wrote no other payload byte; pixel memory is as before. -/
def Obligations.DecodePacksPayload : Prop :=
  ∀ s t : State, s.pay.wf → exec .decode s = .next t → s.PixelCountLegal → HeaderLegal (headerInPixels s.pix) →
    t.pix = s.pix ∧ t.res.outBytes.toNat = t.res.bitsDone.toNat / 8 ∧
    (∀ a j, a < t.res.outBytes.toNat → j < 8 →
      (t.pay.read a).getLsbD
          (match s.params.bitOrder with
            | .lsbFirst => j
            | .msbFirst => 7 - j) =
        streamBit s.pix (s.decodeScanArgs.bitPos (8 * a + j))) ∧
    (∀ a, t.res.outBytes.toNat ≤ a → t.pay.read a = s.pay.read a)

/-- The frame of DECODE's payload writes however it ends: pixel memory is as before, and a DECODE that did not scan
writes no payload byte. -/
def Obligations.DecodeWithoutScanWritesNothing : Prop :=
  ∀ s t : State, exec .decode s = .next t →
    t.pix = s.pix ∧
    (¬(s.PixelCountLegal ∧ HeaderLegal (headerInPixels s.pix)) → t.pay = s.pay ∧ t.acc = s.acc)

/-- R147, the round trip: after an ENCODE that completed without error, DECODE of the pixel memory it left, with the same
WIDTH, HEIGHT and PAYLOAD_BIT_ORDER and whatever else the registers, the other parameters and payload memory are,
completes without error and gives back the payload. The decoder's MAX_PIXELS admits the image (R161), and its platform
backs what the encoder's did, or all that R189 says. -/
def Obligations.RoundTrip : Prop :=
  ∀ s t d : State, s.pix.wf → d.pay.wf → exec .encode s = .next t → t.status.err = false →
    d.pix = t.pix → d.conf.width = s.conf.width → d.conf.height = s.conf.height →
    d.params.bitOrder = s.params.bitOrder → s.N ≤ d.params.maxPixels.toNat →
    (s.params.pixWords ≤ d.params.pixWords ∧ s.params.payBytes ≤ d.params.payBytes ∨
      s.N ≤ d.params.pixWords ∧ s.conf.payloadBytes.toNat ≤ d.params.payBytes) →
    ∃ u, exec .decode d = .next u ∧ u.status.err = false ∧ u.status.done = true ∧
      u.res.outBytes = s.conf.payloadBytes ∧
      ∀ a, a < s.conf.payloadBytes.toNat → u.pay.read a = s.pay.read a

/-- R148: a second DECODE leaves every register and both memories as the first did. -/
def Obligations.DecodeTwice : Prop :=
  ∀ s t : State, s.pay.wf → exec .decode s = .next t → exec .decode t = .next t

/-- R45: what a command writes does not depend on what earlier commands left in the result registers, STATUS or the
packer: from two states that agree on parameters, configuration and memories it ends alike, and each result
register is written alike or by neither. -/
def Obligations.ResultsIgnoreEarlierResults : Prop :=
  ∀ (i : Instr) (s s' t : State),
    s'.params = s.params → s'.conf = s.conf → s'.pix = s.pix → s'.pay = s.pay → exec i s = .next t →
    ∃ t', exec i s' = .next t' ∧ t'.pix = t.pix ∧ t'.pay = t.pay ∧
      t'.status.err = t.status.err ∧ t'.status.errCode = t.status.errCode ∧
      (t'.res.cursorOut = t.res.cursorOut ∨
        t.res.cursorOut = s.res.cursorOut ∧ t'.res.cursorOut = s'.res.cursorOut) ∧
      (t'.res.writable = t.res.writable ∨ t.res.writable = s.res.writable ∧ t'.res.writable = s'.res.writable) ∧
      (t'.res.estimate = t.res.estimate ∨ t.res.estimate = s.res.estimate ∧ t'.res.estimate = s'.res.estimate) ∧
      (t'.res.hdr = t.res.hdr ∨ t.res.hdr = s.res.hdr ∧ t'.res.hdr = s'.res.hdr) ∧
      (t'.res.outBytes = t.res.outBytes ∨ t.res.outBytes = s.res.outBytes ∧ t'.res.outBytes = s'.res.outBytes) ∧
      (t'.res.bitsDone = t.res.bitsDone ∧ t'.res.scanPixel = t.res.scanPixel ∧ t'.res.bitPtr = t.res.bitPtr ∨
        (t.res.bitsDone = s.res.bitsDone ∧ t'.res.bitsDone = s'.res.bitsDone) ∧
        (t.res.scanPixel = s.res.scanPixel ∧ t'.res.scanPixel = s'.res.scanPixel) ∧
        (t.res.bitPtr = s.res.bitPtr ∧ t'.res.bitPtr = s'.res.bitPtr))

/-! ## The FSM (10_state.md R38, R40; 43_codec.md R130; 70_reset_and_hazards.md R191) -/

/-- R191 with R40: within R191's number of FSM steps a started command has ended, with the effect of its pseudocode.
ESTIMATE's number is at least 1 (log 11), and the CHECK of ESTIMATE and READ_HEADER is part of their first step
(log 10). R192: that many FSM steps end it so whatever finite number of stalls falls among and after them (log 24). -/
def Obligations.FsmStepsRefineExec : Prop :=
  (∀ (i : Instr) (s : State), coreRun (stepBound i s) (s.begin (.start i)) = exec i s) ∧
  (∀ (i : Instr) (s : State) (ts : List Turn),
    s.everReset = true → (∀ t ∈ ts, t = .core ∨ t = .stall) → stepBound i s ≤ ts.count .core →
    Sys2Proof.core.run ts.length { s.begin (.start i) with turns := ts } = exec i { s with turns := [] })

/-- R174: the block does nothing while IDLE. -/
def Obligations.IdleCoreDoesNothing : Prop :=
  ∀ (s : State) (ts : List Turn), s.everReset = true → s.fsm = .idle → s.turns = .core :: ts →
    step s = .next { s with turns := ts }

/-! ## Invariants -/

/-- R25, R133: every step keeps the invariant: canonical memories, STATUS's laws, and in a scan `ptr` -1 or a framed
bit of pixel `pix`. -/
def Obligations.StepKeepsInv : Prop := ∀ s t : State, Inv s → step s = .next t → Inv t

/-- The invariant holds right after reset. -/
def Obligations.ResetMeetsInv : Prop := Inv State.reset

/-- No step changes a parameter (R9). -/
def Obligations.ParamsNeverChange : Prop := ∀ s t : State, step s = .next t → t.params = s.params

/-- R21, R186: a configuration or operand register changes only by a host write made while idle, or by reset. -/
def Obligations.BusyBlockKeepsConfiguration : Prop :=
  ∀ s t : State, step s = .next t → s.busy = true → s.turns.head? ≠ some .reset → t.conf = s.conf

/-! ## Reset (70_reset_and_hazards.md) -/

/-- R180, R181: reset, at any time and before the first reset as well, sets every register to its reset value, puts
the FSM in IDLE and clears the packer; both memories stay. -/
def Obligations.ResetInput : Prop :=
  ∀ (s : State) (ts : List Turn), s.turns = .reset :: ts →
    ∃ t, step s = .next t ∧
      (∀ r : Reg, readReg r t = if r = .fillNum then 2 else if r = .fillDen then 5 else 0) ∧
      t.fsm = .idle ∧ t.acc = 0 ∧ t.pix = s.pix ∧ t.pay = s.pay ∧ t.params = s.params ∧ t.everReset = true

/-- R183: with the configuration reset leaves, every command but NEXT_HDR ends with InvalidConfiguration, and the
region is degenerate. -/
def Obligations.CommandsAfterReset : Prop :=
  ∀ s : State, s.conf = Conf.reset →
    (∀ i : Instr, i ≠ .nextHdr → exec i s = .next (s.endedErr 1 s.res)) ∧
    exec .nextHdr s = .next (s.endedOk { s.res with cursorOut := 1 }) ∧
    (∀ i w : Nat, WritableAt i w s.conf.region)

/-- R193: before the first reset no move but reset is made. -/
def Obligations.NothingBeforeReset : Prop :=
  ∀ s : State, s.everReset = false → s.turns.head? ≠ some .reset → step s = .refused .beforeReset

/-! ## The register bank (10_state.md, 70_reset_and_hazards.md) -/

/-- R22: the register map. Every register stands at its offset, no other aligned offset of the bank holds one. -/
def Obligations.RegisterMap : Prop :=
  ∀ p : Config.Params,
    (∀ r : Reg, busTarget p (p.base + r.offset) 4 = .reg r) ∧
    (∀ o, o < 0x100 → o % 4 = 0 → (∀ r : Reg, r.offset ≠ o) → busTarget p (p.base + o) 4 = .reserved) ∧
    [Reg.cmd, .status, .width, .height, .capacity, .minX, .maxX, .minY, .maxY, .payloadBytes, .fillNum, .fillDen,
      .cursorInLo, .cursorInHi, .pixelIndex].map Reg.offset = (List.range 15).map (4 * ·) ∧
    [Reg.cursorOutLo, .cursorOutHi, .result, .estimateLo, .estimateHi, .bitsDone, .scanPixel, .bitPtrLo, .bitPtrHi,
      .outBytes, .hdrLen, .hdrCap, .hdrMinX, .hdrMaxX, .hdrMinY, .hdrMaxY].map Reg.offset =
      [0x40, 0x44, 0x48, 0x50, 0x54, 0x58, 0x5C, 0x60, 0x64, 0x68, 0x70, 0x74, 0x78, 0x7C, 0x80, 0x84]

/-- R21: a write to a RW register while idle stores all 32 bits and changes no other register; a write to a RO register
changes no register. Outside the registers only the host's line is done. `IdleReads` says which field each register
is. -/
def Obligations.RegisterWrites : Prop :=
  ∀ (s : State) (r : Reg) (v : Word) (rest : List HostOp) (ts : List Turn),
    s.HostNext ts → r ≠ .cmd → r ≠ .status →
    s.program = .write (s.params.base + r.offset) 4 v :: rest →
    ∃ t, step s = .next t ∧ t = { s with turns := ts, program := rest, conf := t.conf } ∧
      ∀ q : Reg, readReg q t = if q = r ∧ r.isResult = false then v else readReg q s

/-- R21, R22, I5: a reserved offset reads 0, and a write to it while idle changes nothing. -/
def Obligations.ReservedOffsets : Prop :=
  ∀ (s : State) (o : Nat) (rest : List HostOp) (ts : List Turn),
    s.HostNext ts → o < 0x100 → o % 4 = 0 → (∀ r : Reg, r.offset ≠ o) →
    (s.program = .read (s.params.base + o) 4 :: rest →
      step s = .next { s with turns := ts, program := rest, readData := 0 }) ∧
    (∀ v, s.program = .write (s.params.base + o) 4 v :: rest → step s = .next { s with turns := ts, program := rest })

/-- R24, R165: a write to STATUS while idle clears DONE, ERR (with ERRCODE) and WDROP where it has a 1, and nothing
else. -/
def Obligations.StatusWriteOneToClear : Prop :=
  ∀ (s : State) (v : Word) (rest : List HostOp) (ts : List Turn),
    s.HostNext ts → s.program = .write (s.params.base + 4) 4 v :: rest →
    step s = .next { s with
      turns := ts
      program := rest
      status := {
        done := s.status.done && !v.getLsbD 1
        err := s.status.err && !v.getLsbD 2
        errCode := if v.getLsbD 2 then 0 else s.status.errCode
        wdrop := s.status.wdrop && !v.getLsbD 8 } }

/-- R24: the fields of the STATUS word. -/
def Obligations.StatusWordFields : Prop :=
  ∀ s : State, ∀ n,
    (readReg .status s).getLsbD n =
      if n = 0 then s.busy
      else if n = 1 then s.status.done
      else if n = 2 then s.status.err
      else if 4 ≤ n ∧ n < 8 then s.status.errCode.getLsbD (n - 4)
      else if n = 8 then s.status.wdrop
      else false

/-- R186: while BUSY = 1 every write into the bank, reserved offsets too, is dropped, sets WDROP and changes nothing
else. -/
def Obligations.BusyWritesDropped : Prop :=
  ∀ (s : State) (o : Nat) (v : Word) (rest : List HostOp) (ts : List Turn),
    s.everReset = true → s.turns = .host :: ts → s.busy = true → o < 0x100 → o % 4 = 0 →
    s.program = .write (s.params.base + o) 4 v :: rest →
    step s = .next { s with turns := ts, program := rest, status := { s.status with wdrop := true } }

/-- R187: what a read returns while BUSY = 1: STATUS its word with DONE, ERR and ERRCODE 0, a configuration or operand
register its value, CMD and a reserved offset 0, and a result register the next draw. Nothing else changes. -/
def Obligations.BusyReads : Prop :=
  ∀ (s : State) (rest : List HostOp) (ts : List Turn),
    s.everReset = true → s.turns = .host :: ts → s.busy = true → StatusOk s →
    (∀ r : Reg, s.program = .read (s.params.base + r.offset) 4 :: rest →
      step s = .next
        (if r.isResult then
          { s with turns := ts, program := rest, readData := Config.busyRead s.draws, draws := s.draws + 1 }
        else
          { s with
            turns := ts
            program := rest
            readData :=
              if r = .cmd then 0
              else if r = .status then BitVec.ofNat 32 (1 + if s.status.wdrop then 256 else 0)
              else readReg r s })) ∧
    (∀ o, o < 0x100 → o % 4 = 0 → (∀ r : Reg, r.offset ≠ o) →
      s.program = .read (s.params.base + o) 4 :: rest →
      step s = .next { s with turns := ts, program := rest, readData := 0 })

/-- R62, R21: a read while idle returns the register's value and changes no register and no memory. R22, R13, R76:
which field of State each register shows, LO and HI the halves of a pair; R34: RESULT is bit 0. STATUS is
`StatusWordFields`. That a pair is one field and RESULT one Bool is the model's layout (log 9). -/
def Obligations.IdleReads : Prop :=
  (∀ (s : State) (r : Reg) (rest : List HostOp) (ts : List Turn),
    s.HostNext ts → s.program = .read (s.params.base + r.offset) 4 :: rest →
    step s = .next { s with turns := ts, program := rest, readData := readReg r s }) ∧
  (∀ s : State,
    readReg .cmd s = 0 ∧
    [Reg.width, .height, .capacity, .minX, .maxX, .minY, .maxY, .payloadBytes, .fillNum, .fillDen, .cursorInLo,
      .cursorInHi, .pixelIndex].map (readReg · s) =
      [s.conf.width, s.conf.height, s.conf.capacity, s.conf.minX, s.conf.maxX, s.conf.minY, s.conf.maxY,
        s.conf.payloadBytes, s.conf.fillNum, s.conf.fillDen, s.conf.cursorInLo, s.conf.cursorInHi,
        s.conf.pixelIndex] ∧
    readReg .cursorOutHi s ++ readReg .cursorOutLo s = s.res.cursorOut ∧
    readReg .estimateHi s ++ readReg .estimateLo s = s.res.estimate ∧
    readReg .bitPtrHi s ++ readReg .bitPtrLo s = s.res.bitPtr ∧
    readReg .result s = (if s.res.writable then 1 else 0) ∧
    [Reg.bitsDone, .scanPixel, .outBytes, .hdrLen, .hdrCap, .hdrMinX, .hdrMaxX, .hdrMinY, .hdrMaxY].map (readReg · s) =
      [s.res.bitsDone, s.res.scanPixel, s.res.outBytes, s.res.hdr.len, s.res.hdr.cap, s.res.hdr.minX, s.res.hdr.maxX,
        s.res.hdr.minY, s.res.hdr.maxY])

/-- R59, I9: a register access that is not 32 bits wide or not aligned is refused, idle or busy. -/
def Obligations.MisalignedAccessRefused : Prop :=
  ∀ (s : State) (o size : Nat) (v : Word) (rest : List HostOp) (ts : List Turn),
    (s.HostNext ts ∨ s.everReset = true ∧ s.turns = .host :: ts) → o < 0x100 → (size ≠ 4 ∨ o % 4 ≠ 0) →
    (s.program = .write (s.params.base + o) size v :: rest ∨ s.program = .read (s.params.base + o) size :: rest) →
    step s = .refused .badAccess

/-- R188, I8: a host access to either memory while BUSY = 1 is refused. -/
def Obligations.HostMemoryRefusedWhileBusy : Prop :=
  ∀ (s : State) (ts : List Turn) (op : HostOp) (rest : List HostOp),
    s.everReset = true → s.turns = .host :: ts → s.busy = true → s.program = op :: rest →
    ((∃ i v, op = .storePix i v) ∨ (∃ i, op = .loadPix i) ∨ (∃ a v, op = .storePay a v) ∨ ∃ a, op = .loadPay a) →
    step s = .refused .memoryWhileBusy

/-- R50, R56, R62: while idle the host fills a backed pixel word, and it alone changes; it reads one, and the word is
what it gets (log 7), with no side effect; the payload memory likewise. -/
def Obligations.HostFillsMemory : Prop :=
  ∀ (s : State) (rest : List HostOp) (ts : List Turn), s.pix.wf → s.pay.wf → s.HostNext ts →
    (∀ i v, s.program = .storePix i v :: rest → i < s.params.pixWords →
      ∃ m, step s = .next { s with turns := ts, program := rest, pix := m } ∧
        ∀ j, m.read j = if j = i then v else s.pix.read j) ∧
    (∀ a v, s.program = .storePay a v :: rest → a < s.params.payBytes →
      ∃ m, step s = .next { s with turns := ts, program := rest, pay := m } ∧
        ∀ j, m.read j = if j = a then v else s.pay.read j) ∧
    (∀ i, s.program = .loadPix i :: rest → i < s.params.pixWords →
      step s = .next { s with turns := ts, program := rest, readData := s.pix.read i }) ∧
    (∀ a, s.program = .loadPay a :: rest → a < s.params.payBytes →
      step s = .next { s with turns := ts, program := rest, readData := BitVec.ofNat 32 (s.pay.read a).toNat })

/-- R166, I12: a host write to CAPACITY that falls at the time a command ends. Before the end it is dropped with
WDROP, after it it takes effect; both orders are runs of the model. -/
def Obligations.WriteAtCompletionBothOrders : Prop :=
  ∀ (s t : State) (v : Word) (rest : List HostOp) (ts : List Turn),
    s.everReset = true → s.busy = true → s.program = .write (s.params.base + 0x10) 4 v :: rest →
    coreStep s = .next t → t.busy = false →
    (∃ u, step { s with turns := .host :: .core :: ts } = .next u ∧
      step u = .next { t with turns := ts, program := rest, status := { t.status with wdrop := true } }) ∧
    (∃ u, step { s with turns := .core :: .host :: ts } = .next u ∧
      step u = .next { t with turns := ts, program := rest, conf := { t.conf with capacity := v } })

/-- R79: `wait` reads STATUS; the host stays at its line while BUSY = 1 and goes on once BUSY = 0. -/
def Obligations.WaitPollsStatus : Prop :=
  ∀ (s : State) (rest : List HostOp) (ts : List Turn),
    s.everReset = true → s.turns = .host :: ts → s.program = .wait :: rest →
    step s = .next { s with
      turns := ts
      program := if s.busy then .wait :: rest else rest
      readData := readReg .status s }

/-- R78, R80: what the pseudo-instructions `cmd` and `wr64` expand to. -/
def Obligations.PseudoInstructionsExpand : Prop :=
  ∀ p : Config.Params,
    (∀ i : Instr, ∃ w : Word, HostLine.expand p (.cmd i) = [.write p.base 4 w] ∧ decode w = .ok i) ∧
    (∀ v : BitVec 64, HostLine.expand p (.wr64 .cursorIn v) =
      [.write (p.base + 0x30) 4 (v.setWidth 32), .write (p.base + 0x34) 4 ((v >>> 32).setWidth 32)])
end

