-- ==== Sys2Proof/Laws/Memory.lean ====
section
/-! SUPPORT. The laws of memory: read after write, the canonical form is kept, and equal reads make equal memories. -/

namespace Sys2Proof.Machine

theorem Memory.wf_nil {w : Nat} : Memory.wf ([] : Memory w) := by simp [Memory.wf]

theorem Memory.wf_tail {w : Nat} {c : Nat × BitVec w} {m : Memory w} (h : Memory.wf (c :: m)) : Memory.wf m :=
  ⟨(List.pairwise_cons.1 h.1).2, fun p hp => h.2 p (List.mem_cons_of_mem _ hp)⟩

/-- In a canonical memory every listed address after the first is above it. -/
theorem Memory.wf_lt {w : Nat} {a : Nat} {v : BitVec w} {m : Memory w} (h : Memory.wf ((a, v) :: m)) :
    ∀ p ∈ m, a < p.1 := (List.pairwise_cons.1 h.1).1

/-- An address below every listed one reads as an unlisted one. -/
theorem Memory.read_of_lt {w : Nat} {m : Memory w} {x : Nat} (h : ∀ p ∈ m, x < p.1) : m.read x = 0#w := by
  induction m with
  | nil => rfl
  | cons c m ih =>
    obtain ⟨a, v⟩ := c
    have : x ≠ a := Nat.ne_of_lt (h (a, v) (by simp))
    simp only [Memory.read, if_neg this]
    exact ih fun p hp => h p (List.mem_cons_of_mem _ hp)

/-- Every address listed after a write is the written one or was listed before. -/
theorem Memory.mem_write {w : Nat} {m : Memory w} {x : Nat} {v : BitVec w} {p : Nat × BitVec w}
    (h : p ∈ m.write x v) : (p = (x, v) ∧ v ≠ 0#w) ∨ p ∈ m := by
  induction m with
  | nil => simp only [Memory.write] at h; split at h <;> simp_all
  | cons c m ih =>
    obtain ⟨a, u⟩ := c
    simp only [Memory.write] at h
    split_ifs at h <;> simp only [List.mem_cons] at h ⊢ <;> tauto

/-- A write keeps the canonical form. -/
theorem Memory.wf_write {w : Nat} {m : Memory w} (h : m.wf) (x : Nat) (v : BitVec w) : (m.write x v).wf := by
  refine ⟨?_, fun p hp => ?_⟩
  · induction m with
    | nil => simp only [Memory.write]; split <;> simp
    | cons c m ih =>
      obtain ⟨a, u⟩ := c
      have hlt := Memory.wf_lt h
      have ht := Memory.wf_tail h
      simp only [Memory.write]
      split_ifs with h1 h2 h3 h4
      · exact h.1
      · refine List.pairwise_cons.2 ⟨fun p hp => ?_, h.1⟩
        rcases List.mem_cons.1 hp with rfl | hp
        · exact h1
        · exact h1.trans (hlt p hp)
      · exact ht.1
      · subst h3
        exact List.pairwise_cons.2 ⟨hlt, ht.1⟩
      · refine List.pairwise_cons.2 ⟨fun p hp => ?_, ih ht⟩
        rcases Memory.mem_write hp with ⟨rfl, -⟩ | hp
        · exact lt_of_le_of_ne (Nat.le_of_not_lt h1) (Ne.symm h3)
        · exact hlt p hp
  · rcases Memory.mem_write hp with ⟨rfl, hv⟩ | hp
    · exact hv
    · exact h.2 p hp

/-- A write is read back, and every other address reads as before. -/
theorem Memory.read_write {w : Nat} {m : Memory w} (h : m.wf) (x y : Nat) (v : BitVec w) :
    (m.write x v).read y = if y = x then v else m.read y := by
  induction m with
  | nil =>
    simp only [Memory.write]
    split_ifs <;> simp_all [Memory.read]
  | cons c m ih =>
    obtain ⟨a, u⟩ := c
    have hlt := Memory.wf_lt h
    have ih := ih (Memory.wf_tail h)
    have hbelow : ∀ {z}, z < a → Memory.read ((a, u) :: m) z = 0#w := fun hz =>
      Memory.read_of_lt fun p hp => by
        rcases List.mem_cons.1 hp with rfl | hp
        · exact hz
        · exact hz.trans (hlt p hp)
    simp only [Memory.write]
    rcases lt_trichotomy x a with hx | rfl | hx
    · rw [if_pos hx]
      by_cases hv : v = 0#w
      · by_cases hy : y = x
        · subst hy; simp [hv, hbelow hx]
        · simp [hv, hy]
      · simp [hv, Memory.read]
    · rw [if_neg (lt_irrefl _), if_pos rfl]
      by_cases hv : v = 0#w
      · by_cases hy : y = x
        · subst hy; simp [hv, Memory.read_of_lt hlt]
        · simp [hv, hy, Memory.read]
      · by_cases hy : y = x <;> simp [hv, hy, Memory.read]
    · rw [if_neg (by omega), if_neg (by omega)]
      simp only [Memory.read, ih]
      by_cases hy : y = a
      · subst hy; simp [Nat.ne_of_lt hx]
      · simp [hy]

@[simp] theorem Memory.read_write_self {w : Nat} {m : Memory w} (h : m.wf) (x : Nat) (v : BitVec w) :
    (m.write x v).read x = v := by simp [Memory.read_write h]

theorem Memory.read_write_of_ne {w : Nat} {m : Memory w} (h : m.wf) {x y : Nat} (v : BitVec w) (hy : y ≠ x) :
    (m.write x v).read y = m.read y := by simp [Memory.read_write h, hy]

/-- Canonical memories that read alike are the same list. -/
theorem Memory.ext_read {w : Nat} {m n : Memory w} (hm : m.wf) (hn : n.wf) (h : ∀ x, m.read x = n.read x) : m = n := by
  induction m generalizing n with
  | nil =>
    cases n with
    | nil => rfl
    | cons c n =>
      obtain ⟨a, v⟩ := c
      have := h a
      simp only [Memory.read, if_true] at this
      exact absurd this.symm (hn.2 (a, v) (by simp))
  | cons c m ih =>
    obtain ⟨a, v⟩ := c
    cases n with
    | nil =>
      have := h a
      simp only [Memory.read, if_true] at this
      exact absurd this (hm.2 (a, v) (by simp))
    | cons d n =>
      obtain ⟨b, u⟩ := d
      have hlm := Memory.wf_lt hm
      have hln := Memory.wf_lt hn
      have hva : v ≠ 0#w := hm.2 (a, v) (by simp)
      have hub : u ≠ 0#w := hn.2 (b, u) (by simp)
      have hab : a = b := by
        rcases lt_trichotomy a b with hlt | rfl | hlt
        · have := h a
          simp only [Memory.read, if_true, if_neg (Nat.ne_of_lt hlt)] at this
          rw [Memory.read_of_lt fun p hp => hlt.trans (hln p hp)] at this
          exact absurd this hva
        · rfl
        · have := h b
          simp only [Memory.read, if_true, if_neg (Nat.ne_of_lt hlt)] at this
          rw [Memory.read_of_lt fun p hp => hlt.trans (hlm p hp)] at this
          exact absurd this.symm hub
      subst hab
      have huv : v = u := by simpa [Memory.read] using h a
      subst huv
      congr 1
      refine ih (Memory.wf_tail hm) (Memory.wf_tail hn) fun x => ?_
      by_cases hx : x = a
      · subst hx
        rw [Memory.read_of_lt hlm, Memory.read_of_lt hln]
      · simpa [Memory.read, hx] using h x

end Sys2Proof.Machine
end

