-- ==== Sys2Proof/Laws/Bits.lean ====
section
/-! SUPPORT. The laws of single bits: setBit, PixReadBit, PixWriteBit and the payload bit. -/

namespace Sys2Proof.Machine

/-- A bit is put at its place and nowhere else. -/
theorem getLsbD_setBit {w : Nat} (v : BitVec w) (p q : Nat) (b : Bool) :
    (setBit v p b).getLsbD q = if q = p ∧ p < w then b else v.getLsbD q := by
  unfold setBit
  by_cases hq : q < w
  · by_cases hp : q = p
    · subst hp; cases b <;> simp [hq]
    · by_cases hpq : q < p
      · cases b <;> simp [hp, hq, hpq]
      · have : ¬(q - p = 0) := by omega
        cases b <;> simp [hp, hq, hpq, this]
  · have : v.getLsbD q = false := BitVec.getLsbD_of_ge _ _ (by omega)
    have hn : ¬(q = p ∧ p < w) := by omega
    cases b <;> simp [hq, this, hn]

theorem posOf_lt (b : BitIndex) : posOf b < 32 := Nat.mod_lt _ (by decide)

/-- Every bit of every pixel after PixWriteBit. -/
theorem getLsbD_read_pixWriteBit {m : Memory 32} (h : m.wf) (b : BitIndex) (v : Bool) (i p : Nat) :
    ((pixWriteBit m b v).read i).getLsbD p =
      if i = pixelOf b ∧ p = posOf b then v else (m.read i).getLsbD p := by
  unfold pixWriteBit
  rw [Memory.read_write h]
  by_cases hi : i = pixelOf b
  · subst hi
    simp [getLsbD_setBit, posOf_lt]
  · simp [hi]

theorem wf_pixWriteBit {m : Memory 32} (h : m.wf) (b : BitIndex) (v : Bool) : (pixWriteBit m b v).wf :=
  Memory.wf_write h _ _

/-- BitIndex and pixel position name the same bit. -/
theorem pixelOf_ofNat {i p : Nat} (h : 32 * i + p < 2 ^ 64) (hp : p < 32) :
    pixelOf (BitVec.ofNat 64 (32 * i + p)) = i := by
  simp only [pixelOf, BitVec.toNat_ofNat, Nat.mod_eq_of_lt h]; omega

theorem posOf_ofNat {i p : Nat} (h : 32 * i + p < 2 ^ 64) (hp : p < 32) :
    posOf (BitVec.ofNat 64 (32 * i + p)) = p := by
  simp only [posOf, BitVec.toNat_ofNat, Nat.mod_eq_of_lt h]; omega

theorem payBitPos_lt (o : Config.BitOrder) (k : Nat) : payBitPos o k < 8 := by
  cases o <;> simp only [payBitPos] <;> omega

/-- The order of bits within a byte depends on `k mod 8` only. -/
theorem payBitPos_mod (o : Config.BitOrder) (k : Nat) : payBitPos o (k % 8) = payBitPos o k := by
  cases o <;> simp [payBitPos]

/-- Different bits of a byte have different places. -/
theorem payBitPos_inj {o : Config.BitOrder} {j k : Nat} (h : payBitPos o j = payBitPos o k) : j % 8 = k % 8 := by
  cases o <;> simp only [payBitPos] at h <;> omega

end Sys2Proof.Machine
end

