-- ==== Sys2Proof/Laws/Cursor.lean ====
section
/-! SUPPORT. The laws of the bit-cursor: its functions on the index's number, and one step from a framed bit. -/

namespace Sys2Proof.Machine

/-- `idx[4:0]` is the index modulo 32. -/
theorem cursorPos_eq (idx : BitIndex) : cursorPos idx = idx.toNat % 32 := by
  simp [cursorPos, Nat.shiftRight_zero]

/-- nextHeaderBit adds 9 at the last bit of a pixel, else 1. -/
theorem nextHeaderBit_eq (idx : BitIndex) :
    nextHeaderBit idx = if idx.toNat % 32 = 31 then idx + 9 else idx + 1 := by
  unfold nextHeaderBit
  rw [cursorPos_eq]
  have : idx.toNat % 32 < 32 := Nat.mod_lt _ (by decide)
  split_ifs <;> first | rfl | omega

theorem payOffset_lt {c j : Nat} (h1 : 1 ≤ c) (h8 : c ≤ 8) (hj : j < 8 + 3 * c) : payOffset c j < 32 := by
  unfold payOffset
  split_ifs
  · omega
  · have h3 : (j - 8) / c < 3 := by rw [Nat.div_lt_iff_lt_mul h1]; omega
    have := Nat.mod_lt (j - 8) h1
    omega

/-- The framed offsets are the framed bits of a pixel (R92). -/
theorem payFramed_payOffset {c j : Nat} (h1 : 1 ≤ c) (h8 : c ≤ 8) (hj : j < 8 + 3 * c) :
    PayFramed c (payOffset c j) := by
  refine ⟨payOffset_lt h1 h8 hj, ?_⟩
  unfold payOffset
  split_ifs with h
  · exact .inl h
  · right
    have := Nat.mod_lt (j - 8) h1
    omega

/-- The framed offset after the `j`-th, as a distance (R92): 1 within lane 0, at its end and within a lane's low bits,
and from a lane's last selected bit to the next lane. -/
theorem payOffset_succ : ∀ n : Fin 9, 1 ≤ n.val → ∀ j : Fin 32, j.val < 8 + 3 * n.val →
    (if j.val + 1 < 8 + 3 * n.val then payOffset n.val (j.val + 1) else 32) =
      if payOffset n.val j.val < 8 ∨ payOffset n.val j.val % 8 + 1 < n.val then payOffset n.val j.val + 1
      else payOffset n.val j.val + (8 - payOffset n.val j.val % 8) := by decide

/-- Payload framing goes from the `j`-th framed offset of a pixel to the next one, and from the last to bit 0 of the
next pixel (R92). -/
theorem nextPayloadBit_framed {c : Word} (h1 : 1 ≤ c.toNat) (h8 : c.toNat ≤ 8) (m : Nat) {j : Nat}
    (hj : j < 8 + 3 * c.toNat) :
    nextPayloadBit (BitVec.ofNat 64 (32 * m + payOffset c.toNat j)) c =
      BitVec.ofNat 64 (if j + 1 < 8 + 3 * c.toNat then 32 * m + payOffset c.toNat (j + 1) else 32 * (m + 1)) := by
  have hlt := payOffset_lt h1 h8 hj
  have key := payOffset_succ ⟨c.toNat, by omega⟩ h1 ⟨j, by omega⟩ hj
  have hp : cursorPos (BitVec.ofNat 64 (32 * m + payOffset c.toNat j)) = payOffset c.toNat j := by
    rw [cursorPos_eq, BitVec.toNat_ofNat]; omega
  unfold nextPayloadBit
  simp only [hp]
  simp only at key
  generalize payOffset c.toNat j = o at *
  generalize payOffset c.toNat (j + 1) = o' at *
  have hadd : ∀ d, BitVec.ofNat 64 (32 * m + o) + BitVec.ofNat 64 d = BitVec.ofNat 64 (32 * m + o + d) := fun d => by
    simp [BitVec.ofNat_add]
  have h1' : (1 : BitIndex) = BitVec.ofNat 64 1 := rfl
  simp only [h1', hadd]
  have e : (if j + 1 < 8 + 3 * c.toNat then 32 * m + o' else 32 * (m + 1)) =
      32 * m + (if j + 1 < 8 + 3 * c.toNat then o' else 32) := by split_ifs <;> omega
  rw [e, key]
  clear e key hadd
  split_ifs <;> first | (exfalso; omega) | (refine congrArg (BitVec.ofNat 64) ?_; omega)

end Sys2Proof.Machine
end

