-- ==== Sys2Proof/Laws/State.lean ====
section
/-! SUPPORT. One lemma per field of State per named update, each true by rfl: a proof cites these and unfolds no
record update. -/

namespace Sys2Proof.Machine

/-! ## setCursorOut -/

@[simp] theorem State.setCursorOut_params (v : BitVec 64) (s : State) : (s.setCursorOut v).params = s.params := rfl
@[simp] theorem State.setCursorOut_everReset (v : BitVec 64) (s : State) : (s.setCursorOut v).everReset = s.everReset := rfl
@[simp] theorem State.setCursorOut_conf (v : BitVec 64) (s : State) : (s.setCursorOut v).conf = s.conf := rfl
@[simp] theorem State.setCursorOut_res (v : BitVec 64) (s : State) : (s.setCursorOut v).res = { s.res with cursorOut := v } := rfl
@[simp] theorem State.setCursorOut_status (v : BitVec 64) (s : State) : (s.setCursorOut v).status = s.status := rfl
@[simp] theorem State.setCursorOut_fsm (v : BitVec 64) (s : State) : (s.setCursorOut v).fsm = s.fsm := rfl
@[simp] theorem State.setCursorOut_acc (v : BitVec 64) (s : State) : (s.setCursorOut v).acc = s.acc := rfl
@[simp] theorem State.setCursorOut_pix (v : BitVec 64) (s : State) : (s.setCursorOut v).pix = s.pix := rfl
@[simp] theorem State.setCursorOut_pay (v : BitVec 64) (s : State) : (s.setCursorOut v).pay = s.pay := rfl
@[simp] theorem State.setCursorOut_program (v : BitVec 64) (s : State) : (s.setCursorOut v).program = s.program := rfl
@[simp] theorem State.setCursorOut_turns (v : BitVec 64) (s : State) : (s.setCursorOut v).turns = s.turns := rfl
@[simp] theorem State.setCursorOut_readData (v : BitVec 64) (s : State) : (s.setCursorOut v).readData = s.readData := rfl
@[simp] theorem State.setCursorOut_draws (v : BitVec 64) (s : State) : (s.setCursorOut v).draws = s.draws := rfl

/-! ## setWritable -/

@[simp] theorem State.setWritable_params (b : Bool) (s : State) : (s.setWritable b).params = s.params := rfl
@[simp] theorem State.setWritable_everReset (b : Bool) (s : State) : (s.setWritable b).everReset = s.everReset := rfl
@[simp] theorem State.setWritable_conf (b : Bool) (s : State) : (s.setWritable b).conf = s.conf := rfl
@[simp] theorem State.setWritable_res (b : Bool) (s : State) : (s.setWritable b).res = { s.res with writable := b } := rfl
@[simp] theorem State.setWritable_status (b : Bool) (s : State) : (s.setWritable b).status = s.status := rfl
@[simp] theorem State.setWritable_fsm (b : Bool) (s : State) : (s.setWritable b).fsm = s.fsm := rfl
@[simp] theorem State.setWritable_acc (b : Bool) (s : State) : (s.setWritable b).acc = s.acc := rfl
@[simp] theorem State.setWritable_pix (b : Bool) (s : State) : (s.setWritable b).pix = s.pix := rfl
@[simp] theorem State.setWritable_pay (b : Bool) (s : State) : (s.setWritable b).pay = s.pay := rfl
@[simp] theorem State.setWritable_program (b : Bool) (s : State) : (s.setWritable b).program = s.program := rfl
@[simp] theorem State.setWritable_turns (b : Bool) (s : State) : (s.setWritable b).turns = s.turns := rfl
@[simp] theorem State.setWritable_readData (b : Bool) (s : State) : (s.setWritable b).readData = s.readData := rfl
@[simp] theorem State.setWritable_draws (b : Bool) (s : State) : (s.setWritable b).draws = s.draws := rfl

/-! ## setEstimate -/

@[simp] theorem State.setEstimate_params (v : BitVec 64) (s : State) : (s.setEstimate v).params = s.params := rfl
@[simp] theorem State.setEstimate_everReset (v : BitVec 64) (s : State) : (s.setEstimate v).everReset = s.everReset := rfl
@[simp] theorem State.setEstimate_conf (v : BitVec 64) (s : State) : (s.setEstimate v).conf = s.conf := rfl
@[simp] theorem State.setEstimate_res (v : BitVec 64) (s : State) : (s.setEstimate v).res = { s.res with estimate := v } := rfl
@[simp] theorem State.setEstimate_status (v : BitVec 64) (s : State) : (s.setEstimate v).status = s.status := rfl
@[simp] theorem State.setEstimate_fsm (v : BitVec 64) (s : State) : (s.setEstimate v).fsm = s.fsm := rfl
@[simp] theorem State.setEstimate_acc (v : BitVec 64) (s : State) : (s.setEstimate v).acc = s.acc := rfl
@[simp] theorem State.setEstimate_pix (v : BitVec 64) (s : State) : (s.setEstimate v).pix = s.pix := rfl
@[simp] theorem State.setEstimate_pay (v : BitVec 64) (s : State) : (s.setEstimate v).pay = s.pay := rfl
@[simp] theorem State.setEstimate_program (v : BitVec 64) (s : State) : (s.setEstimate v).program = s.program := rfl
@[simp] theorem State.setEstimate_turns (v : BitVec 64) (s : State) : (s.setEstimate v).turns = s.turns := rfl
@[simp] theorem State.setEstimate_readData (v : BitVec 64) (s : State) : (s.setEstimate v).readData = s.readData := rfl
@[simp] theorem State.setEstimate_draws (v : BitVec 64) (s : State) : (s.setEstimate v).draws = s.draws := rfl

/-! ## setHdr -/

@[simp] theorem State.setHdr_params (h : Header) (s : State) : (s.setHdr h).params = s.params := rfl
@[simp] theorem State.setHdr_everReset (h : Header) (s : State) : (s.setHdr h).everReset = s.everReset := rfl
@[simp] theorem State.setHdr_conf (h : Header) (s : State) : (s.setHdr h).conf = s.conf := rfl
@[simp] theorem State.setHdr_res (h : Header) (s : State) : (s.setHdr h).res = { s.res with hdr := h } := rfl
@[simp] theorem State.setHdr_status (h : Header) (s : State) : (s.setHdr h).status = s.status := rfl
@[simp] theorem State.setHdr_fsm (h : Header) (s : State) : (s.setHdr h).fsm = s.fsm := rfl
@[simp] theorem State.setHdr_acc (h : Header) (s : State) : (s.setHdr h).acc = s.acc := rfl
@[simp] theorem State.setHdr_pix (h : Header) (s : State) : (s.setHdr h).pix = s.pix := rfl
@[simp] theorem State.setHdr_pay (h : Header) (s : State) : (s.setHdr h).pay = s.pay := rfl
@[simp] theorem State.setHdr_program (h : Header) (s : State) : (s.setHdr h).program = s.program := rfl
@[simp] theorem State.setHdr_turns (h : Header) (s : State) : (s.setHdr h).turns = s.turns := rfl
@[simp] theorem State.setHdr_readData (h : Header) (s : State) : (s.setHdr h).readData = s.readData := rfl
@[simp] theorem State.setHdr_draws (h : Header) (s : State) : (s.setHdr h).draws = s.draws := rfl

/-! ## setScan -/

@[simp] theorem State.setScan_params (k pix : Word) (ptr : BitIndex) (s : State) : (s.setScan k pix ptr).params = s.params := rfl
@[simp] theorem State.setScan_everReset (k pix : Word) (ptr : BitIndex) (s : State) : (s.setScan k pix ptr).everReset = s.everReset := rfl
@[simp] theorem State.setScan_conf (k pix : Word) (ptr : BitIndex) (s : State) : (s.setScan k pix ptr).conf = s.conf := rfl
@[simp] theorem State.setScan_res (k pix : Word) (ptr : BitIndex) (s : State) : (s.setScan k pix ptr).res = { s.res with bitsDone := k, scanPixel := pix, bitPtr := ptr } := rfl
@[simp] theorem State.setScan_status (k pix : Word) (ptr : BitIndex) (s : State) : (s.setScan k pix ptr).status = s.status := rfl
@[simp] theorem State.setScan_fsm (k pix : Word) (ptr : BitIndex) (s : State) : (s.setScan k pix ptr).fsm = s.fsm := rfl
@[simp] theorem State.setScan_acc (k pix : Word) (ptr : BitIndex) (s : State) : (s.setScan k pix ptr).acc = s.acc := rfl
@[simp] theorem State.setScan_pix (k pix : Word) (ptr : BitIndex) (s : State) : (s.setScan k pix ptr).pix = s.pix := rfl
@[simp] theorem State.setScan_pay (k pix : Word) (ptr : BitIndex) (s : State) : (s.setScan k pix ptr).pay = s.pay := rfl
@[simp] theorem State.setScan_program (k pix : Word) (ptr : BitIndex) (s : State) : (s.setScan k pix ptr).program = s.program := rfl
@[simp] theorem State.setScan_turns (k pix : Word) (ptr : BitIndex) (s : State) : (s.setScan k pix ptr).turns = s.turns := rfl
@[simp] theorem State.setScan_readData (k pix : Word) (ptr : BitIndex) (s : State) : (s.setScan k pix ptr).readData = s.readData := rfl
@[simp] theorem State.setScan_draws (k pix : Word) (ptr : BitIndex) (s : State) : (s.setScan k pix ptr).draws = s.draws := rfl

/-! ## clearPacker -/

@[simp] theorem State.clearPacker_params (s : State) : (s.clearPacker).params = s.params := rfl
@[simp] theorem State.clearPacker_everReset (s : State) : (s.clearPacker).everReset = s.everReset := rfl
@[simp] theorem State.clearPacker_conf (s : State) : (s.clearPacker).conf = s.conf := rfl
@[simp] theorem State.clearPacker_res (s : State) : (s.clearPacker).res = { s.res with outBytes := 0 } := rfl
@[simp] theorem State.clearPacker_status (s : State) : (s.clearPacker).status = s.status := rfl
@[simp] theorem State.clearPacker_fsm (s : State) : (s.clearPacker).fsm = s.fsm := rfl
@[simp] theorem State.clearPacker_acc (s : State) : (s.clearPacker).acc = 0 := rfl
@[simp] theorem State.clearPacker_pix (s : State) : (s.clearPacker).pix = s.pix := rfl
@[simp] theorem State.clearPacker_pay (s : State) : (s.clearPacker).pay = s.pay := rfl
@[simp] theorem State.clearPacker_program (s : State) : (s.clearPacker).program = s.program := rfl
@[simp] theorem State.clearPacker_turns (s : State) : (s.clearPacker).turns = s.turns := rfl
@[simp] theorem State.clearPacker_readData (s : State) : (s.clearPacker).readData = s.readData := rfl
@[simp] theorem State.clearPacker_draws (s : State) : (s.clearPacker).draws = s.draws := rfl

/-! ## setPix -/

@[simp] theorem State.setPix_params (m : Memory 32) (s : State) : (s.setPix m).params = s.params := rfl
@[simp] theorem State.setPix_everReset (m : Memory 32) (s : State) : (s.setPix m).everReset = s.everReset := rfl
@[simp] theorem State.setPix_conf (m : Memory 32) (s : State) : (s.setPix m).conf = s.conf := rfl
@[simp] theorem State.setPix_res (m : Memory 32) (s : State) : (s.setPix m).res = s.res := rfl
@[simp] theorem State.setPix_status (m : Memory 32) (s : State) : (s.setPix m).status = s.status := rfl
@[simp] theorem State.setPix_fsm (m : Memory 32) (s : State) : (s.setPix m).fsm = s.fsm := rfl
@[simp] theorem State.setPix_acc (m : Memory 32) (s : State) : (s.setPix m).acc = s.acc := rfl
@[simp] theorem State.setPix_pix (m : Memory 32) (s : State) : (s.setPix m).pix = m := rfl
@[simp] theorem State.setPix_pay (m : Memory 32) (s : State) : (s.setPix m).pay = s.pay := rfl
@[simp] theorem State.setPix_program (m : Memory 32) (s : State) : (s.setPix m).program = s.program := rfl
@[simp] theorem State.setPix_turns (m : Memory 32) (s : State) : (s.setPix m).turns = s.turns := rfl
@[simp] theorem State.setPix_readData (m : Memory 32) (s : State) : (s.setPix m).readData = s.readData := rfl
@[simp] theorem State.setPix_draws (m : Memory 32) (s : State) : (s.setPix m).draws = s.draws := rfl

/-! ## setFsm -/

@[simp] theorem State.setFsm_params (f : Fsm) (s : State) : (s.setFsm f).params = s.params := rfl
@[simp] theorem State.setFsm_everReset (f : Fsm) (s : State) : (s.setFsm f).everReset = s.everReset := rfl
@[simp] theorem State.setFsm_conf (f : Fsm) (s : State) : (s.setFsm f).conf = s.conf := rfl
@[simp] theorem State.setFsm_res (f : Fsm) (s : State) : (s.setFsm f).res = s.res := rfl
@[simp] theorem State.setFsm_status (f : Fsm) (s : State) : (s.setFsm f).status = s.status := rfl
@[simp] theorem State.setFsm_fsm (f : Fsm) (s : State) : (s.setFsm f).fsm = f := rfl
@[simp] theorem State.setFsm_acc (f : Fsm) (s : State) : (s.setFsm f).acc = s.acc := rfl
@[simp] theorem State.setFsm_pix (f : Fsm) (s : State) : (s.setFsm f).pix = s.pix := rfl
@[simp] theorem State.setFsm_pay (f : Fsm) (s : State) : (s.setFsm f).pay = s.pay := rfl
@[simp] theorem State.setFsm_program (f : Fsm) (s : State) : (s.setFsm f).program = s.program := rfl
@[simp] theorem State.setFsm_turns (f : Fsm) (s : State) : (s.setFsm f).turns = s.turns := rfl
@[simp] theorem State.setFsm_readData (f : Fsm) (s : State) : (s.setFsm f).readData = s.readData := rfl
@[simp] theorem State.setFsm_draws (f : Fsm) (s : State) : (s.setFsm f).draws = s.draws := rfl

/-! ## begin -/

@[simp] theorem State.begin_params (f : Fsm) (s : State) : (s.begin f).params = s.params := rfl
@[simp] theorem State.begin_everReset (f : Fsm) (s : State) : (s.begin f).everReset = s.everReset := rfl
@[simp] theorem State.begin_conf (f : Fsm) (s : State) : (s.begin f).conf = s.conf := rfl
@[simp] theorem State.begin_res (f : Fsm) (s : State) : (s.begin f).res = s.res := rfl
@[simp] theorem State.begin_status (f : Fsm) (s : State) : (s.begin f).status = s.status.started := rfl
@[simp] theorem State.begin_fsm (f : Fsm) (s : State) : (s.begin f).fsm = f := rfl
@[simp] theorem State.begin_acc (f : Fsm) (s : State) : (s.begin f).acc = s.acc := rfl
@[simp] theorem State.begin_pix (f : Fsm) (s : State) : (s.begin f).pix = s.pix := rfl
@[simp] theorem State.begin_pay (f : Fsm) (s : State) : (s.begin f).pay = s.pay := rfl
@[simp] theorem State.begin_program (f : Fsm) (s : State) : (s.begin f).program = s.program := rfl
@[simp] theorem State.begin_turns (f : Fsm) (s : State) : (s.begin f).turns = s.turns := rfl
@[simp] theorem State.begin_readData (f : Fsm) (s : State) : (s.begin f).readData = s.readData := rfl
@[simp] theorem State.begin_draws (f : Fsm) (s : State) : (s.begin f).draws = s.draws := rfl

/-! ## raise -/

@[simp] theorem State.raise_params (e : ErrKind) (s : State) : (s.raise e).params = s.params := rfl
@[simp] theorem State.raise_everReset (e : ErrKind) (s : State) : (s.raise e).everReset = s.everReset := rfl
@[simp] theorem State.raise_conf (e : ErrKind) (s : State) : (s.raise e).conf = s.conf := rfl
@[simp] theorem State.raise_res (e : ErrKind) (s : State) : (s.raise e).res = s.res := rfl
@[simp] theorem State.raise_status (e : ErrKind) (s : State) : (s.raise e).status = s.status.aborted e := rfl
@[simp] theorem State.raise_fsm (e : ErrKind) (s : State) : (s.raise e).fsm = .idle := rfl
@[simp] theorem State.raise_acc (e : ErrKind) (s : State) : (s.raise e).acc = s.acc := rfl
@[simp] theorem State.raise_pix (e : ErrKind) (s : State) : (s.raise e).pix = s.pix := rfl
@[simp] theorem State.raise_pay (e : ErrKind) (s : State) : (s.raise e).pay = s.pay := rfl
@[simp] theorem State.raise_program (e : ErrKind) (s : State) : (s.raise e).program = s.program := rfl
@[simp] theorem State.raise_turns (e : ErrKind) (s : State) : (s.raise e).turns = s.turns := rfl
@[simp] theorem State.raise_readData (e : ErrKind) (s : State) : (s.raise e).readData = s.readData := rfl
@[simp] theorem State.raise_draws (e : ErrKind) (s : State) : (s.raise e).draws = s.draws := rfl

/-! ## complete -/

@[simp] theorem State.complete_params (s : State) : (s.complete).params = s.params := rfl
@[simp] theorem State.complete_everReset (s : State) : (s.complete).everReset = s.everReset := rfl
@[simp] theorem State.complete_conf (s : State) : (s.complete).conf = s.conf := rfl
@[simp] theorem State.complete_res (s : State) : (s.complete).res = s.res := rfl
@[simp] theorem State.complete_status (s : State) : (s.complete).status = s.status.completed := rfl
@[simp] theorem State.complete_fsm (s : State) : (s.complete).fsm = .idle := rfl
@[simp] theorem State.complete_acc (s : State) : (s.complete).acc = s.acc := rfl
@[simp] theorem State.complete_pix (s : State) : (s.complete).pix = s.pix := rfl
@[simp] theorem State.complete_pay (s : State) : (s.complete).pay = s.pay := rfl
@[simp] theorem State.complete_program (s : State) : (s.complete).program = s.program := rfl
@[simp] theorem State.complete_turns (s : State) : (s.complete).turns = s.turns := rfl
@[simp] theorem State.complete_readData (s : State) : (s.complete).readData = s.readData := rfl
@[simp] theorem State.complete_draws (s : State) : (s.complete).draws = s.draws := rfl

/-! ## resetInput -/

@[simp] theorem State.resetInput_params (s : State) : (s.resetInput).params = s.params := rfl
@[simp] theorem State.resetInput_everReset (s : State) : (s.resetInput).everReset = true := rfl
@[simp] theorem State.resetInput_conf (s : State) : (s.resetInput).conf = Conf.reset := rfl
@[simp] theorem State.resetInput_res (s : State) : (s.resetInput).res = Results.reset := rfl
@[simp] theorem State.resetInput_status (s : State) : (s.resetInput).status = Status.reset := rfl
@[simp] theorem State.resetInput_fsm (s : State) : (s.resetInput).fsm = .idle := rfl
@[simp] theorem State.resetInput_acc (s : State) : (s.resetInput).acc = 0 := rfl
@[simp] theorem State.resetInput_pix (s : State) : (s.resetInput).pix = s.pix := rfl
@[simp] theorem State.resetInput_pay (s : State) : (s.resetInput).pay = s.pay := rfl
@[simp] theorem State.resetInput_program (s : State) : (s.resetInput).program = s.program := rfl
@[simp] theorem State.resetInput_turns (s : State) : (s.resetInput).turns = s.turns := rfl
@[simp] theorem State.resetInput_readData (s : State) : (s.resetInput).readData = s.readData := rfl
@[simp] theorem State.resetInput_draws (s : State) : (s.resetInput).draws = s.draws := rfl

/-! ## advance -/

@[simp] theorem State.advance_params (s : State) : (s.advance).params = s.params := rfl
@[simp] theorem State.advance_everReset (s : State) : (s.advance).everReset = s.everReset := rfl
@[simp] theorem State.advance_conf (s : State) : (s.advance).conf = s.conf := rfl
@[simp] theorem State.advance_res (s : State) : (s.advance).res = s.res := rfl
@[simp] theorem State.advance_status (s : State) : (s.advance).status = s.status := rfl
@[simp] theorem State.advance_fsm (s : State) : (s.advance).fsm = s.fsm := rfl
@[simp] theorem State.advance_acc (s : State) : (s.advance).acc = s.acc := rfl
@[simp] theorem State.advance_pix (s : State) : (s.advance).pix = s.pix := rfl
@[simp] theorem State.advance_pay (s : State) : (s.advance).pay = s.pay := rfl
@[simp] theorem State.advance_program (s : State) : (s.advance).program = s.program.tail := rfl
@[simp] theorem State.advance_turns (s : State) : (s.advance).turns = s.turns := rfl
@[simp] theorem State.advance_readData (s : State) : (s.advance).readData = s.readData := rfl
@[simp] theorem State.advance_draws (s : State) : (s.advance).draws = s.draws := rfl

/-! ## returnData -/

@[simp] theorem State.returnData_params (v : Word) (s : State) : (s.returnData v).params = s.params := rfl
@[simp] theorem State.returnData_everReset (v : Word) (s : State) : (s.returnData v).everReset = s.everReset := rfl
@[simp] theorem State.returnData_conf (v : Word) (s : State) : (s.returnData v).conf = s.conf := rfl
@[simp] theorem State.returnData_res (v : Word) (s : State) : (s.returnData v).res = s.res := rfl
@[simp] theorem State.returnData_status (v : Word) (s : State) : (s.returnData v).status = s.status := rfl
@[simp] theorem State.returnData_fsm (v : Word) (s : State) : (s.returnData v).fsm = s.fsm := rfl
@[simp] theorem State.returnData_acc (v : Word) (s : State) : (s.returnData v).acc = s.acc := rfl
@[simp] theorem State.returnData_pix (v : Word) (s : State) : (s.returnData v).pix = s.pix := rfl
@[simp] theorem State.returnData_pay (v : Word) (s : State) : (s.returnData v).pay = s.pay := rfl
@[simp] theorem State.returnData_program (v : Word) (s : State) : (s.returnData v).program = s.program := rfl
@[simp] theorem State.returnData_turns (v : Word) (s : State) : (s.returnData v).turns = s.turns := rfl
@[simp] theorem State.returnData_readData (v : Word) (s : State) : (s.returnData v).readData = v := rfl
@[simp] theorem State.returnData_draws (v : Word) (s : State) : (s.returnData v).draws = s.draws := rfl

/-! ## The packer: what it leaves -/

@[simp] theorem State.collect_params (bit : Bool) (k : Nat) (s : State) : (s.collect bit k).params = s.params := by
  unfold State.collect; split <;> rfl

@[simp] theorem State.collect_everReset (bit : Bool) (k : Nat) (s : State) : (s.collect bit k).everReset = s.everReset := by
  unfold State.collect; split <;> rfl

@[simp] theorem State.collect_conf (bit : Bool) (k : Nat) (s : State) : (s.collect bit k).conf = s.conf := by
  unfold State.collect; split <;> rfl

@[simp] theorem State.collect_status (bit : Bool) (k : Nat) (s : State) : (s.collect bit k).status = s.status := by
  unfold State.collect; split <;> rfl

@[simp] theorem State.collect_fsm (bit : Bool) (k : Nat) (s : State) : (s.collect bit k).fsm = s.fsm := by
  unfold State.collect; split <;> rfl

@[simp] theorem State.collect_pix (bit : Bool) (k : Nat) (s : State) : (s.collect bit k).pix = s.pix := by
  unfold State.collect; split <;> rfl

@[simp] theorem State.collect_program (bit : Bool) (k : Nat) (s : State) : (s.collect bit k).program = s.program := by
  unfold State.collect; split <;> rfl

@[simp] theorem State.collect_turns (bit : Bool) (k : Nat) (s : State) : (s.collect bit k).turns = s.turns := by
  unfold State.collect; split <;> rfl

@[simp] theorem State.collect_readData (bit : Bool) (k : Nat) (s : State) : (s.collect bit k).readData = s.readData := by
  unfold State.collect; split <;> rfl

@[simp] theorem State.collect_draws (bit : Bool) (k : Nat) (s : State) : (s.collect bit k).draws = s.draws := by
  unfold State.collect; split <;> rfl

@[simp] theorem State.collect_res_cursorOut (bit : Bool) (k : Nat) (s : State) :
    (s.collect bit k).res.cursorOut = s.res.cursorOut := by
  unfold State.collect; split <;> rfl

@[simp] theorem State.collect_res_writable (bit : Bool) (k : Nat) (s : State) :
    (s.collect bit k).res.writable = s.res.writable := by
  unfold State.collect; split <;> rfl

@[simp] theorem State.collect_res_estimate (bit : Bool) (k : Nat) (s : State) :
    (s.collect bit k).res.estimate = s.res.estimate := by
  unfold State.collect; split <;> rfl

@[simp] theorem State.collect_res_bitsDone (bit : Bool) (k : Nat) (s : State) :
    (s.collect bit k).res.bitsDone = s.res.bitsDone := by
  unfold State.collect; split <;> rfl

@[simp] theorem State.collect_res_scanPixel (bit : Bool) (k : Nat) (s : State) :
    (s.collect bit k).res.scanPixel = s.res.scanPixel := by
  unfold State.collect; split <;> rfl

@[simp] theorem State.collect_res_bitPtr (bit : Bool) (k : Nat) (s : State) :
    (s.collect bit k).res.bitPtr = s.res.bitPtr := by
  unfold State.collect; split <;> rfl

@[simp] theorem State.collect_res_hdr (bit : Bool) (k : Nat) (s : State) :
    (s.collect bit k).res.hdr = s.res.hdr := by
  unfold State.collect; split <;> rfl

/-! ## BUSY -/

@[simp] theorem State.busy_eq_false (s : State) : s.busy = false ↔ s.fsm = .idle := by
  simp [State.busy]

@[simp] theorem State.busy_eq_true (s : State) : s.busy = true ↔ s.fsm ≠ .idle := by
  simp [State.busy]

end Sys2Proof.Machine
end

