-- ==== Sys2Proof/Laws/Scan.lean ====
section
/-! SUPPORT. The scan of R131, said once: which bits it moves, where they lie (R133), and how it ends. -/

namespace Sys2Proof.Machine

/-! ## The region predicate and the pixels of a scan -/

theorem isWritable_eq (i width : Nat) (r : Region) : isWritable i width r = decide (WritableAt i width r) := by
  unfold isWritable degenerate
  by_cases h1 : r.minX = r.maxX <;> by_cases h2 : r.minY = r.maxY <;> simp [h1, h2, WritableAt, Bool.and_assoc]

/-- The writable pixels in `[q, N)`, in order. -/
def ScanArgs.rest (a : ScanArgs) (q : Nat) : List Nat :=
  (List.range' q (a.n - q)).filter (fun i => decide (WritableAt i a.width a.region))

theorem ScanArgs.pixels_eq (a : ScanArgs) : a.pixels = a.rest 9 := rfl

theorem ScanArgs.rest_of_le {a : ScanArgs} {q : Nat} (h : a.n ≤ q) : a.rest q = [] := by
  simp [ScanArgs.rest, Nat.sub_eq_zero_of_le h]

theorem ScanArgs.rest_of_lt {a : ScanArgs} {q : Nat} (h : q < a.n) :
    a.rest q = if WritableAt q a.width a.region then q :: a.rest (q + 1) else a.rest (q + 1) := by
  obtain ⟨d, hd⟩ : ∃ d, a.n - q = d + 1 := ⟨a.n - q - 1, by omega⟩
  have hd' : a.n - (q + 1) = d := by omega
  simp only [ScanArgs.rest, hd, hd', List.range'_succ, List.filter_cons, decide_eq_true_eq]

/-- How many bits a pixel of the scan holds (R92). -/
abbrev ScanArgs.perPixel (a : ScanArgs) : Nat := 8 + 3 * a.cap.toNat

theorem ScanArgs.room_eq (a : ScanArgs) : a.room = a.pixels.length * a.perPixel := by
  unfold ScanArgs.room writableSet ScanArgs.pixels
  rw [← List.toFinset_card_of_nodup (List.Nodup.filter _ List.nodup_range')]
  refine congrArg (· * _) (congrArg Finset.card ?_)
  ext i
  simp only [Finset.mem_filter, Finset.mem_Ico, List.mem_toFinset, List.mem_filter, List.mem_range'_1,
    decide_eq_true_eq]
  refine and_congr_left fun _ => ?_
  omega

/-! ## The action of a bit -/

/-- `act(ptr, k)`, with `k` given. -/
def actAt (d : Direction) (ptr : BitIndex) (k : Nat) (s : State) : State :=
  match d with
  | .write => s.setPix (pixWriteBit s.pix ptr (payBit s.params.bitOrder s.pay k))
  | .read => s.collect (pixReadBit s.pix ptr) k

theorem scanAct_eq (d : Direction) (ptr : BitIndex) (s : State) :
    scanAct d ptr s = actAt d ptr s.res.bitsDone.toNat s := by cases d <;> rfl

/-- The fault of bit `k` in pixel `pix`, if the platform does not back an address of it. -/
def bitFault (d : Direction) (p : Config.Params) (k pix : Nat) : Option Fault :=
  match d with
  | .write =>
    if p.payBytes ≤ k / 8 then some .unbackedPayload else if p.pixWords ≤ pix then some .unbackedPixel else none
  | .read =>
    if p.pixWords ≤ pix then some .unbackedPixel
    else if k % 8 = 7 ∧ p.payBytes ≤ k / 8 then some .unbackedPayload else none

theorem scanFault_eq (d : Direction) (s : State) :
    scanFault d s = bitFault d s.params s.res.bitsDone.toNat s.res.scanPixel.toNat := by cases d <;> rfl

theorem actAt_setScan (d : Direction) (ptr : BitIndex) (k : Nat) (s : State) (x y : Word) (z : BitIndex) :
    actAt d ptr k (s.setScan x y z) = (actAt d ptr k s).setScan x y z := by
  cases d
  · rfl
  · simp only [actAt, State.collect]
    split <;> rfl

@[simp] theorem actAt_params (d : Direction) (ptr : BitIndex) (k : Nat) (s : State) :
    (actAt d ptr k s).params = s.params := by cases d <;> simp [actAt]

@[simp] theorem actAt_conf (d : Direction) (ptr : BitIndex) (k : Nat) (s : State) :
    (actAt d ptr k s).conf = s.conf := by cases d <;> simp [actAt]

@[simp] theorem actAt_bitsDone (d : Direction) (ptr : BitIndex) (k : Nat) (s : State) :
    (actAt d ptr k s).res.bitsDone = s.res.bitsDone := by cases d <;> simp [actAt]

@[simp] theorem actAt_hdr (d : Direction) (ptr : BitIndex) (k : Nat) (s : State) :
    (actAt d ptr k s).res.hdr = s.res.hdr := by cases d <;> simp [actAt]

/-- The actions of bits `k .. k+n-1` at the places R133 gives. -/
def acts (a : ScanArgs) : Nat → Nat → State → State
  | 0, _, s => s
  | n + 1, k, s => acts a n (k + 1) (actAt a.dir (BitVec.ofNat 64 (a.bitPos k)) k s)

theorem acts_setScan (a : ScanArgs) (x y : Word) (z : BitIndex) :
    ∀ (n k : Nat) (s : State), acts a n k (s.setScan x y z) = (acts a n k s).setScan x y z
  | 0, _, _ => rfl
  | n + 1, k, s => by simp only [acts, actAt_setScan, acts_setScan a x y z n]

@[simp] theorem acts_params (a : ScanArgs) : ∀ (n k : Nat) (s : State), (acts a n k s).params = s.params
  | 0, _, _ => rfl
  | n + 1, k, s => by simp only [acts, acts_params a n, actAt_params]

@[simp] theorem setScan_setScan (s : State) (x y x' y' : Word) (z z' : BitIndex) :
    (s.setScan x y z).setScan x' y' z' = s.setScan x' y' z' := rfl

theorem activePtr_setScan (s : State) (x y : Word) (z : BitIndex) :
    activePtr (s.setScan x y z) = if z = -1 then BitVec.ofNat 64 (32 * y.toNat) else z := rfl

/-- No bit of a pixel index below 2^32 is at -1. -/
theorem ofNat_pixel_ne (q : Word) {p : Nat} (hp : p < 32) : BitVec.ofNat 64 (32 * q.toNat + p) ≠ -1 := by
  intro hc
  have := congrArg BitVec.toNat hc
  have hq := q.isLt
  simp at this
  omega

/-! ## Skipping to the next writable pixel -/

/-- Where `k` bits are moved and the next pixel to look at is SCAN_PIXEL (R133). -/
structure ScanAt (a : ScanArgs) (k : Nat) (s : State) : Prop where
  bits : s.res.bitsDone.toNat = k
  leRoom : k ≤ a.pixels.length * a.perPixel
  pixLe : s.res.scanPixel.toNat ≤ max 9 a.n
  pixels : a.pixels.drop (k / a.perPixel) = a.rest s.res.scanPixel.toNat
  ptr : (k % a.perPixel = 0 ∧
      (s.res.bitPtr = -1 ∨ s.res.bitPtr = BitVec.ofNat 64 (32 * s.res.scanPixel.toNat))) ∨
    (k % a.perPixel ≠ 0 ∧ s.res.scanPixel.toNat < a.n ∧ WritableAt s.res.scanPixel.toNat a.width a.region ∧
      s.res.bitPtr = BitVec.ofNat 64 (32 * s.res.scanPixel.toNat + payOffset a.cap.toNat (k % a.perPixel)))

theorem skipPixels_of_not {a : ScanArgs} {s : State} (h : atSkippedPixel a s = false) (m : Nat) :
    skipPixels a m s = s := by
  cases m with
  | zero => rfl
  | succ m => simp [skipPixels, h]

/-- What skipping does: it moves SCAN_PIXEL up, past pixels that are not writable only, and BITPTR to -1 if it moved. -/
theorem skipPixels_spec {a : ScanArgs} (hn : a.n < 2 ^ 32) :
    ∀ (m : Nat) (s : State), m = a.n - s.res.scanPixel.toNat →
      ∃ (q : Word) (ptr : BitIndex), skipPixels a m s = s.setScan s.res.bitsDone q ptr ∧
        q.toNat ≤ max s.res.scanPixel.toNat a.n ∧
        a.rest q.toNat = a.rest s.res.scanPixel.toNat ∧
        (q.toNat < a.n → WritableAt q.toNat a.width a.region) ∧
        (q = s.res.scanPixel ∧ ptr = s.res.bitPtr ∨ ptr = -1) := by
  intro m
  induction m with
  | zero =>
    intro s hs
    exact ⟨s.res.scanPixel, s.res.bitPtr, rfl, le_max_left _ _, rfl, fun h => by omega, .inl ⟨rfl, rfl⟩⟩
  | succ m ih =>
    intro s hs
    by_cases h : atSkippedPixel a s
    · simp only [skipPixels, h, if_true]
      simp only [atSkippedPixel, isWritable_eq, Bool.and_eq_true, decide_eq_true_eq, Bool.not_eq_true',
        decide_eq_false_iff_not] at h
      have hp : (s.res.scanPixel + 1).toNat = s.res.scanPixel.toNat + 1 := by
        rw [BitVec.toNat_add]; simp; omega
      obtain ⟨q, ptr, hq, hle, hrest, hw, hor⟩ := ih (skipPixel s) (by simp only [skipPixel, State.setScan_res]; omega)
      simp only [skipPixel, State.setScan_res, hp] at hle hrest hor
      refine ⟨q, ptr, ?_, by omega, ?_, hw, .inr ?_⟩
      · rw [hq]; rfl
      · rw [hrest, ScanArgs.rest_of_lt h.1, if_neg h.2]
      · rcases hor with h' | h'
        · exact h'.2
        · exact h'
    · refine ⟨s.res.scanPixel, s.res.bitPtr, ?_, le_max_left _ _, rfl, fun hlt => ?_, .inl ⟨rfl, rfl⟩⟩
      · rw [skipPixels_of_not (by simpa using h)]; rfl
      · by_contra hc
        exact h (by simp only [atSkippedPixel, isWritable_eq, hlt, hc, decide_true, decide_false, Bool.not_false,
          Bool.and_true])

/-- The scan at its next bit: exhausted exactly when no writable pixel is left, else at bit `k`'s place (R133). -/
theorem toNextBit_spec {a : ScanArgs} (hn : a.n < 2 ^ 32) (h1 : 1 ≤ a.cap.toNat) (h8 : a.cap.toNat ≤ 8) {k : Nat} {s : State} (h : ScanAt a k s) :
    ∃ (q : Word) (ptr : BitIndex), toNextBit a s = s.setScan s.res.bitsDone q ptr ∧
      (a.n ≤ q.toNat → k = a.pixels.length * a.perPixel ∧ ScanAt a k (s.setScan s.res.bitsDone q ptr)) ∧
      (q.toNat < a.n → k < a.pixels.length * a.perPixel ∧
        WritableAt q.toNat a.width a.region ∧ a.pixels.drop (k / a.perPixel) = q.toNat :: a.rest (q.toNat + 1) ∧
        a.bitPos k = 32 * q.toNat + payOffset a.cap.toNat (k % a.perPixel) ∧
        activePtr (s.setScan s.res.bitsDone q ptr) = BitVec.ofNat 64 (a.bitPos k)) := by
  have hB : 0 < a.perPixel := by unfold ScanArgs.perPixel; omega
  have hdm := Nat.div_add_mod k a.perPixel
  have hmod := Nat.mod_lt k hB
  obtain ⟨q, ptr, hq, hle, hrest, hw, hor⟩ := skipPixels_spec hn _ s rfl
  have hpix := h.pixels
  refine ⟨q, ptr, hq, fun hge => ?_, fun hlt => ?_⟩
  · have hnil : a.pixels.drop (k / a.perPixel) = [] := by rw [hpix, ← hrest, ScanArgs.rest_of_le hge]
    have hlen : a.pixels.length ≤ k / a.perPixel := List.drop_eq_nil_iff.1 hnil
    have hmul : a.pixels.length * a.perPixel ≤ a.perPixel * (k / a.perPixel) := by
      rw [Nat.mul_comm]; exact Nat.mul_le_mul_left _ hlen
    have hk : k = a.pixels.length * a.perPixel := by have := h.leRoom; omega
    have hk0 : k % a.perPixel = 0 := by rw [hk]; exact Nat.mul_mod_left _ _
    refine ⟨hk, h.bits, h.leRoom, ?_, ?_, .inl ⟨hk0, ?_⟩⟩
    · have := h.pixLe
      simp only [State.setScan_res]; omega
    · simp only [State.setScan_res, hrest, hpix]
    · simp only [State.setScan_res]
      rcases hor with ⟨rfl, rfl⟩ | h'
      · rcases h.ptr with h' | h'
        · exact h'.2
        · exact absurd hk0 h'.1
      · exact .inl h'
  · have hcons : a.pixels.drop (k / a.perPixel) = q.toNat :: a.rest (q.toNat + 1) := by
      rw [hpix, ← hrest, ScanArgs.rest_of_lt hlt, if_pos (hw hlt)]
    have hlen : k / a.perPixel < a.pixels.length := by
      by_contra hc
      rw [List.drop_eq_nil_iff.2 (by omega)] at hcons
      exact absurd hcons (by simp)
    have hget : a.pixels.getD (k / a.perPixel) 0 = q.toNat := by
      have : (a.pixels.drop (k / a.perPixel)).head? = some q.toNat := by rw [hcons]; rfl
      rw [List.head?_drop] at this
      rw [List.getD_eq_getElem?_getD, this]; rfl
    have hpos : a.bitPos k = 32 * q.toNat + payOffset a.cap.toNat (k % a.perPixel) := by
      rw [ScanArgs.bitPos, hget]
    refine ⟨?_, hw hlt, hcons, hpos, ?_⟩
    · have := Nat.mul_le_mul_left a.perPixel (Nat.succ_le_of_lt hlen)
      have h2 : a.perPixel * (k / a.perPixel).succ = a.perPixel * (k / a.perPixel) + a.perPixel := Nat.mul_succ _ _
      have h3 : a.perPixel * a.pixels.length = a.pixels.length * a.perPixel := Nat.mul_comm _ _
      omega
    · have hoff0 : payOffset a.cap.toNat 0 = 0 := by simp [payOffset]
      rw [hpos, activePtr_setScan]
      rcases h.ptr with ⟨h0, hp⟩ | ⟨h0, hlt', hw', hp⟩
      · rw [h0, hoff0, Nat.add_zero]
        rcases hor with ⟨rfl, rfl⟩ | rfl
        · rcases hp with hp | hp <;> simp [hp]
        · simp
      · have hstay : toNextBit a s = s := skipPixels_of_not (by simp only [atSkippedPixel, isWritable_eq, hlt', hw', decide_true,
          Bool.not_true, Bool.and_false]) _
        have hs : s = s.setScan s.res.bitsDone q ptr := hstay.symm.trans hq
        have hqe : q = s.res.scanPixel := (congrArg (fun x : State => x.res.scanPixel) hs).symm
        have hpe : ptr = s.res.bitPtr := (congrArg (fun x : State => x.res.bitPtr) hs).symm
        rw [hpe, hp, hqe, if_neg (ofNat_pixel_ne _ (payOffset_lt h1 h8 hmod))]

/-! ## The scan -/

/-- A writable pixel's iteration leaves the scan at the next bit. -/
theorem scanBit_spec {a : ScanArgs} (hn : a.n < 2 ^ 32) (h1 : 1 ≤ a.cap.toNat) (h8 : a.cap.toNat ≤ 8) {k : Nat}
    {s : State} (hk : k + 1 < 2 ^ 32) {q : Word} {ptr : BitIndex} (hbits : s.res.bitsDone.toNat = k)
    (hlt : q.toNat < a.n) (hroom : k < a.pixels.length * a.perPixel)
    (hw : WritableAt q.toNat a.width a.region)
    (hcons : a.pixels.drop (k / a.perPixel) = q.toNat :: a.rest (q.toNat + 1))
    (hpos : a.bitPos k = 32 * q.toNat + payOffset a.cap.toNat (k % a.perPixel))
    (hptr : activePtr (s.setScan s.res.bitsDone q ptr) = BitVec.ofNat 64 (a.bitPos k)) :
    let next := nextPayloadBit (BitVec.ofNat 64 (a.bitPos k)) a.cap
    scanBit a (s.setScan s.res.bitsDone q ptr) =
        (actAt a.dir (BitVec.ofNat 64 (a.bitPos k)) k s).setScan (BitVec.ofNat 32 (k + 1))
          (BitVec.ofNat 32 (next.toNat / 32)) next ∧
      ScanAt a (k + 1) ((actAt a.dir (BitVec.ofNat 64 (a.bitPos k)) k s).setScan (BitVec.ofNat 32 (k + 1))
          (BitVec.ofNat 32 (next.toNat / 32)) next) := by
  intro next
  have hq := q.isLt
  have hB : 0 < a.perPixel := by unfold ScanArgs.perPixel; omega
  have hmod := Nat.mod_lt k hB
  have hdm := Nat.div_add_mod k a.perPixel
  have hnext : next = BitVec.ofNat 64 (if k % a.perPixel + 1 < a.perPixel
      then 32 * q.toNat + payOffset a.cap.toNat (k % a.perPixel + 1) else 32 * (q.toNat + 1)) := by
    simp only [next, hpos]
    exact nextPayloadBit_framed h1 h8 q.toNat hmod
  constructor
  · have hb1 : s.res.bitsDone + 1 = BitVec.ofNat 32 (k + 1) := by
      apply BitVec.eq_of_toNat_eq
      rw [BitVec.toNat_add, hbits]; simp
    unfold scanBit
    simp only [hptr, scanAct_eq, actAt_setScan, State.setScan_res, setScan_setScan, hb1, hbits, pixelOf]
    rfl
  · by_cases hc : k % a.perPixel + 1 < a.perPixel
    · rw [if_pos hc] at hnext
      have hoff := payOffset_lt h1 h8 hc
      have hnat : next.toNat = 32 * q.toNat + payOffset a.cap.toNat (k % a.perPixel + 1) := by
        rw [hnext, BitVec.toNat_ofNat]; omega
      have hpix : BitVec.ofNat 32 (next.toNat / 32) = q := by
        have : next.toNat / 32 = q.toNat := by omega
        rw [this]; simp
      obtain ⟨hd, hm⟩ : (k + 1) / a.perPixel = k / a.perPixel ∧ (k + 1) % a.perPixel = k % a.perPixel + 1 :=
        (Nat.div_mod_unique hB).2 ⟨by omega, hc⟩
      rw [hpix]
      refine ⟨by simpa using Nat.mod_eq_of_lt hk, hroom, ?_, ?_, .inr ⟨by omega, ?_, ?_, ?_⟩⟩ <;>
        simp only [State.setScan_res]
      · omega
      · rw [hd, hcons, ScanArgs.rest_of_lt hlt, if_pos hw]
      · exact hlt
      · exact hw
      · rw [hm, hnext]
    · rw [if_neg hc] at hnext
      have hnat : next.toNat = 32 * (q.toNat + 1) := by rw [hnext, BitVec.toNat_ofNat]; omega
      have hpix : (BitVec.ofNat 32 (next.toNat / 32)).toNat = q.toNat + 1 := by
        rw [BitVec.toNat_ofNat]; omega
      obtain ⟨hd, hm⟩ : (k + 1) / a.perPixel = k / a.perPixel + 1 ∧ (k + 1) % a.perPixel = 0 :=
        (Nat.div_mod_unique hB).2 ⟨by rw [Nat.mul_add]; omega, hB⟩
      refine ⟨by simpa using Nat.mod_eq_of_lt hk, hroom, ?_, ?_, .inl ⟨hm, .inr ?_⟩⟩ <;>
        simp only [State.setScan_res, hpix]
      · omega
      · rw [hd, ← List.drop_drop, hcons]; rfl
      · exact hnext

/-- The scan from bit `k` with `left` bits to go: it ends after the last of them, or at the last bit the image has
room for, or with the fault of the first bit the platform does not back. Its effect is the actions of the bits it
moved, and the scan registers. -/
def ScanSpec (a : ScanArgs) (left k : Nat) (s : State) : ScanEnd → Prop
  | .done s' =>
    k + left ≤ a.pixels.length * a.perPixel ∧ ScanAt a (k + left) s' ∧
    (∀ j, k ≤ j → j < k + left → bitFault a.dir s.params j (a.bitPos j / 32) = none) ∧
    ∃ (q : Word) (ptr : BitIndex), s' = (acts a left k s).setScan (BitVec.ofNat 32 (k + left)) q ptr ∧
      (left = 0 → q = s.res.scanPixel ∧ ptr = s.res.bitPtr) ∧
      (left ≠ 0 → ptr = nextPayloadBit (BitVec.ofNat 64 (a.bitPos (k + left - 1))) a.cap ∧
        q = BitVec.ofNat 32 (ptr.toNat / 32))
  | .exhausted s' =>
    a.pixels.length * a.perPixel < k + left ∧ ScanAt a (a.pixels.length * a.perPixel) s' ∧
    a.n ≤ s'.res.scanPixel.toNat ∧
    (∀ j, k ≤ j → j < a.pixels.length * a.perPixel → bitFault a.dir s.params j (a.bitPos j / 32) = none) ∧
    ∃ (q : Word) (ptr : BitIndex),
      s' = (acts a (a.pixels.length * a.perPixel - k) k s).setScan (BitVec.ofNat 32 (a.pixels.length * a.perPixel)) q ptr
  | .unbacked f =>
    ∃ j, k ≤ j ∧ j < k + left ∧ j < a.pixels.length * a.perPixel ∧ bitFault a.dir s.params j (a.bitPos j / 32) = some f

theorem scanFrom_spec {a : ScanArgs} (hn : a.n < 2 ^ 32) (h1 : 1 ≤ a.cap.toNat) (h8 : a.cap.toNat ≤ 8) :
    ∀ (left k : Nat) (s : State), ScanAt a k s → k + left < 2 ^ 32 → ScanSpec a left k s (scanFrom a left s) := by
  intro left
  induction left with
  | zero =>
    intro k s h hk
    refine ⟨h.leRoom, h, fun j _ _ => by omega, s.res.scanPixel, s.res.bitPtr, ?_, fun _ => ⟨rfl, rfl⟩,
      fun hne => absurd rfl hne⟩
    have : BitVec.ofNat 32 (k + 0) = s.res.bitsDone := by
      apply BitVec.eq_of_toNat_eq
      rw [h.bits, BitVec.toNat_ofNat, Nat.mod_eq_of_lt hk]; rfl
    rw [this]; rfl
  | succ left ih =>
    intro k s h hk
    obtain ⟨q, ptr, hq, hge, hlt⟩ := toNextBit_spec hn h1 h8 h
    simp only [scanFrom, hq, State.setScan_res]
    by_cases hqn : a.n ≤ q.toNat
    · rw [if_pos hqn]
      obtain ⟨hkr, hat⟩ := hge hqn
      refine ⟨by omega, by rw [← hkr]; exact hat, hqn, fun j _ _ => by omega, q, ptr, ?_⟩
      have : BitVec.ofNat 32 (a.pixels.length * a.perPixel) = s.res.bitsDone := by
        apply BitVec.eq_of_toNat_eq
        rw [h.bits, BitVec.toNat_ofNat, ← hkr, Nat.mod_eq_of_lt (by omega)]
      rw [this, ← hkr, Nat.sub_self]; rfl
    · rw [if_neg hqn]
      obtain ⟨hroom, hw, hcons, hpos, hptr⟩ := hlt (by omega)
      have hmod := Nat.mod_lt k (show 0 < a.perPixel by unfold ScanArgs.perPixel; omega)
      have hpixel : a.bitPos k / 32 = q.toNat := by
        have := payOffset_lt h1 h8 hmod
        omega
      have hf : scanFault a.dir (s.setScan s.res.bitsDone q ptr) = bitFault a.dir s.params k (a.bitPos k / 32) := by
        rw [scanFault_eq, hpixel]
        simp only [State.setScan_res, State.setScan_params, h.bits]
      rw [hf]
      cases hfk : bitFault a.dir s.params k (a.bitPos k / 32) with
      | some f => exact ⟨k, le_rfl, by omega, hroom, hfk⟩
      | none =>
        obtain ⟨hbit, hat⟩ := scanBit_spec hn h1 h8 (by omega) h.bits (by omega) hroom hw hcons hpos hptr
        simp only [hbit]
        have := ih (k + 1) _ hat (by omega)
        have e : k + 1 + left = k + (left + 1) := by omega
        cases hend : scanFrom a left ((actAt a.dir (BitVec.ofNat 64 (a.bitPos k)) k s).setScan (BitVec.ofNat 32 (k + 1))
          (BitVec.ofNat 32 ((nextPayloadBit (BitVec.ofNat 64 (a.bitPos k)) a.cap).toNat / 32))
          (nextPayloadBit (BitVec.ofNat 64 (a.bitPos k)) a.cap)) with
        | done s' =>
          rw [hend] at this
          obtain ⟨c1, c2, c3, q', ptr', c4, c5, c6⟩ := this
          rw [e] at c1 c2 c4
          refine ⟨c1, c2, fun j hj hj' => ?_, q', ptr', ?_, fun h0 => absurd h0 (Nat.succ_ne_zero _), fun _ => ?_⟩
          · rcases Nat.eq_or_lt_of_le hj with rfl | hj
            · exact hfk
            · simpa using c3 j hj (by omega)
          · rw [c4, acts_setScan]; rfl
          · rcases Nat.eq_zero_or_pos left with rfl | hl
            · obtain ⟨c7, c8⟩ := c5 rfl
              simp only [State.setScan_res] at c7 c8
              rw [c7, c8]
              exact ⟨rfl, rfl⟩
            · have := c6 (by omega)
              rw [show k + (left + 1) - 1 = k + 1 + left - 1 by omega]
              exact this
        | exhausted s' =>
          rw [hend] at this
          obtain ⟨c1, c2, c3, c4, q', ptr', c5⟩ := this
          refine ⟨by omega, c2, c3, fun j hj hj' => ?_, q', ptr', ?_⟩
          · rcases Nat.eq_or_lt_of_le hj with rfl | hj
            · exact hfk
            · simpa using c4 j hj hj'
          · rw [c5, acts_setScan, show a.pixels.length * a.perPixel - k = a.pixels.length * a.perPixel - (k + 1) + 1 by omega]
            rfl
        | unbacked f =>
          rw [hend] at this
          obtain ⟨j, c1, c2, c3, c4⟩ := this
          exact ⟨j, by omega, by omega, c3, by simpa using c4⟩

/-- The scan starts at bit 0. -/
theorem scanAt_init {a : ScanArgs} (s : State) : ScanAt a 0 (scanInit s) := by
  refine ⟨rfl, Nat.zero_le _, ?_, ?_, .inl ⟨Nat.zero_mod _, .inl rfl⟩⟩
  · exact le_max_left _ _
  · rw [Nat.zero_div, List.drop_zero]; rfl

/-- The whole scan of R131. -/
theorem scan_spec {a : ScanArgs} (hn : a.n < 2 ^ 32) (h1 : 1 ≤ a.cap.toNat) (h8 : a.cap.toNat ≤ 8)
    (hlen : a.len < 2 ^ 32) (s : State) : ScanSpec a a.len 0 (scanInit s) (scan a s) :=
  scanFrom_spec hn h1 h8 _ _ _ (scanAt_init s) (by omega)

end Sys2Proof.Machine
end

