-- ==== Sys2Proof/Laws/Checks.lean ====
section
/-! SUPPORT. The configuration checks, the estimate and the fill guard, each as the proposition the statements use. -/

namespace Sys2Proof.Machine

/-- `1 <= c <= 8` as a proposition (R27). -/
theorem legalCapacity_iff (c : Word) : legalCapacity c = true ↔ CapacityLegal c := by simp [legalCapacity, CapacityLegal]

/-- R100 as a proposition. -/
theorem validRegion_iff (r : Region) : validRegion r = true ↔ RegionLegal r := by simp [validRegion, RegionLegal]

/-- IS_WRITABLE's checks as a proposition (R161). -/
theorem isWritableConfOk_iff (s : State) : isWritableConfOk s.conf = true ↔ s.IsWritableLegal := by
  simp only [isWritableConfOk, Bool.and_eq_true, validRegion_iff, bne_iff_ne, ne_eq]

/-- `8 <= N <= MAX_PIXELS` as a proposition (R26). -/
theorem pixelCountOk_iff (s : State) : pixelCountOk s.params s.conf = true ↔ s.PixelCountLegal := by
  simp only [pixelCountOk, Bool.and_eq_true, decide_eq_true_eq]; rfl

/-- ESTIMATE's checks as a proposition (R161). -/
theorem estimateConfOk_iff (s : State) : estimateConfOk s.params s.conf = true ↔ s.EstimateLegal := by
  simp only [estimateConfOk, Bool.and_eq_true, legalCapacity_iff, validRegion_iff, pixelCountOk_iff, State.EstimateLegal, and_assoc]

/-- ENCODE's checks as a proposition (R161). -/
theorem encodeConfOk_iff (s : State) : encodeConfOk s.params s.conf = true ↔ s.EncodeLegal := by
  simp only [encodeConfOk, Bool.and_eq_true, estimateConfOk_iff, State.EncodeLegal, and_assoc, decide_eq_true_eq, bne_iff_ne, ne_eq]

/-- DECODE's header check as a proposition (R125). -/
theorem validHeader_iff (h : Header) : validHeader h = true ↔ HeaderLegal h := by
  simp only [validHeader, Bool.and_eq_true, legalCapacity_iff, validRegion_iff, HeaderLegal]

/-- The count of R102 is the size of the set of writable pixels. -/
theorem countWritable_eq (f n w : Nat) (r : Region) : countWritable f n w r = (writableSet f n w r).card := by
  unfold countWritable writableSet
  simp only [isWritable_eq]
  rw [List.countP_eq_length_filter, ← List.toFinset_card_of_nodup (List.Nodup.filter _ List.nodup_range')]
  congr 1
  ext i
  simp only [Finset.mem_filter, Finset.mem_Ico, List.mem_toFinset, List.mem_filter, List.mem_range'_1, decide_eq_true_eq]
  refine and_congr_left fun _ => ?_
  omega

/-- The estimate of R102. -/
theorem estimate_eq (s : State) : estimate s.params s.conf = s.estimateOf := by
  simp only [estimate, countWritable_eq, State.estimateOf, bitsPerPixel]; rfl

/-- The fill guard as a proposition, on the estimate (R104). -/
theorem fillOk_iff (s : State) : fillOk s.conf s.conf.payloadBits s.estimateOf = true ↔ s.FillOk := by
  simp only [fillOk, Bool.not_eq_true', decide_eq_false_iff_not]; rfl

/-- The record of R121. -/
theorem encodeHeader_eq (s : State) : encodeHeader s.conf = s.record := by
  unfold encodeHeader State.record
  have : BitVec.ofNat 32 s.conf.payloadBits = 8 * s.conf.payloadBytes := by
    apply BitVec.eq_of_toNat_eq
    simp [Conf.payloadBits, BitVec.toNat_mul]
  rw [this]

/-- A legal pixel count fits a register. -/
theorem pixelCount_lt {s : State} (h : s.PixelCountLegal) : s.conf.width.toNat * s.conf.height.toNat < 2^32 := by
  have := s.params.maxPixels.isLt; have := h.2; simp only [State.N] at this; omega

/-- A legal payload bit length fits a register (R29). -/
theorem encodeArgs_len_lt (s : State) (h : s.EncodeLegal) : (encodeArgs s).len < 2^32 := by
  have := h.2.1; show 8 * s.conf.payloadBytes.toNat < _; omega

/-- A header's bit length fits a register. -/
theorem decodeScanArgs_len_lt (s : State) : s.decodeScanArgs.len < 2^32 := (headerInPixels s.pix).len.isLt

end Sys2Proof.Machine
end

