-- ==== Sys2Proof/Laws/Header.lean ====
section
/-! SUPPORT. The header framer's two loops, each said once: what writeHeader leaves in every bit of pixel memory, and
what bits readHeader collects. -/

namespace Sys2Proof.Machine

/-- The cursor before header bit `i` is placed: -1, or where bit `i - 1` is. -/
def hdrCursor (i : Nat) : BitIndex := if i = 0 then beforeStream else BitVec.ofNat 64 (hdrPos (i - 1))

theorem hdrCursor_zero : hdrCursor 0 = beforeStream := rfl

theorem hdrCursor_succ (i : Nat) : hdrCursor (i + 1) = BitVec.ofNat 64 (hdrPos i) := by simp [hdrCursor]

/-- The header cursor goes from one header bit to the next. -/
theorem nextHeaderBit_hdrCursor (i : Nat) : nextHeaderBit (hdrCursor i) = BitVec.ofNat 64 (hdrPos i) := by
  rw [nextHeaderBit_eq]
  cases i with
  | zero => decide
  | succ i =>
    have h9 : (9 : BitIndex) = BitVec.ofNat 64 9 := rfl
    have h1 : (1 : BitIndex) = BitVec.ofNat 64 1 := rfl
    rw [hdrCursor_succ, h9, h1, ← BitVec.ofNat_add, ← BitVec.ofNat_add, BitVec.toNat_ofNat]
    unfold hdrPos
    split_ifs <;> (refine congrArg (BitVec.ofNat 64) ?_; omega)

theorem pixelOf_hdrPos {i : Nat} (h : i < 192) : pixelOf (BitVec.ofNat 64 (hdrPos i)) = i / 24 := by
  unfold hdrPos
  rw [Nat.add_assoc]
  exact pixelOf_ofNat (by omega) (by omega)

theorem posOf_hdrPos {i : Nat} (h : i < 192) : posOf (BitVec.ofNat 64 (hdrPos i)) = 8 + i % 24 := by
  unfold hdrPos
  rw [Nat.add_assoc]
  exact posOf_ofNat (by omega) (by omega)

theorem wf_writeHeaderFrom (b : BitVec 192) :
    ∀ (n i : Nat) (idx : BitIndex) {m : Memory 32}, m.wf → (writeHeaderFrom b n i idx m).wf
  | 0, _, _, _, h => h
  | n + 1, i, _, _, h => wf_writeHeaderFrom b n (i + 1) _ (wf_pixWriteBit h _ _)

theorem wf_writeHeader (h : Header) {m : Memory 32} (hm : m.wf) : (writeHeader h m).wf :=
  wf_writeHeaderFrom _ _ _ _ hm

/-- Rounds `i .. i+n-1` of writeHeader put header bits `i .. i+n-1` in place and change nothing else. -/
theorem getLsbD_writeHeaderFrom (b : BitVec 192) (x p : Nat) :
    ∀ (n i : Nat) {m : Memory 32}, m.wf → i + n ≤ 192 →
      ((writeHeaderFrom b n i (hdrCursor i) m).read x).getLsbD p =
        if 8 ≤ p ∧ p < 32 ∧ i ≤ 24 * x + (p - 8) ∧ 24 * x + (p - 8) < i + n then b.getLsbD (24 * x + (p - 8))
        else (m.read x).getLsbD p := by
  intro n
  induction n with
  | zero =>
    intro i m _ _
    rw [if_neg (by omega)]
    rfl
  | succ n ih =>
    intro i m hm hi
    simp only [writeHeaderFrom, nextHeaderBit_hdrCursor, ← hdrCursor_succ]
    rw [ih (i + 1) (wf_pixWriteBit hm _ _) (by omega), hdrCursor_succ, getLsbD_read_pixWriteBit hm,
      pixelOf_hdrPos (by omega), posOf_hdrPos (by omega)]
    by_cases h : x = i / 24 ∧ p = 8 + i % 24
    · obtain ⟨rfl, rfl⟩ := h
      have : 24 * (i / 24) + (8 + i % 24 - 8) = i := by omega
      rw [this, if_neg (by omega), if_pos ⟨rfl, rfl⟩, if_pos (by omega)]
    · rw [if_neg h]
      split_ifs <;> first | rfl | (exfalso; omega)

/-- What writeHeader leaves in bit `p` of pixel `x` (R117, R123). -/
theorem getLsbD_read_writeHeader (h : Header) {m : Memory 32} (hm : m.wf) (x p : Nat) :
    ((writeHeader h m).read x).getLsbD p =
      if 8 ≤ p ∧ p < 32 ∧ x < 8 then (serialize h).getLsbD (24 * x + (p - 8)) else (m.read x).getLsbD p := by
  unfold writeHeader headerBits
  rw [← hdrCursor_zero, getLsbD_writeHeaderFrom _ _ _ _ _ hm (by omega)]
  split_ifs <;> first | rfl | (exfalso; omega)

/-- Rounds `i .. i+n-1` of readHeader collect header bits `i .. i+n-1` and keep the bits before. -/
theorem getLsbD_readHeaderFrom (m : Memory 32) (q : Nat) :
    ∀ (n i : Nat) (bits : BitVec 192), i + n ≤ 192 →
      (readHeaderFrom m n i (hdrCursor i) bits).getLsbD q =
        if i ≤ q ∧ q < i + n then (m.read (q / 24)).getLsbD (8 + q % 24) else bits.getLsbD q := by
  intro n
  induction n with
  | zero =>
    intro i bits _
    rw [if_neg (by omega)]
    rfl
  | succ n ih =>
    intro i bits hi
    simp only [readHeaderFrom, nextHeaderBit_hdrCursor, ← hdrCursor_succ]
    rw [ih (i + 1) _ (by omega), getLsbD_setBit, hdrCursor_succ]
    simp only [pixReadBit, pixelOf_hdrPos (show i < 192 by omega), posOf_hdrPos (show i < 192 by omega)]
    by_cases h : q = i
    · subst h
      rw [if_neg (by omega), if_pos (by omega), if_pos (by omega)]
    · rw [if_neg (show ¬(q = i ∧ i < 192) from fun hq => h hq.1)]
      split_ifs <;> first | rfl | (exfalso; omega)

/-- Header bit `q` is bit `8 + q mod 24` of pixel `q div 24` (R117, R124). -/
theorem getLsbD_readHeaderBits (m : Memory 32) (q : Nat) (hq : q < 192) :
    (readHeaderFrom m headerBits 0 beforeStream 0).getLsbD q = (m.read (q / 24)).getLsbD (8 + q % 24) := by
  unfold headerBits
  rw [← hdrCursor_zero, getLsbD_readHeaderFrom _ _ _ _ _ (by omega), if_pos (by omega)]

end Sys2Proof.Machine
end

