-- ==== Sys2Proof/Laws/Record.lean ====
section
/-! SUPPORT. The header record in pixels 0..7. -/

namespace Sys2Proof.Machine

/-- readHeader gives the record of R118. -/
theorem readHeader_eq (m : Memory 32) : readHeader m = headerInPixels m := by
  have key : ∀ k, k < 192 → (readHeaderFrom m headerBits 0 beforeStream 0).getLsbD k = (m.read (k / 24)).getLsbD (8 + k % 24) :=
    getLsbD_readHeaderBits m
  have hf : ∀ f, f < 6 → ∀ j, j < 32 → ((readHeaderFrom m headerBits 0 beforeStream 0).extractLsb' (32 * f) 32).getLsbD j = (m.read ((32*f+j)/24)).getLsbD (8 + (32*f+j)%24) := by
    intro f hf j hj
    rw [BitVec.getLsbD_extractLsb', key _ (by omega)]; simp [hj]
  unfold readHeader deserialize headerInPixels
  congr 1 <;> apply BitVec.eq_of_getLsbD_eq <;> intro j hj
  all_goals
    first
    | (have := hf 0 (by decide) j hj; simp only [Nat.mul_zero] at this; rw [this])
    | (have := hf 1 (by decide) j hj; simp only [Nat.mul_one] at this; rw [this])
    | (have := hf 2 (by decide) j hj; simp only [Nat.reduceMul] at this; rw [this])
    | (have := hf 3 (by decide) j hj; simp only [Nat.reduceMul] at this; rw [this])
    | (have := hf 4 (by decide) j hj; simp only [Nat.reduceMul] at this; rw [this])
    | (have := hf 5 (by decide) j hj; simp only [Nat.reduceMul] at this; rw [this])
  all_goals
    simp only [BitVec.getLsbD_append, laneByte, BitVec.getLsbD_extractLsb']
    interval_cases j <;> simp

/-- Taking a record apart undoes putting it together (R116). -/
theorem deserialize_serialize (h : Header) : deserialize (serialize h) = h := by
  unfold deserialize serialize
  cases h
  simp only [Header.mk.injEq]
  refine ⟨?_, ?_, ?_, ?_, ?_, ?_⟩ <;> apply BitVec.eq_of_getLsbD_eq <;> intro j hj <;>
    simp only [BitVec.getLsbD_extractLsb', BitVec.getLsbD_append, hj, decide_true, Bool.true_and]
  · rw [if_pos (by omega)]; simp
  · rw [if_neg (by omega), if_pos (by omega), Nat.add_sub_cancel_left]
  · rw [if_neg (by omega), if_neg (by omega), if_pos (by omega)]; exact congrArg _ (by omega)
  · rw [if_neg (by omega), if_neg (by omega), if_neg (by omega), if_pos (by omega)]; exact congrArg _ (by omega)
  · rw [if_neg (by omega), if_neg (by omega), if_neg (by omega), if_neg (by omega), if_pos (by omega)]; exact congrArg _ (by omega)
  · rw [if_neg (by omega), if_neg (by omega), if_neg (by omega), if_neg (by omega), if_neg (by omega)]; exact congrArg _ (by omega)

/-- A written header is read back. -/
theorem readHeader_writeHeader (h : Header) {m : Memory 32} (hm : m.wf) : readHeader (writeHeader h m) = h := by
  unfold readHeader
  rw [← deserialize_serialize h]
  congr 1
  · apply BitVec.eq_of_getLsbD_eq
    intro j hj
    rw [getLsbD_readHeaderBits _ _ hj, getLsbD_read_writeHeader _ hm, if_pos (by omega), deserialize_serialize]
    congr 1; omega

/-- Pixels 0..7 hold the record writeHeader put there. -/
theorem headerInPixels_writeHeader {h : Header} {m : Memory 32} (hm : m.wf) : headerInPixels (writeHeader h m) = h := by
  rw [← readHeader_eq, readHeader_writeHeader h hm]

/-- The record depends on pixels 0..7 only. -/
theorem headerInPixels_congr {m m' : Memory 32} (h : ∀ i, i < 8 → m.read i = m'.read i) : headerInPixels m = headerInPixels m' := by
  unfold headerInPixels laneByte
  simp only [h 0 (by omega), h 1 (by omega), h 2 (by omega), h 3 (by omega), h 4 (by omega), h 5 (by omega), h 6 (by omega), h 7 (by omega)]

end Sys2Proof.Machine
end

