-- ==== Sys2Proof/Laws/Exec.lean ====
section
/-! SUPPORT. One lemma per command: all that it does, as an equation. -/

namespace Sys2Proof.Machine

/-- Two next states are the same outcome when they are the same state. -/
theorem next_inj {s t : State} : (Host.Outcome.next s : Result) = .next t ↔ s = t := by
  constructor
  · intro h; injection h
  · rintro rfl; rfl

/-- States after an error are the same when code and results are. -/
theorem endedErr_inj {s : State} {c c' : BitVec 4} {r r' : Results} : s.endedErr c r = s.endedErr c' r' ↔ c = c' ∧ r = r' := by
  constructor
  · intro h
    exact ⟨congrArg (fun x : State => x.status.errCode) h, congrArg State.res h⟩
  · rintro ⟨rfl, rfl⟩; rfl

/-- A completed command did not raise an error. -/
theorem endedOk_ne_endedErr {s s' : State} {c : BitVec 4} {r r' : Results} : s.endedOk r ≠ s'.endedErr c r' := by
  intro h
  have := congrArg (fun x : State => x.status.err) h
  cases this

/-- Normal completion is not an error. -/
theorem complete_ne_endedErr {s s' : State} {c : BitVec 4} {r' : Results} (h : s.status.err = false) : s.complete ≠ s'.endedErr c r' := by
  intro hh
  have := congrArg (fun x : State => x.status.err) hh
  simp [State.complete, Status.completed, State.endedErr, h] at this

/-- Raising an error gives no other code. -/
theorem raise_ne_endedErr {s s' : State} {e : ErrKind} {c : BitVec 4} {r' : Results} (h : e.code ≠ c) : s.raise e ≠ s'.endedErr c r' := by
  intro hh
  exact h (congrArg (fun x : State => x.status.errCode) hh)

/-- All that NEXT_PAY does. -/
theorem execNextPay_eq (s : State) : exec .nextPay s =
   if CapacityLegal s.conf.capacity then .next (s.endedOk { s.res with cursorOut := nextPayloadBit s.conf.cursorIn s.conf.capacity })
   else .next (s.endedErr 1 s.res) := by
  by_cases h : CapacityLegal s.conf.capacity
  · have hl : legalCapacity (s.begin (.start .nextPay)).conf.capacity = true := (legalCapacity_iff _).2 h
    rw [if_pos h]
    exact (if_pos hl).trans rfl
  · have hl : ¬legalCapacity (s.begin (.start .nextPay)).conf.capacity = true := fun hc => h ((legalCapacity_iff _).1 hc)
    rw [if_neg h]; exact (if_neg hl).trans rfl

/-- All that IS_WRITABLE does. -/
theorem execIsWritable_eq (s : State) : exec .isWritable s =
    if s.IsWritableLegal then
      .next (s.endedOk { s.res with
        writable := decide (WritableAt s.conf.pixelIndex.toNat s.conf.width.toNat s.conf.region) })
    else .next (s.endedErr 1 s.res) := by
  by_cases h : s.IsWritableLegal
  · have h' : isWritableConfOk (s.begin (.start .isWritable)).conf = true := (isWritableConfOk_iff s).2 h
    rw [if_pos h, ← isWritable_eq]
    exact (if_pos h').trans rfl
  · have h' : ¬isWritableConfOk (s.begin (.start .isWritable)).conf = true := fun x => h ((isWritableConfOk_iff s).1 x)
    rw [if_neg h]
    exact (if_neg h').trans rfl

/-- All that ESTIMATE does. -/
theorem execEstimate_eq (s : State) : exec .estimate s =
    if s.EstimateLegal then .next (s.endedOk { s.res with estimate := BitVec.ofNat 64 s.estimateOf })
    else .next (s.endedErr 1 s.res) := by
  by_cases h : s.EstimateLegal
  · have h' : estimateConfOk (s.begin (.start .estimate)).params (s.begin (.start .estimate)).conf = true :=
      (estimateConfOk_iff s).2 h
    rw [if_pos h, ← estimate_eq]
    exact (if_pos h').trans rfl
  · have h' : ¬estimateConfOk (s.begin (.start .estimate)).params (s.begin (.start .estimate)).conf = true :=
      fun x => h ((estimateConfOk_iff s).1 x)
    rw [if_neg h]
    exact (if_neg h').trans rfl

/-- All that READ_HEADER does. -/
theorem execReadHeader_eq (s : State) : exec .readHeader s =
    if s.PixelCountLegal then
      if 8 ≤ s.params.pixWords then .next (s.endedOk { s.res with hdr := headerInPixels s.pix })
      else .fault .unbackedPixel
    else .next (s.endedErr 1 s.res) := by
  by_cases h : s.PixelCountLegal
  · have h' : pixelCountOk (s.begin (.start .readHeader)).params (s.begin (.start .readHeader)).conf = true :=
      (pixelCountOk_iff s).2 h
    rw [if_pos h]
    by_cases hb : 8 ≤ s.params.pixWords
    · have h2 : headerBacked (s.begin (.start .readHeader)).params = true := decide_eq_true hb
      rw [if_pos hb, ← readHeader_eq]
      exact (if_pos h').trans ((if_pos h2).trans rfl)
    · have h2 : ¬headerBacked (s.begin (.start .readHeader)).params = true := fun x => hb (of_decide_eq_true x)
      rw [if_neg hb]
      exact (if_pos h').trans (if_neg h2)
  · have h' : ¬pixelCountOk (s.begin (.start .readHeader)).params (s.begin (.start .readHeader)).conf = true :=
      fun x => h ((pixelCountOk_iff s).1 x)
    rw [if_neg h]
    exact (if_neg h').trans rfl

/-- The state ENCODE's scan starts from. -/
def State.encodeStart (s : State) : State :=
  { s with status := s.status.started, fsm := .start .encode, res := { s.res with estimate := BitVec.ofNat 64 s.estimateOf, hdr := s.record }, pix := writeHeader s.record s.pix }

/-- The pixel memory ENCODE's scan starts from holds the header. -/
theorem encodeStart_pix (s : State) : (scanInit (State.encodeStart s)).pix = writeHeader s.record s.pix := by simp only [scanInit, State.setScan_pix, State.encodeStart]

/-- All that ENCODE does before its scan, and how it goes on. -/
theorem execEncode_eq (s : State) : exec .encode s =
   if s.EncodeLegal then
     if s.FillOk then
       if 8 ≤ s.params.pixWords then encodeScanEnd (scan (encodeArgs s) (State.encodeStart s))
       else .fault .unbackedPixel
     else .next (s.endedErr 2 { s.res with estimate := BitVec.ofNat 64 s.estimateOf })
   else .next (s.endedErr 1 s.res) := by
  have he : estimate (s.begin (.start .encode)).params (s.begin (.start .encode)).conf = s.estimateOf := estimate_eq s
  show encodeBody _ = _
  unfold encodeBody
  simp only [he]
  by_cases h : s.EncodeLegal
  · have h' : encodeConfOk (s.begin (.start .encode)).params (s.begin (.start .encode)).conf = true := (encodeConfOk_iff s).2 h
    rw [if_pos h, if_pos h']
    by_cases hf : s.FillOk
    · have hf' : fillOk (s.begin (.start .encode)).conf (s.begin (.start .encode)).conf.payloadBits s.estimateOf = true := (fillOk_iff s).2 hf
      rw [if_pos hf, if_pos hf']
      by_cases hb : 8 ≤ s.params.pixWords
      · have h2 : headerBacked (s.begin (.start .encode)).params = true := decide_eq_true hb
        rw [if_pos hb, if_pos h2]
        have : encodeWriteHeader ((s.begin (.start .encode)).setEstimate (BitVec.ofNat 64 s.estimateOf)) = State.encodeStart s := by
          unfold encodeWriteHeader
          have : encodeHeader ((s.begin (.start .encode)).setEstimate (BitVec.ofNat 64 s.estimateOf)).conf = s.record := encodeHeader_eq s
          rw [this]; rfl
        rw [this]; rfl
      · have h2 : ¬ headerBacked (s.begin (.start .encode)).params = true := fun x => hb (of_decide_eq_true x)
        rw [if_neg hb, if_neg h2]
    · have hf' : ¬ fillOk (s.begin (.start .encode)).conf (s.begin (.start .encode)).conf.payloadBits s.estimateOf = true := fun x => hf ((fillOk_iff s).1 x)
      rw [if_neg hf, if_neg hf']; rfl
  · have h' : ¬ encodeConfOk (s.begin (.start .encode)).params (s.begin (.start .encode)).conf = true := fun x => h ((encodeConfOk_iff s).1 x)
    rw [if_neg h, if_neg h']; rfl

/-- The state DECODE's scan starts from. -/
def State.decodeStart (s : State) : State :=
  { s with status := s.status.started, fsm := .start .decode, res := { s.res with hdr := headerInPixels s.pix, outBytes := 0 }, acc := 0 }

/-- All that DECODE does before its scan, and how it goes on. -/
theorem execDecode_eq (s : State) : exec .decode s =
   if s.PixelCountLegal then
     if 8 ≤ s.params.pixWords then
       if HeaderLegal (headerInPixels s.pix) then
         decodeScanEnd (headerInPixels s.pix).len.toNat (scan s.decodeScanArgs (State.decodeStart s))
       else .next (s.endedErr 5 { s.res with hdr := headerInPixels s.pix })
     else .fault .unbackedPixel
   else .next (s.endedErr 1 s.res) := by
  have he : readHeader (s.begin (.start .decode)).pix = headerInPixels s.pix := readHeader_eq _
  show decodeBody _ = _
  unfold decodeBody
  simp only [he]
  by_cases h : s.PixelCountLegal
  · have h' : pixelCountOk (s.begin (.start .decode)).params (s.begin (.start .decode)).conf = true := (pixelCountOk_iff s).2 h
    rw [if_pos h, if_pos h']
    by_cases hb : 8 ≤ s.params.pixWords
    · have h2 : headerBacked (s.begin (.start .decode)).params = true := decide_eq_true hb
      rw [if_pos hb, if_pos h2]
      by_cases hv : HeaderLegal (headerInPixels s.pix)
      · have hv' : validHeader ((s.begin (.start .decode)).setHdr (headerInPixels s.pix)).res.hdr = true := (validHeader_iff _).2 hv
        rw [if_pos hv, if_pos hv']; rfl
      · have hv' : ¬ validHeader ((s.begin (.start .decode)).setHdr (headerInPixels s.pix)).res.hdr = true := fun x => hv ((validHeader_iff _).1 x)
        rw [if_neg hv, if_neg hv']; rfl
    · have h2 : ¬ headerBacked (s.begin (.start .decode)).params = true := fun x => hb (of_decide_eq_true x)
      rw [if_neg hb, if_neg h2]
  · have h' : ¬ pixelCountOk (s.begin (.start .decode)).params (s.begin (.start .decode)).conf = true := fun x => h ((pixelCountOk_iff s).1 x)
    rw [if_neg h, if_neg h']; rfl

end Sys2Proof.Machine
end

