-- ==== Sys2Proof/Laws/Payload.lean ====
section
/-! SUPPORT. What a scan's actions do to the memories: ENCODE's writes and DECODE's packer, each said once. -/

namespace Sys2Proof.Machine

/-! ## Where the payload bits lie -/

theorem ScanArgs.pixels_sorted (a : ScanArgs) : a.pixels.Pairwise (· < ·) :=
  (List.pairwise_lt_range' 1).filter _

theorem ScanArgs.mem_pixels {a : ScanArgs} {i : Nat} :
    i ∈ a.pixels ↔ 9 ≤ i ∧ i < a.n ∧ WritableAt i a.width a.region := by
  simp only [ScanArgs.pixels, List.mem_filter, List.mem_range'_1, decide_eq_true_eq]
  constructor
  · rintro ⟨⟨h1, h2⟩, h3⟩; exact ⟨h1, by omega, h3⟩
  · rintro ⟨h1, h2, h3⟩; exact ⟨⟨h1, by omega⟩, h3⟩

theorem perPixel_pos (a : ScanArgs) : 0 < a.perPixel := by unfold ScanArgs.perPixel; omega

/-- The pixel of a payload bit the image has room for. -/
theorem ScanArgs.pixel_of_bit {a : ScanArgs} {k : Nat} (hk : k < a.pixels.length * a.perPixel) :
    ∃ h : k / a.perPixel < a.pixels.length, a.bitPos k = 32 * a.pixels[k / a.perPixel] + payOffset a.cap.toNat (k % a.perPixel) := by
  have h : k / a.perPixel < a.pixels.length := by rwa [Nat.div_lt_iff_lt_mul (perPixel_pos a)]
  exact ⟨h, by simp [ScanArgs.bitPos, h]⟩

/-- A payload bit lies at a framed place of a writable pixel in `[9, N)` (R133). -/
theorem ScanArgs.bitPos_mem {a : ScanArgs} (h1 : 1 ≤ a.cap.toNat) (h8 : a.cap.toNat ≤ 8) {k : Nat}
    (hk : k < a.pixels.length * a.perPixel) :
    ∃ i p, a.bitPos k = 32 * i + p ∧ 9 ≤ i ∧ i < a.n ∧ WritableAt i a.width a.region ∧ PayFramed a.cap.toNat p := by
  obtain ⟨h, hpos⟩ := ScanArgs.pixel_of_bit hk
  obtain ⟨h9, hn, hw⟩ := ScanArgs.mem_pixels.1 (List.getElem_mem h)
  exact ⟨_, _, hpos, h9, hn, hw, payFramed_payOffset h1 h8 (Nat.mod_lt _ (perPixel_pos a))⟩

theorem payOffset_lt_payOffset : ∀ n : Fin 9, 1 ≤ n.val → ∀ j k : Fin 32, j < k → k.val < 8 + 3 * n.val →
    payOffset n.val j.val < payOffset n.val k.val := by decide

/-- Payload bits lie in increasing order, so no two share a place. -/
theorem ScanArgs.bitPos_lt {a : ScanArgs} (h1 : 1 ≤ a.cap.toNat) (h8 : a.cap.toNat ≤ 8) {j k : Nat} (hjk : j < k)
    (hk : k < a.pixels.length * a.perPixel) : a.bitPos j < a.bitPos k := by
  have hB := perPixel_pos a
  obtain ⟨hkl, hkp⟩ := ScanArgs.pixel_of_bit hk
  obtain ⟨hjl, hjp⟩ := ScanArgs.pixel_of_bit (hjk.trans hk)
  have hoff : payOffset a.cap.toNat (j % a.perPixel) < 32 := payOffset_lt h1 h8 (Nat.mod_lt j hB)
  have hle : j / a.perPixel ≤ k / a.perPixel := Nat.div_le_div_right hjk.le
  have hmk := Nat.mod_lt k hB
  have hmj := Nat.mod_lt j hB
  rcases Nat.eq_or_lt_of_le hle with heq | hlt
  · have hmod : j % a.perPixel < k % a.perPixel := by
      have := Nat.div_add_mod j a.perPixel
      have := Nat.div_add_mod k a.perPixel
      rw [heq] at *
      omega
    have hB32 : a.perPixel ≤ 32 := by unfold ScanArgs.perPixel; omega
    have := payOffset_lt_payOffset ⟨a.cap.toNat, by omega⟩ h1 ⟨j % a.perPixel, by omega⟩ ⟨k % a.perPixel, by omega⟩ hmod hmk
    simp only [heq] at hjp
    simp only at this
    omega
  · have := List.pairwise_iff_getElem.1 a.pixels_sorted _ _ hjl hkl hlt
    omega

theorem ScanArgs.bitPos_inj {a : ScanArgs} (h1 : 1 ≤ a.cap.toNat) (h8 : a.cap.toNat ≤ 8) {j k : Nat}
    (hj : j < a.pixels.length * a.perPixel) (hk : k < a.pixels.length * a.perPixel) (h : a.bitPos j = a.bitPos k) :
    j = k := by
  rcases lt_trichotomy j k with hlt | rfl | hlt
  · have := ScanArgs.bitPos_lt h1 h8 hlt hk; omega
  · rfl
  · have := ScanArgs.bitPos_lt h1 h8 hlt hj; omega

theorem ScanArgs.bitPos_lt_two_pow {a : ScanArgs} (hn : a.n < 2 ^ 32) (h1 : 1 ≤ a.cap.toNat) (h8 : a.cap.toNat ≤ 8)
    {k : Nat} (hk : k < a.pixels.length * a.perPixel) : a.bitPos k < 2 ^ 64 := by
  obtain ⟨i, p, h, -, hi, -, hp, -⟩ := ScanArgs.bitPos_mem h1 h8 hk
  omega

/-! ## Stream bits -/

theorem pixReadBit_ofNat (m : Memory 32) {b : Nat} (hb : b < 2 ^ 64) : pixReadBit m (BitVec.ofNat 64 b) = streamBit m b := by
  simp only [pixReadBit, streamBit, pixelOf, posOf, BitVec.toNat_ofNat, Nat.mod_eq_of_lt hb]

theorem streamBit_pixWriteBit {m : Memory 32} (h : m.wf) {b : Nat} (hb : b < 2 ^ 64) (v : Bool) (n : Nat) :
    streamBit (pixWriteBit m (BitVec.ofNat 64 b) v) n = if n = b then v else streamBit m n := by
  unfold streamBit
  rw [getLsbD_read_pixWriteBit h]
  simp only [pixelOf, posOf, BitVec.toNat_ofNat, Nat.mod_eq_of_lt hb]
  by_cases hn : n = b
  · subst hn; simp
  · have : ¬(n / 32 = b / 32 ∧ n % 32 = b % 32) := by omega
    rw [if_neg this, if_neg hn]

/-! ## ENCODE's writes -/

/-- ENCODE's actions change pixel memory only: bits `k .. k+n-1` of the payload at their places, and no other bit. -/
theorem acts_write {a : ScanArgs} (hd : a.dir = .write) (hn : a.n < 2 ^ 32) (h1 : 1 ≤ a.cap.toNat) (h8 : a.cap.toNat ≤ 8) :
    ∀ (n k : Nat) (s : State), s.pix.wf → k + n ≤ a.pixels.length * a.perPixel →
      ∃ m : Memory 32, acts a n k s = s.setPix m ∧ m.wf ∧
        (∀ j, k ≤ j → j < k + n → streamBit m (a.bitPos j) = payBit s.params.bitOrder s.pay j) ∧
        (∀ b, (∀ j, k ≤ j → j < k + n → b ≠ a.bitPos j) → streamBit m b = streamBit s.pix b) := by
  intro n
  induction n with
  | zero => intro k s hs _; exact ⟨s.pix, rfl, hs, fun j _ _ => by omega, fun _ _ => rfl⟩
  | succ n ih =>
    intro k s hs hk
    have hb := ScanArgs.bitPos_lt_two_pow hn h1 h8 (show k < _ by omega)
    have hact : actAt a.dir (BitVec.ofNat 64 (a.bitPos k)) k s =
        s.setPix (pixWriteBit s.pix (BitVec.ofNat 64 (a.bitPos k)) (payBit s.params.bitOrder s.pay k)) := by
      rw [hd]; rfl
    obtain ⟨m, hm, hwf, hin, hout⟩ := ih (k + 1) (actAt a.dir (BitVec.ofNat 64 (a.bitPos k)) k s)
      (by rw [hact]; exact wf_pixWriteBit hs _ _) (by omega)
    simp only [hact, State.setPix_pix, State.setPix_params, State.setPix_pay] at hm hin hout
    refine ⟨m, by simp only [acts, hact, hm]; rfl, hwf, fun j hj hj' => ?_, fun b hb' => ?_⟩
    · rcases Nat.eq_or_lt_of_le hj with rfl | hj
      · rw [hout _ fun i hi hi' he => ?_, streamBit_pixWriteBit hs hb, if_pos rfl]
        have := ScanArgs.bitPos_inj h1 h8 (by omega) (by omega) he
        omega
      · exact hin j hj (by omega)
    · rw [hout b fun j hj hj' => hb' j (by omega) (by omega), streamBit_pixWriteBit hs hb,
        if_neg (hb' k le_rfl (by omega))]

/-! ## DECODE's packer -/

/-- The packer after `k` bits, over the payload memory `m` it started from: every completed byte written and counted,
the bits of the next one in the accumulator (R146). -/
structure PackedTo (a : ScanArgs) (m : Memory 8) (k : Nat) (s : State) : Prop where
  wf : s.pay.wf
  count : s.res.outBytes.toNat = k / 8
  acc : ∀ j, j < k % 8 → s.acc.getLsbD (payBitPos s.params.bitOrder j) = streamBit s.pix (a.bitPos (8 * (k / 8) + j))
  bytes : ∀ b j, b < k / 8 → j < 8 →
    (s.pay.read b).getLsbD (payBitPos s.params.bitOrder j) = streamBit s.pix (a.bitPos (8 * b + j))
  rest : ∀ b, k / 8 ≤ b → s.pay.read b = m.read b

/-- One bit through the packer. -/
theorem packedTo_collect {a : ScanArgs} {m : Memory 8} {k : Nat} {s : State} (h : PackedTo a m k s) (hk : k + 1 < 2 ^ 32) :
    PackedTo a m (k + 1) (s.collect (streamBit s.pix (a.bitPos k)) k) := by
  have hacc : ∀ j, j < k % 8 + 1 → (setBit s.acc (payBitPos s.params.bitOrder k) (streamBit s.pix (a.bitPos k))).getLsbD
      (payBitPos s.params.bitOrder j) = streamBit s.pix (a.bitPos (8 * (k / 8) + j)) := by
    intro j hj
    rw [getLsbD_setBit]
    by_cases hjk : j = k % 8
    · subst hjk
      rw [payBitPos_mod, if_pos ⟨rfl, payBitPos_lt _ _⟩, Nat.div_add_mod]
    · rw [if_neg, h.acc j (by omega)]
      rintro ⟨he, -⟩
      have := payBitPos_inj he
      omega
  by_cases h7 : k % 8 = 7
  · have hd : (k + 1) / 8 = k / 8 + 1 := by omega
    have hm : (k + 1) % 8 = 0 := by omega
    have hread : ∀ b v, (s.pay.write (k / 8) v).read b = if b = k / 8 then v else s.pay.read b := fun b v =>
      Memory.read_write h.wf _ _ _
    unfold State.collect
    rw [if_pos h7]
    refine ⟨Memory.wf_write h.wf _ _, ?_, fun j hj => by omega, fun b j hb hj => ?_, fun b hb => ?_⟩
    · have := h.count
      show (s.res.outBytes + 1).toNat = _
      rw [BitVec.toNat_add, this]
      simp; omega
    · simp only [hread]
      split_ifs with hbk
      · subst hbk; exact hacc j (by omega)
      · exact h.bytes b j (by omega) hj
    · simp only [hread]
      rw [if_neg (by omega), h.rest b (by omega)]
  · have hd : (k + 1) / 8 = k / 8 := by omega
    unfold State.collect
    rw [if_neg h7]
    refine ⟨h.wf, by rw [hd]; exact h.count, fun j hj => ?_, fun b j hb hj => ?_, fun b hb => ?_⟩
    · simp only [hd]; exact hacc j (by omega)
    · exact h.bytes b j (by omega) hj
    · exact h.rest b (by omega)

theorem acts_pix_of_read {a : ScanArgs} (hd : a.dir = .read) :
    ∀ (n k : Nat) (s : State), (acts a n k s).pix = s.pix
  | 0, _, _ => rfl
  | n + 1, k, s => by simp only [acts, acts_pix_of_read hd n, hd, actAt, State.collect_pix]

/-- DECODE's actions change payload memory, OUT_BYTES and the accumulator only. -/
theorem acts_read_frame {a : ScanArgs} (hd : a.dir = .read) :
    ∀ (n k : Nat) (s : State), ∃ (m : Memory 8) (acc : Byte) (ob : Word),
      acts a n k s = { s with pay := m, acc := acc, res := { s.res with outBytes := ob } }
  | 0, _, s => ⟨s.pay, s.acc, s.res.outBytes, rfl⟩
  | n + 1, k, s => by
    obtain ⟨m, acc, ob, h⟩ := acts_read_frame hd n (k + 1) (actAt a.dir (BitVec.ofNat 64 (a.bitPos k)) k s)
    refine ⟨m, acc, ob, ?_⟩
    rw [acts, h, hd]
    simp only [actAt, State.collect]
    split <;> rfl

/-- DECODE's actions of bits `k .. k+n-1` take the packer from `k` bits to `k+n`. -/
theorem acts_read {a : ScanArgs} (hd : a.dir = .read) (hn : a.n < 2 ^ 32) (h1 : 1 ≤ a.cap.toNat) (h8 : a.cap.toNat ≤ 8)
    (m : Memory 8) : ∀ (n k : Nat) (s : State), PackedTo a m k s → k + n ≤ a.pixels.length * a.perPixel → k + n < 2 ^ 32 →
      PackedTo a m (k + n) (acts a n k s) := by
  intro n
  induction n with
  | zero => intro k s h _ _; exact h
  | succ n ih =>
    intro k s h hk hk32
    have hb := ScanArgs.bitPos_lt_two_pow hn h1 h8 (show k < _ by omega)
    have hact : actAt a.dir (BitVec.ofNat 64 (a.bitPos k)) k s = s.collect (streamBit s.pix (a.bitPos k)) k := by
      rw [hd]; simp only [actAt, pixReadBit_ofNat _ hb]
    rw [acts, hact, show k + (n + 1) = k + 1 + n by omega]
    exact ih (k + 1) _ (packedTo_collect h (by omega)) (by omega) (by omega)

end Sys2Proof.Machine
end

