-- ==== Sys2Proof/Laws/Codec.lean ====
section
/-! SUPPORT. ENCODE and DECODE: how their scans end, and what they leave in the memories. -/

namespace Sys2Proof.Machine

/-! ## ENCODE -/

/-- How ENCODE's scan ends. -/
theorem encode_scan_spec {s : State} (h : s.EncodeLegal) :
    ScanSpec (encodeArgs s) (encodeArgs s).len 0 (scanInit (State.encodeStart s)) (scan (encodeArgs s) (State.encodeStart s)) :=
  scan_spec (pixelCount_lt h.1.2.2) h.1.1.1 h.1.1.2 (encodeArgs_len_lt s h) _

/-- No bit of ENCODE faults where the platform backs what R189 says. -/
theorem encode_backed {s : State} (h : s.EncodeLegal) (hb : s.EncodeBacked) (j : Nat) (hj : j < (encodeArgs s).len)
    (hr : j < (encodeArgs s).room) : bitFault .write s.params j ((encodeArgs s).bitPos j / 32) = none := by
  rw [ScanArgs.room_eq] at hr
  obtain ⟨i, p, he, h9, hi, hw, hp, -⟩ := ScanArgs.bitPos_mem h.1.1.1 h.1.1.2 hr
  have hb1 := hb.1
  have hb2 := hb.2
  have : (encodeArgs s).n = s.N := rfl
  have hl : (encodeArgs s).len = 8 * s.conf.payloadBytes.toNat := rfl
  unfold bitFault
  simp only
  rw [if_neg (by omega), if_neg (by unfold State.PixelsBacked at hb1; omega)]

/-- ENCODE's actions change pixel memory only. -/
theorem acts_write_frame {a : ScanArgs} (hd : a.dir = .write) :
    ∀ (n k : Nat) (s : State), ∃ m : Memory 32, acts a n k s = s.setPix m
  | 0, _, s => ⟨s.pix, rfl⟩
  | n + 1, k, s => by
    obtain ⟨m, h⟩ := acts_write_frame hd n (k + 1) (actAt a.dir (BitVec.ofNat 64 (a.bitPos k)) k s)
    refine ⟨m, ?_⟩
    rw [acts, h, hd]; rfl

/-- Pixels whose 32 stream bits agree are the same word. -/
theorem read_eq_of_streamBit {m m' : Memory 32} {i : Nat} (h : ∀ p, p < 32 → streamBit m (32 * i + p) = streamBit m' (32 * i + p)) :
    m.read i = m'.read i := by
  apply BitVec.eq_of_getLsbD_eq
  intro j hj
  have := h j hj
  unfold streamBit at this
  rwa [show (32 * i + j) / 32 = i by omega, show (32 * i + j) % 32 = j by omega] at this

/-- The pixel memory an ENCODE that passed its guard leaves: BITS_DONE payload bits at their places over the header. -/
theorem encode_pixels {s t : State} (hwf : s.pix.wf) (h : s.EncodeLegal) (hf : s.FillOk) (he : exec .encode s = .next t) :
    t.pix.wf ∧ t.res.bitsDone.toNat ≤ (encodeArgs s).room ∧
    (∀ k, k < t.res.bitsDone.toNat → streamBit t.pix ((encodeArgs s).bitPos k) = payBit s.params.bitOrder s.pay k) ∧
    (∀ b, (∀ k, k < t.res.bitsDone.toNat → b ≠ (encodeArgs s).bitPos k) → streamBit t.pix b = streamBit (writeHeader s.record s.pix) b) ∧
    (t.status.err = false → t.res.bitsDone.toNat = (encodeArgs s).len) := by
  rw [execEncode_eq, if_pos h, if_pos hf] at he
  have hroom := ScanArgs.room_eq (encodeArgs s)
  have hl : (encodeArgs s).len = 8 * s.conf.payloadBytes.toNat := rfl
  have hl32 := encodeArgs_len_lt s h
  by_cases h8 : 8 ≤ s.params.pixWords
  swap
  · rw [if_neg h8] at he; cases he
  rw [if_pos h8] at he
  have sp := encode_scan_spec h
  have hw : (scanInit (State.encodeStart s)).pix.wf := by
    have e : (scanInit (State.encodeStart s)).pix = writeHeader s.record s.pix := by simp only [scanInit, State.setScan_pix, State.encodeStart]
    rw [e]; exact wf_writeHeader _ hwf
  cases hs : scan (encodeArgs s) (State.encodeStart s) with
  | done s' =>
    rw [hs] at sp he
    obtain ⟨c1, c2, c3, q, ptr, c4, c5, c6⟩ := sp
    obtain ⟨m, hm, m1, m2, m3⟩ := acts_write (a := encodeArgs s) rfl (pixelCount_lt h.1.2.2) h.1.1.1 h.1.1.2 (encodeArgs s).len 0 (scanInit (State.encodeStart s)) hw c1
    simp only [encodeScanEnd, next_inj] at he
    subst he
    subst c4
    rw [hm]
    have hbd : (BitVec.ofNat 32 (0 + (encodeArgs s).len)).toNat = (encodeArgs s).len := by
      rw [BitVec.toNat_ofNat]; omega
    simp only [State.complete, State.setScan, State.setPix, hbd]
    refine ⟨m1, by omega, fun k hk => m2 k (Nat.zero_le _) (by omega), fun b hb => ?_, fun _ => trivial⟩
    rw [← encodeStart_pix]; exact m3 b fun j _ hj => hb j (by omega)
  | exhausted s' =>
    rw [hs] at sp he
    obtain ⟨c1, c2, c3, c4, q, ptr, c5⟩ := sp
    obtain ⟨m, hm, m1, m2, m3⟩ := acts_write (a := encodeArgs s) rfl (pixelCount_lt h.1.2.2) h.1.1.1 h.1.1.2 ((encodeArgs s).pixels.length * (encodeArgs s).perPixel - 0) 0 (scanInit (State.encodeStart s)) hw (by omega)
    simp only [encodeScanEnd, next_inj] at he
    subst he
    subst c5
    rw [hm]
    have hbd : (BitVec.ofNat 32 ((encodeArgs s).pixels.length * (encodeArgs s).perPixel)).toNat = (encodeArgs s).pixels.length * (encodeArgs s).perPixel := by
      rw [BitVec.toNat_ofNat]; omega
    simp only [State.raise, State.setScan, State.setPix, hbd]
    refine ⟨m1, by omega, fun k hk => m2 k (Nat.zero_le _) (by omega), fun b hb => ?_, fun hh => ?_⟩
    · rw [← encodeStart_pix]; exact m3 b fun j _ hj => hb j (by omega)
    · cases hh
  | unbacked f =>
    rw [hs] at he; cases he

/-- What any ENCODE that ends leaves, and how it ends. -/
theorem encode_frame {s t : State} (he : exec .encode s = .next t) :
   t = { s with res := t.res, status := t.status, fsm := .idle, pix := t.pix } ∧ t.status.wdrop = s.status.wdrop ∧ t.status.done = true ∧
   (t.status.err = false ∧ t.status.errCode = 0 ∨ t.status.err = true ∧ 1 ≤ t.status.errCode.toNat ∧ t.status.errCode.toNat ≤ 3) ∧
   t.res.cursorOut = s.res.cursorOut ∧ t.res.writable = s.res.writable ∧ t.res.outBytes = s.res.outBytes ∧
   (t.status.errCode = 3 → s.EncodeLegal ∧ s.FillOk ∧ (encodeArgs s).room < (encodeArgs s).len) ∧
   (t.status.errCode = 1 → ¬ s.EncodeLegal) := by
  rw [execEncode_eq] at he
  by_cases h : s.EncodeLegal
  swap
  · rw [if_neg h, next_inj] at he; subst he
    exact ⟨rfl, rfl, rfl, .inr ⟨rfl, by simp [State.endedErr], by simp [State.endedErr]⟩, rfl, rfl, rfl, fun h => by simp [State.endedErr] at h, fun _ => h⟩
  rw [if_pos h] at he
  by_cases hf : s.FillOk
  swap
  · rw [if_neg hf, next_inj] at he; subst he
    exact ⟨rfl, rfl, rfl, .inr ⟨rfl, by simp [State.endedErr], by simp [State.endedErr]⟩, rfl, rfl, rfl, fun h => by simp [State.endedErr] at h, fun h => by simp [State.endedErr] at h⟩
  rw [if_pos hf] at he
  by_cases h8 : 8 ≤ s.params.pixWords
  swap
  · rw [if_neg h8] at he; cases he
  rw [if_pos h8] at he
  have sp := encode_scan_spec h
  have hl := encodeArgs_len_lt s h
  have hroom := ScanArgs.room_eq (encodeArgs s)
  cases hs : scan (encodeArgs s) (State.encodeStart s) with
  | done s' =>
    rw [hs] at sp he
    obtain ⟨c1, c2, c3, q, ptr, c4, c5, c6⟩ := sp
    obtain ⟨m, hm⟩ := acts_write_frame (a := encodeArgs s) rfl (encodeArgs s).len 0 (scanInit (State.encodeStart s))
    simp only [encodeScanEnd, next_inj] at he
    rw [hm] at c4
    subst he; subst c4
    exact ⟨rfl, rfl, rfl, .inl ⟨rfl, rfl⟩, rfl, rfl, rfl, fun h => by simp [State.complete, Status.completed, State.setScan, State.setPix, scanInit, State.encodeStart, Status.started] at h, fun h => by simp [State.complete, Status.completed, State.setScan, State.setPix, scanInit, State.encodeStart, Status.started] at h⟩
  | exhausted s' =>
    rw [hs] at he sp
    obtain ⟨c1, c2, c3, c5, q, ptr, c4⟩ := sp
    obtain ⟨m, hm⟩ := acts_write_frame (a := encodeArgs s) rfl ((encodeArgs s).pixels.length * (encodeArgs s).perPixel - 0) 0 (scanInit (State.encodeStart s))
    simp only [encodeScanEnd, next_inj] at he
    rw [hm] at c4
    subst he; subst c4
    exact ⟨rfl, rfl, rfl, .inr ⟨rfl, by simp [State.raise, Status.aborted, ErrKind.code], by simp [State.raise, Status.aborted, ErrKind.code]⟩, rfl, rfl, rfl, fun _ => ⟨h, hf, by omega⟩, fun h => by simp [State.raise, Status.aborted, ErrKind.code] at h⟩
  | unbacked f => rw [hs] at he; cases he

/-- The state ENCODE's scan ends in differs from its start in pixel memory and the scan registers only. -/
theorem encode_scan_frame {s : State} (h : s.EncodeLegal) {e : ScanEnd} (hs : scan (encodeArgs s) (State.encodeStart s) = e) {s'} (he : e = .done s' ∨ e = .exhausted s') :
    ∃ m k q p, s' = ((State.encodeStart s).setPix m).setScan k q p := by
  have sp := encode_scan_spec h
  rw [hs] at sp
  rcases he with rfl | rfl
  · obtain ⟨c1, c2, c3, q, ptr, c4, c5, c6⟩ := sp
    obtain ⟨m, hm⟩ := acts_write_frame (a := encodeArgs s) rfl (encodeArgs s).len 0 (scanInit (State.encodeStart s))
    exact ⟨m, _, q, ptr, by rw [c4, hm]; rfl⟩
  · obtain ⟨c1, c2, c3, c5, q, ptr, c4⟩ := sp
    obtain ⟨m, hm⟩ := acts_write_frame (a := encodeArgs s) rfl ((encodeArgs s).pixels.length * (encodeArgs s).perPixel - 0) 0 (scanInit (State.encodeStart s))
    exact ⟨m, _, q, ptr, by rw [c4, hm]; rfl⟩

/-! ## DECODE -/

/-- How DECODE's scan ends. -/
theorem decode_scan_spec {s : State} (h : s.PixelCountLegal) (hh : HeaderLegal (headerInPixels s.pix)) :
    ScanSpec s.decodeScanArgs s.decodeScanArgs.len 0 (scanInit (State.decodeStart s)) (scan s.decodeScanArgs (State.decodeStart s)) :=
  scan_spec (pixelCount_lt h) hh.1.1 hh.1.2 (decodeScanArgs_len_lt s) _

/-- No bit of DECODE faults where the platform backs what R189 says. -/
theorem decode_backed {s : State} (_h : s.PixelCountLegal) (hh : HeaderLegal (headerInPixels s.pix)) (hb : s.DecodeBacked) (j : Nat)
    (hj : j < s.decodeScanArgs.len)
    (hr : j < s.decodeScanArgs.room) : bitFault .read s.params j (s.decodeScanArgs.bitPos j / 32) = none := by
  rw [ScanArgs.room_eq] at hr
  obtain ⟨i, p, he, h9, hi, hw, hp, -⟩ := ScanArgs.bitPos_mem hh.1.1 hh.1.2 hr
  have hb1 := hb.1
  have hb2 := hb.2
  have : s.decodeScanArgs.n = s.N := rfl
  have hl : s.decodeScanArgs.len = (headerInPixels s.pix).len.toNat := rfl
  unfold bitFault
  simp only
  rw [if_neg (by unfold State.PixelsBacked at hb1; omega), if_neg (by omega)]

/-- The packer after the first `n` bits of DECODE's scan. -/
theorem decode_packed {s : State} (hwf : s.pay.wf) (h : s.PixelCountLegal) (hh : HeaderLegal (headerInPixels s.pix)) {n : Nat} (hn : n ≤ s.decodeScanArgs.room) (hn32 : n < 2^32) :
    PackedTo s.decodeScanArgs s.pay n (acts s.decodeScanArgs n 0 (scanInit (State.decodeStart s))) := by
  rw [ScanArgs.room_eq] at hn
  have := acts_read (a := s.decodeScanArgs) rfl (pixelCount_lt h) hh.1.1 hh.1.2 s.pay n 0 (scanInit (State.decodeStart s)) ?_ (by omega) (by omega)
  · rwa [Nat.zero_add] at this
  · refine ⟨hwf, rfl, ?_, ?_, fun b _ => rfl⟩
    · intro j hj; exact absurd hj (by simp)
    · intro b j hb; exact absurd hb (by simp)

/-- DECODE's actions count the completed bytes in OUT_BYTES. -/
theorem acts_read_count {a : ScanArgs} (hd : a.dir = .read) :
    ∀ (n k : Nat) (s : State), s.res.outBytes = BitVec.ofNat 32 (k / 8) →
      (acts a n k s).res.outBytes = BitVec.ofNat 32 ((k + n) / 8)
  | 0, _, s, h => h
  | n + 1, k, s, h => by
    rw [acts, show k + (n + 1) = k + 1 + n by omega]
    apply acts_read_count hd
    rw [hd]
    simp only [actAt, State.collect]
    by_cases h7 : k % 8 = 7
    · rw [if_pos h7]
      show s.res.outBytes + 1 = _
      rw [h, show (k + 1) / 8 = k / 8 + 1 by omega, BitVec.ofNat_add]; rfl
    · rw [if_neg h7, show (k + 1) / 8 = k / 8 by omega]; exact h

/-- A DECODE that scanned moved `n` bits: all of the header's, or all the image has room for. -/
theorem decode_inv {s t : State} (he : exec .decode s = .next t) (h : s.PixelCountLegal) (hh : HeaderLegal (headerInPixels s.pix)) :
    ∃ (n : Nat) (q : Word) (ptr : BitIndex), n ≤ s.decodeScanArgs.room ∧ n ≤ s.decodeScanArgs.len ∧
      t.res = ((acts s.decodeScanArgs n 0 (scanInit (State.decodeStart s))).setScan (BitVec.ofNat 32 n) q ptr).res ∧
      t.pay = (acts s.decodeScanArgs n 0 (scanInit (State.decodeStart s))).pay ∧
      t.acc = (acts s.decodeScanArgs n 0 (scanInit (State.decodeStart s))).acc ∧ t.pix = s.pix ∧
      (n < s.decodeScanArgs.len → t.status.err = true ∧ n = s.decodeScanArgs.room ∧ t.status.errCode = 4) := by
  rw [execDecode_eq, if_pos h] at he
  by_cases h8 : 8 ≤ s.params.pixWords
  swap
  · rw [if_neg h8] at he; cases he
  rw [if_pos h8, if_pos hh] at he
  have sp := decode_scan_spec h hh
  have hroom := ScanArgs.room_eq s.decodeScanArgs
  cases hs : scan s.decodeScanArgs (State.decodeStart s) with
  | done s' =>
    rw [hs] at sp he
    obtain ⟨c1, c2, c3, q, ptr, c4, c5, c6⟩ := sp
    rw [Nat.zero_add] at c4
    simp only [decodeScanEnd, next_inj] at he
    subst he; subst c4
    have hp := acts_pix_of_read (a := s.decodeScanArgs) rfl s.decodeScanArgs.len 0 (scanInit (State.decodeStart s))
    refine ⟨s.decodeScanArgs.len, q, ptr, by omega, le_rfl, ?_⟩
    unfold decodeTailEnd
    split_ifs <;> exact ⟨rfl, rfl, rfl, hp, fun h => absurd h (lt_irrefl _)⟩
  | exhausted s' =>
    rw [hs] at sp he
    obtain ⟨c1, c2, c3, c4, q, ptr, c5⟩ := sp
    rw [Nat.sub_zero, ← hroom] at c5
    simp only [decodeScanEnd, next_inj] at he
    subst he; subst c5
    have hp := acts_pix_of_read (a := s.decodeScanArgs) rfl s.decodeScanArgs.room 0 (scanInit (State.decodeStart s))
    exact ⟨s.decodeScanArgs.room, q, ptr, le_rfl, by omega, rfl, rfl, rfl, hp, fun h => ⟨rfl, rfl, rfl⟩⟩
  | unbacked f =>
    rw [hs] at he; cases he

/-- What any DECODE that ends leaves, and how it ends. -/
theorem decode_frame {s t : State} (he : exec .decode s = .next t) : 
   t = { s with res := t.res, status := t.status, fsm := .idle, acc := t.acc, pay := t.pay } ∧ t.status.wdrop = s.status.wdrop ∧ t.status.done = true ∧
   (t.status.err = false ∧ t.status.errCode = 0 ∨ t.status.err = true ∧ 1 ≤ t.status.errCode.toNat ∧ t.status.errCode.toNat ≤ 6) ∧
   t.res.cursorOut = s.res.cursorOut ∧ t.res.writable = s.res.writable ∧ t.res.estimate = s.res.estimate := by
  by_cases h : s.PixelCountLegal ∧ HeaderLegal (headerInPixels s.pix)
  swap
  · rw [execDecode_eq] at he
    split_ifs at he with a b c
    · exact absurd ⟨a, c⟩ h
    · rw [next_inj] at he; subst he; exact ⟨rfl, rfl, rfl, .inr ⟨rfl, by simp [State.endedErr], by simp [State.endedErr]⟩, rfl, rfl, rfl⟩
    · rw [next_inj] at he; subst he; exact ⟨rfl, rfl, rfl, .inr ⟨rfl, by simp [State.endedErr], by simp [State.endedErr]⟩, rfl, rfl, rfl⟩
  obtain ⟨h, hh⟩ := h
  rw [execDecode_eq, if_pos h] at he
  by_cases h8 : 8 ≤ s.params.pixWords
  swap
  · rw [if_neg h8] at he; cases he
  rw [if_pos h8, if_pos hh] at he
  have sp := decode_scan_spec h hh
  cases hs : scan s.decodeScanArgs (State.decodeStart s) with
  | done s' =>
    rw [hs] at sp he
    obtain ⟨c1, c2, c3, q, ptr, c4, c5, c6⟩ := sp
    rw [Nat.zero_add] at c4
    obtain ⟨m, acc, ob, hm⟩ := acts_read_frame (a := s.decodeScanArgs) rfl s.decodeScanArgs.len 0 (scanInit (State.decodeStart s))
    rw [hm] at c4
    simp only [decodeScanEnd, next_inj] at he
    subst he; subst c4
    unfold decodeTailEnd
    split_ifs
    · exact ⟨rfl, rfl, rfl, .inl ⟨rfl, rfl⟩, rfl, rfl, rfl⟩
    · exact ⟨rfl, rfl, rfl, .inr ⟨rfl, by simp [State.raise, Status.aborted, ErrKind.code], by simp [State.raise, Status.aborted, ErrKind.code]⟩, rfl, rfl, rfl⟩
  | exhausted s' =>
    rw [hs] at sp he
    obtain ⟨c1, c2, c3, c4, q, ptr, c5⟩ := sp
    obtain ⟨m, acc, ob, hm⟩ := acts_read_frame (a := s.decodeScanArgs) rfl (s.decodeScanArgs.pixels.length * s.decodeScanArgs.perPixel - 0) 0 (scanInit (State.decodeStart s))
    rw [hm] at c5
    simp only [decodeScanEnd, next_inj] at he
    subst he; subst c5
    exact ⟨rfl, rfl, rfl, .inr ⟨rfl, by simp [State.raise, Status.aborted, ErrKind.code], by simp [State.raise, Status.aborted, ErrKind.code]⟩, rfl, rfl, rfl⟩
  | unbacked f =>
    rw [hs] at he; cases he

/-- The state DECODE's scan ends in differs from its start in the packer, payload memory and the scan registers only. -/
theorem decode_scan_frame {s : State} (h : s.PixelCountLegal) (hh : HeaderLegal (headerInPixels s.pix)) {e : ScanEnd} (hs : scan s.decodeScanArgs (State.decodeStart s) = e) {s'} (he : e = .done s' ∨ e = .exhausted s') :
    ∃ m acc ob k q p, s' = ({ (State.decodeStart s) with pay := m, acc := acc, res := { (State.decodeStart s).res with outBytes := ob } } : State).setScan k q p := by
  have sp := decode_scan_spec h hh
  rw [hs] at sp
  rcases he with rfl | rfl
  · obtain ⟨c1, c2, c3, q, ptr, c4, c5, c6⟩ := sp
    obtain ⟨m, acc, ob, hm⟩ := acts_read_frame (a := s.decodeScanArgs) rfl (0 + s.decodeScanArgs.len) 0 (scanInit (State.decodeStart s))
    rw [Nat.zero_add] at hm
    exact ⟨m, acc, ob, _, q, ptr, by rw [c4, hm]; rfl⟩
  · obtain ⟨c1, c2, c3, c5, q, ptr, c4⟩ := sp
    obtain ⟨m, acc, ob, hm⟩ := acts_read_frame (a := s.decodeScanArgs) rfl (s.decodeScanArgs.pixels.length * s.decodeScanArgs.perPixel - 0) 0 (scanInit (State.decodeStart s))
    exact ⟨m, acc, ob, _, q, ptr, by rw [c4, hm]; rfl⟩

/-! ## Scans from related states -/

/-- Two states agree on what moves a scan. -/
structure ScanSame (s s' : State) : Prop where
  par : s'.params = s.params
  bits : s'.res.bitsDone = s.res.bitsDone
  pixel : s'.res.scanPixel = s.res.scanPixel
  ptr : s'.res.bitPtr = s.res.bitPtr

/-- A relation that a scan's moves keep, and that implies they go the same way. -/
structure ScanClosed (R : State → State → Prop) (d : Direction) : Prop where
  same : ∀ s s', R s s' → ScanSame s s'
  setScan : ∀ s s' x y z, R s s' → R (s.setScan x y z) (s'.setScan x y z)
  act : ∀ s s' ptr k, R s s' → R (actAt d ptr k s) (actAt d ptr k s')

/-- Skipping keeps such a relation. -/
theorem skipPixels_closed {R : State → State → Prop} {d} (hR : ScanClosed R d) (a : ScanArgs) : ∀ (n : Nat) (s s' : State), R s s' →
    R (skipPixels a n s) (skipPixels a n s')
  | 0, s, s', h => h
  | n + 1, s, s', h => by
    have e := hR.same _ _ h
    have : atSkippedPixel a s' = atSkippedPixel a s := by unfold atSkippedPixel; rw [e.pixel]
    simp only [skipPixels, this]
    split_ifs
    · apply skipPixels_closed hR a n
      unfold skipPixel; rw [e.bits, e.pixel]; exact hR.setScan _ _ _ _ _ h
    · exact h

/-- Two scans end alike, in related states. -/
inductive ScanEndRel (R : State → State → Prop) : ScanEnd → ScanEnd → Prop
  | done {s s'} : R s s' → ScanEndRel R (.done s) (.done s')
  | exhausted {s s'} : R s s' → ScanEndRel R (.exhausted s) (.exhausted s')
  | unbacked (f) : ScanEndRel R (.unbacked f) (.unbacked f)

/-- Scans from related states end alike. -/
theorem scanFrom_closed {R : State → State → Prop} {a : ScanArgs} (hR : ScanClosed R a.dir) : ∀ (n : Nat) (s s' : State), R s s' →
    ScanEndRel R (scanFrom a n s) (scanFrom a n s')
  | 0, s, s', h => .done h
  | n + 1, s, s', h => by
    have e := hR.same _ _ h
    have h1 : R (toNextBit a s) (toNextBit a s') := by
      unfold toNextBit; rw [e.pixel]; exact skipPixels_closed hR a _ _ _ h
    simp only [scanFrom]
    generalize toNextBit a s = u at *
    generalize toNextBit a s' = u' at *
    have e1 := hR.same _ _ h1
    rw [e1.pixel]
    split_ifs
    · exact .exhausted h1
    · have : scanFault a.dir u' = scanFault a.dir u := by
        rw [scanFault_eq, scanFault_eq, e1.par, e1.bits, e1.pixel]
      rw [this]
      cases hf : scanFault a.dir u with
      | some f => exact .unbacked f
      | none =>
        apply scanFrom_closed hR n
        have hp : activePtr u' = activePtr u := by unfold activePtr; rw [e1.ptr, e1.pixel]
        unfold scanBit
        simp only [hp, scanAct_eq, e1.bits]
        exact hR.setScan _ _ _ _ _ (hR.act _ _ _ _ h1)

/-- Two states agree on what DECODE's scan reads. -/
structure SameRead (s s' : State) : Prop extends ScanSame s s' where
  pix : s'.pix = s.pix
  acc : s'.acc = s.acc
  out : s'.res.outBytes = s.res.outBytes

/-- DECODE's scan keeps that. -/
theorem closed_sameRead : ScanClosed SameRead .read where
  same _ _ h := h.toScanSame
  setScan s s' x y z h := ⟨⟨h.par, rfl, rfl, rfl⟩, h.pix, h.acc, h.out⟩
  act s s' ptr k h := by
    have h1 := h.par; have h2 := h.pix; have h3 := h.acc; have h4 := h.out
    have h5 := h.bits; have h6 := h.pixel; have h7 := h.ptr
    simp only [actAt, State.collect, h1, h2, h3]
    split_ifs
    · exact ⟨⟨rfl, h5, h6, h7⟩, rfl, rfl, by simp only [h4]⟩
    · exact ⟨⟨rfl, h5, h6, h7⟩, rfl, rfl, h4⟩

/-- Two states agree on what ENCODE's scan reads and writes. -/
structure SameWrite (s s' : State) : Prop extends ScanSame s s' where
  pix : s'.pix = s.pix
  pay : s'.pay = s.pay

/-- ENCODE's scan keeps that. -/
theorem closed_sameWrite : ScanClosed SameWrite .write where
  same _ _ h := h.toScanSame
  setScan s s' x y z h := ⟨⟨h.par, rfl, rfl, rfl⟩, h.pix, h.pay⟩
  act s s' ptr k h := by
    refine ⟨⟨h.par, h.bits, h.pixel, h.ptr⟩, ?_, h.pay⟩
    show pixWriteBit _ _ _ = pixWriteBit _ _ _
    rw [h.par, h.pix, h.pay]

/-- Two states agree on what DECODE's scan reads and writes. -/
structure SameDec (s s' : State) : Prop extends ScanSame s s' where
  pix : s'.pix = s.pix
  pay : s'.pay = s.pay
  acc : s'.acc = s.acc
  out : s'.res.outBytes = s.res.outBytes

/-- DECODE's scan keeps that. -/
theorem closed_sameDec : ScanClosed SameDec .read where
  same _ _ h := h.toScanSame
  setScan s s' x y z h := ⟨⟨h.par, rfl, rfl, rfl⟩, h.pix, h.pay, h.acc, h.out⟩
  act s s' ptr k h := by
    have h1 := h.par; have h2 := h.pix; have h3 := h.acc; have h4 := h.out
    have h5 := h.bits; have h6 := h.pixel; have h7 := h.ptr; have h8 := h.pay
    simp only [actAt, State.collect, h1, h2, h3, h8]
    split_ifs
    · exact ⟨⟨rfl, h5, h6, h7⟩, rfl, rfl, rfl, by simp only [h4]⟩
    · exact ⟨⟨rfl, h5, h6, h7⟩, rfl, rfl, rfl, h4⟩

/-- A scan does not look at the FSM's phase. -/
theorem closed_fsm (d : Direction) (f : Fsm) : ScanClosed (fun s s' => s' = s.setFsm f) d where
  same s s' h := by subst h; exact ⟨rfl, rfl, rfl, rfl⟩
  setScan s s' x y z h := by subst h; rfl
  act s s' ptr k h := by
    subst h
    cases d
    · rfl
    · simp only [actAt, State.collect, State.setFsm]; split_ifs <;> rfl

/-- ENCODE's end does not depend on the phase its scan ran in. -/
theorem encodeScanEnd_setFsm (a : ScanArgs) (s : State) (f : Fsm) : encodeScanEnd (scan a (s.setFsm f)) = encodeScanEnd (scan a s) := by
  have := scanFrom_closed (closed_fsm a.dir f) (a := a) a.len (scanInit s) (scanInit (s.setFsm f)) rfl
  unfold scan
  generalize scanFrom a a.len (scanInit s) = x at *
  generalize scanFrom a a.len (scanInit (s.setFsm f)) = y at *
  cases this with
  | done h => subst h; rfl
  | exhausted h => subst h; rfl
  | unbacked f => rfl

/-- States with the same fields are the same. -/
theorem State.ext_fields {s t : State} (h1 : t.params = s.params) (h2 : t.everReset = s.everReset) (h3 : t.conf = s.conf) (h4 : t.res = s.res)
    (h5 : t.status = s.status) (h6 : t.fsm = s.fsm) (h7 : t.acc = s.acc) (h8 : t.pix = s.pix) (h9 : t.pay = s.pay) (h10 : t.program = s.program)
    (h11 : t.turns = s.turns) (h12 : t.readData = s.readData) (h13 : t.draws = s.draws) : t = s := by
  cases s; cases t; simp_all

/-- Results with the same fields are the same. -/
theorem Results.ext_fields {s t : Results} (h1 : t.cursorOut = s.cursorOut) (h2 : t.writable = s.writable) (h3 : t.estimate = s.estimate) (h4 : t.bitsDone = s.bitsDone)
    (h5 : t.scanPixel = s.scanPixel) (h6 : t.bitPtr = s.bitPtr) (h7 : t.outBytes = s.outBytes) (h8 : t.hdr = s.hdr) : t = s := by
  cases s; cases t; simp_all

end Sys2Proof.Machine
end

