-- ==== Sys2Proof/Laws/Decode.lean ====
section
/-! SUPPORT. The decoder, on numbers. -/

namespace Sys2Proof.Machine

/-- The decoder over the word as a number: RSVD is `w / 16`, OPCODE is `w % 16` (R70, R74). -/
theorem decode_eq (w : Word) : decode w = if w.toNat / 16 ≠ 0 then .error .reservedBits else
   match w.toNat % 16 with
    | 1 => .ok .nextHdr
    | 2 => .ok .nextPay
    | 3 => .ok .isWritable
    | 4 => .ok .estimate
    | 5 => .ok .encode
    | 6 => .ok .decode
    | 7 => .ok .readHeader
    | _ => .error .reservedOpcode := by
  have h1 : w.extractLsb' 4 28 = 0 ↔ w.toNat / 16 = 0 := by
    rw [← BitVec.toNat_inj]; simp [BitVec.extractLsb'_toNat, Nat.shiftRight_eq_div_pow]
    have := w.isLt; omega
  have h2 : (w.extractLsb' 0 4).toNat = w.toNat % 16 := by simp [BitVec.extractLsb'_toNat]
  unfold decode
  rw [h2]
  by_cases h : w.toNat / 16 = 0
  · rw [if_neg (by simpa using h1.2 h), if_neg (by simpa using h)] <;> rfl
  · rw [if_pos (fun hc => h (h1.1 hc)), if_pos h]

end Sys2Proof.Machine
end

