-- ==== Sys2Proof/Laws/Fsm.lean ====
section
/-! SUPPORT. The core FSM: runs of steps, and each phase's loop said once. -/

namespace Sys2Proof.Machine

/-- `e` more FSM steps after an outcome. -/
def Result.thenRun (e : Nat) : Result → Result
  | .next s => coreRun e s
  | .fault f => .fault f
  | .refused r => .refused r

/-- A run is its first step, then the rest. -/
theorem coreRun_succ (n : Nat) (s : State) : coreRun (n + 1) s = Result.thenRun n (coreStep s) := by
  simp only [coreRun]; cases coreStep s <;> rfl

/-- A run of `m + n` steps. -/
theorem coreRun_add (m n : Nat) (s : State) : coreRun (m + n) s = Result.thenRun n (coreRun m s) := by
  induction m generalizing s with
  | zero => rw [Nat.zero_add]; rfl
  | succ m ih =>
    rw [show m + 1 + n = (m + n) + 1 by omega, coreRun_succ, coreRun_succ]
    cases coreStep s with
    | next s1 => exact ih s1
    | fault f => rfl
    | refused r => rfl

/-- An idle block stays as it is (R174). -/
theorem coreRun_idle (n : Nat) {s : State} (h : s.fsm = .idle) : coreRun n s = .next s := by
  induction n with
  | zero => rfl
  | succ n ih => rw [coreRun_succ]; unfold coreStep; rw [h]; exact ih

/-- A run after a command ended. -/
theorem thenRun_next_idle {n : Nat} {s : State} (h : s.fsm = .idle) : Result.thenRun n (.next s) = .next s := coreRun_idle n h

/-- Skipping, one pixel at a time. -/
theorem toNextBit_eq {a : ScanArgs} (hn : a.n < 2^32) (s : State) :
    toNextBit a s = if atSkippedPixel a s then toNextBit a (skipPixel s) else s := by
  split_ifs with h
  · have hlt : s.res.scanPixel.toNat < a.n := by
      unfold atSkippedPixel at h; rw [Bool.and_eq_true] at h; exact of_decide_eq_true h.1
    have hp : (skipPixel s).res.scanPixel.toNat = s.res.scanPixel.toNat + 1 := by
      show (s.res.scanPixel + 1).toNat = _
      rw [BitVec.toNat_add]; simp; omega
    obtain ⟨d, hd⟩ : ∃ d, a.n - s.res.scanPixel.toNat = d + 1 := ⟨a.n - s.res.scanPixel.toNat - 1, by omega⟩
    unfold toNextBit
    rw [hd, hp, show a.n - (s.res.scanPixel.toNat + 1) = d by omega]
    simp only [skipPixels, h, if_true]
  · unfold toNextBit
    exact skipPixels_of_not (by simpa using h) _

/-- In the phase `P`, an FSM step is one iteration of the scan `a`, and an iteration stays in the phase. -/
structure ScanPhase (a : ScanArgs) (onEnd : ScanEnd → Result) (P : State → Prop) : Prop where
  step : ∀ s, P s → coreStep s = scanStep a onEnd s
  skip : ∀ s, P s → P (skipPixel s)
  bit : ∀ s, P s → P (scanBit a s)

/-- The FSM's iterations of a scan reach the scan's end, in at most one step per bit and per pixel. -/
theorem coreRun_scan {a : ScanArgs} {onEnd P} (hP : ScanPhase a onEnd P) (hn : a.n < 2^32) (h1 : 1 ≤ a.cap.toNat) (h8 : a.cap.toNat ≤ 8) (hl : a.len < 2^32) :
    ∀ (M left k : Nat) (s : State), P s → ScanAt a k s → k + left = a.len → left + (a.n - s.res.scanPixel.toNat) = M →
      ∃ j, j ≤ M ∧ ∀ e, coreRun (j + 1 + e) s = Result.thenRun e (onEnd (scanFrom a left s)) := by
  intro M
  induction M using Nat.strong_induction_on with
  | _ M ih =>
  intro left k s hp hat hk hM
  have hstep := hP.step s hp
  cases left with
  | zero =>
    refine ⟨0, Nat.zero_le _, fun e => ?_⟩
    rw [show 0 + 1 + e = e + 1 by omega, coreRun_succ, hstep]
    unfold scanStep
    rw [if_neg (by rw [hat.bits]; omega)]; rfl
  | succ left =>
    have hlt : s.res.bitsDone.toNat < a.len := by rw [hat.bits]; omega
    by_cases hpn : a.n ≤ s.res.scanPixel.toNat
    · refine ⟨0, Nat.zero_le _, fun e => ?_⟩
      rw [show 0 + 1 + e = e + 1 by omega, coreRun_succ, hstep]
      unfold scanStep
      rw [if_pos hlt, if_pos hpn]
      have hsk : atSkippedPixel a s = false := by unfold atSkippedPixel; rw [decide_eq_false (by omega)]; rfl
      have : toNextBit a s = s := by rw [toNextBit_eq hn, hsk]; rfl
      simp only [scanFrom, this, if_pos hpn]
    · by_cases hw : isWritable s.res.scanPixel.toNat a.width a.region
      · have hsk : atSkippedPixel a s = false := by unfold atSkippedPixel; rw [hw]; simp
        have ht : toNextBit a s = s := by rw [toNextBit_eq hn, hsk]; rfl
        have hstep' : coreStep s = match scanFault a.dir s with | some f => onEnd (.unbacked f) | none => .next (scanBit a s) := by
          rw [hstep]; unfold scanStep; rw [if_pos hlt, if_neg hpn, if_pos hw] <;> cases scanFault a.dir s <;> rfl
        have hscan : scanFrom a (left + 1) s = match scanFault a.dir s with | some f => .unbacked f | none => scanFrom a left (scanBit a s) := by
          simp only [scanFrom, ht, if_neg hpn] <;> cases scanFault a.dir s <;> rfl
        cases hf : scanFault a.dir s with
        | some f =>
          refine ⟨0, Nat.zero_le _, fun e => ?_⟩
          rw [show 0 + 1 + e = e + 1 by omega, coreRun_succ, hstep', hscan, hf]
        | none =>
          rw [hf] at hstep' hscan
          simp only at hstep' hscan
          obtain ⟨q, ptr, hq, hge, hltq⟩ := toNextBit_spec hn h1 h8 hat
          rw [ht] at hq
          have hqe : q = s.res.scanPixel := (congrArg (fun x : State => x.res.scanPixel) hq).symm
          have hpe : ptr = s.res.bitPtr := (congrArg (fun x : State => x.res.bitPtr) hq).symm
          subst hqe hpe
          obtain ⟨hroom, hwr, hcons, hpos, hptr⟩ := hltq (by omega)
          obtain ⟨hbit, hat'⟩ := scanBit_spec hn h1 h8 (by omega) hat.bits (by omega) hroom hwr hcons hpos hptr
          rw [← hbit] at hat'
          have hid : s.setScan s.res.bitsDone s.res.scanPixel s.res.bitPtr = s := rfl
          rw [hid] at hbit hat'
          have hmono : s.res.scanPixel.toNat ≤ (scanBit a s).res.scanPixel.toNat := by
            rw [hbit]
            simp only [State.setScan_res]
            rw [hpos]
            have hmod := Nat.mod_lt k (perPixel_pos a)
            rw [nextPayloadBit_framed h1 h8 _ hmod]
            have hq2 := s.res.scanPixel.isLt
            split_ifs with hc
            · have := payOffset_lt h1 h8 hc
              rw [BitVec.toNat_ofNat, BitVec.toNat_ofNat]; omega
            · rw [BitVec.toNat_ofNat, BitVec.toNat_ofNat]; omega
          obtain ⟨j, hj, hrun⟩ := ih _ (by omega) left (k + 1) (scanBit a s) (hP.bit s hp) hat' (by omega) rfl
          refine ⟨j + 1, by omega, fun e => ?_⟩
          rw [show j + 1 + 1 + e = (j + 1 + e) + 1 by omega, coreRun_succ, hstep', hscan]
          exact hrun e
      · have hsk : atSkippedPixel a s = true := by unfold atSkippedPixel; rw [decide_eq_true (by omega)]; simp [hw]
        have ht : toNextBit a s = toNextBit a (skipPixel s) := by rw [toNextBit_eq hn, hsk]; rfl
        have hstep' : coreStep s = .next (skipPixel s) := by
          rw [hstep]; unfold scanStep; rw [if_pos hlt, if_neg hpn, if_neg hw]
        have hscan : scanFrom a (left + 1) s = scanFrom a (left + 1) (skipPixel s) := by
          simp only [scanFrom, ht]
        have hpx : (skipPixel s).res.scanPixel.toNat = s.res.scanPixel.toNat + 1 := by
          show (s.res.scanPixel + 1).toNat = _
          rw [BitVec.toNat_add]; simp; omega
        have hat' : ScanAt a k (skipPixel s) := by
          have hnw : ¬ WritableAt s.res.scanPixel.toNat a.width a.region := by
            rw [isWritable_eq] at hw; simpa using hw
          refine ⟨hat.bits, hat.leRoom, ?_, ?_, ?_⟩
          · rw [hpx]; omega
          · rw [hpx, hat.pixels, ScanArgs.rest_of_lt (by omega), if_neg hnw]
          · rcases hat.ptr with h | h
            · exact .inl ⟨h.1, .inl rfl⟩
            · exact absurd h.2.2.1 hnw
        obtain ⟨j, hj, hrun⟩ := ih _ (by rw [hpx]; omega) (left + 1) k (skipPixel s) (hP.skip s hp) hat' (by omega) rfl
        rw [hpx] at hj
        refine ⟨j + 1, by omega, fun e => ?_⟩
        rw [show j + 1 + 1 + e = (j + 1 + e) + 1 by omega, coreRun_succ, hstep', hscan]
        exact hrun e

/-- ENCODE's phase SCAN. -/
theorem encode_scanPhase (c : Conf) : ScanPhase { n := c.pixelCount, width := c.width.toNat, cap := c.capacity, region := c.region, len := c.payloadBits, dir := .write } encodeScanEnd
   (fun s => s.fsm = .encodeScan ∧ s.conf = c) where
  step s h := by unfold coreStep; rw [h.1]; simp only [encodeArgs, h.2]
  skip s h := h
  bit s h := h

/-- DECODE's phase SCAN. -/
theorem decode_scanPhase (c : Conf) (hd : Header) : ScanPhase { n := c.pixelCount, width := c.width.toNat, cap := hd.cap, region := hd.region, len := hd.len.toNat, dir := .read } decodeScanStepEnd
   (fun s => s.fsm = .decodeScan ∧ s.conf = c ∧ s.res.hdr = hd) where
  step s h := by unfold coreStep; rw [h.1]; simp only [decodeArgs, h.2.1, h.2.2]
  skip s h := h
  bit s h := by
    unfold scanBit scanAct State.collect
    simp only
    split_ifs <;> exact h

/-- ENCODE's phase HDR (R123). -/
theorem coreRun_encodeHdr (hd : Header) : ∀ (n i : Nat) (idx : BitIndex) (s : State), s.fsm = .encodeHdr i idx → s.res.hdr = hd → i + (n + 1) = 192 →
    coreRun (n + 1) s = .next ((scanInit (s.setPix (writeHeaderFrom (serialize hd) (n + 1) i idx s.pix))).setFsm .encodeScan)
  | 0, i, idx, s, hf, hh, hi => by
    rw [coreRun_succ]; unfold coreStep; rw [hf]
    simp only [encodeHdrStep, hh]
    rw [if_neg (show ¬ i + 1 < headerBits by unfold headerBits; omega)]; rfl
  | n + 1, i, idx, s, hf, hh, hi => by
    rw [coreRun_succ]; unfold coreStep; rw [hf]
    simp only [encodeHdrStep, hh]
    rw [if_pos (show i + 1 < headerBits by unfold headerBits; omega)]
    simp only [Result.thenRun]
    exact coreRun_encodeHdr hd n (i + 1) (nextHeaderBit idx) ((s.setPix (pixWriteBit s.pix (nextHeaderBit idx) ((serialize hd).getLsbD i))).setFsm (.encodeHdr (i + 1) (nextHeaderBit idx))) rfl hh (by omega)

/-- DECODE's phase HDR (R124). -/
theorem coreRun_decodeHdr : ∀ (n i : Nat) (idx : BitIndex) (bits : BitVec 192) (s : State), i + (n + 1) = 192 →
    coreRun (n + 1) (s.setFsm (.decodeHdr i idx bits)) = .next ((s.setHdr (deserialize (readHeaderFrom s.pix (n + 1) i idx bits))).setFsm .decodeValidate)
  | 0, i, idx, bits, s, hi => by
    rw [coreRun_succ]; unfold coreStep
    simp only [State.setFsm_fsm, decodeHdrStep, State.setFsm_pix]
    rw [if_neg (show ¬ i + 1 < headerBits by unfold headerBits; omega)]; rfl
  | n + 1, i, idx, bits, s, hi => by
    rw [coreRun_succ]; unfold coreStep
    simp only [State.setFsm_fsm, decodeHdrStep, State.setFsm_pix]
    rw [if_pos (show i + 1 < headerBits by unfold headerBits; omega)]
    simp only [Result.thenRun]
    have := coreRun_decodeHdr n (i + 1) (nextHeaderBit idx) (setBit bits i (pixReadBit s.pix (nextHeaderBit idx))) s (by omega)
    exact this

/-- READ_HEADER's loop (R124). -/
theorem coreRun_readHdr : ∀ (n i : Nat) (idx : BitIndex) (bits : BitVec 192) (s : State), i + (n + 1) = 192 →
    coreRun (n + 1) (s.setFsm (.readHdr i idx bits)) = .next (s.setHdr (deserialize (readHeaderFrom s.pix (n + 1) i idx bits))).complete
  | 0, i, idx, bits, s, hi => by
    rw [coreRun_succ]; unfold coreStep
    simp only [State.setFsm_fsm, readHdrStep, State.setFsm_pix]
    rw [if_neg (show ¬ i + 1 < headerBits by unfold headerBits; omega)]; rfl
  | n + 1, i, idx, bits, s, hi => by
    rw [coreRun_succ]; unfold coreStep
    simp only [State.setFsm_fsm, readHdrStep, State.setFsm_pix]
    rw [if_pos (show i + 1 < headerBits by unfold headerBits; omega)]
    simp only [Result.thenRun]
    exact coreRun_readHdr n (i + 1) (nextHeaderBit idx) (setBit bits i (pixReadBit s.pix (nextHeaderBit idx))) s (by omega)

/-- The count, one pixel at a time. -/
theorem countWritable_step (i n w : Nat) (r : Region) (c : Nat) (h : i + 1 < n) :
    c + countWritable i n w r = (if decide (i < n) && isWritable i w r then c + 1 else c) + countWritable (i + 1) n w r := by
  unfold countWritable
  rw [show n - i = (n - (i + 1)) + 1 by omega, List.range'_succ, List.countP_cons]
  have : decide (i < n) = true := decide_eq_true (by omega)
  rw [this, Bool.true_and]
  split_ifs <;> omega

/-- The count at the last pixel. -/
theorem countWritable_last (i n w : Nat) (r : Region) (c : Nat) (h : ¬ i + 1 < n) :
    c + countWritable i n w r = (if decide (i < n) && isWritable i w r then c + 1 else c) := by
  unfold countWritable
  by_cases hi : i < n
  · rw [show n - i = 1 by omega]
    simp only [List.range'_one, List.countP_singleton, hi, decide_true, Bool.true_and]
    split_ifs <;> omega
  · rw [show n - i = 0 by omega]; simp [hi]

/-- One step of ENCODE's phase EST. -/
theorem coreStep_encodeEst (i c : Nat) (s : State) : coreStep (s.setFsm (.encodeEst i c)) =
    if i + 1 < s.conf.pixelCount then .next (s.setFsm (.encodeEst (i + 1) (if decide (i < s.conf.pixelCount) && isWritable i s.conf.width.toNat s.conf.region then c + 1 else c)))
    else encodeEstEnd ((if decide (i < s.conf.pixelCount) && isWritable i s.conf.width.toNat s.conf.region then c + 1 else c) * bitsPerPixel s.conf.capacity.toNat) s := rfl

/-- One step of ESTIMATE. -/
theorem coreStep_estimatePixel (i c : Nat) (s : State) : coreStep (s.setFsm (.estimatePixel i c)) =
    if i + 1 < s.conf.pixelCount then .next (s.setFsm (.estimatePixel (i + 1) (if decide (i < s.conf.pixelCount) && isWritable i s.conf.width.toNat s.conf.region then c + 1 else c)))
    else .next (s.setEstimate (BitVec.ofNat 64 ((if decide (i < s.conf.pixelCount) && isWritable i s.conf.width.toNat s.conf.region then c + 1 else c) * bitsPerPixel s.conf.capacity.toNat))).complete := rfl

/-- One step of READ_HEADER. -/
theorem coreStep_readHdr (i : Nat) (idx : BitIndex) (bits : BitVec 192) (s : State) : coreStep (s.setFsm (.readHdr i idx bits)) =
  if i + 1 < headerBits then .next (s.setFsm (.readHdr (i + 1) (nextHeaderBit idx) (setBit bits i (pixReadBit s.pix (nextHeaderBit idx)))))
  else .next (s.setHdr (deserialize (setBit bits i (pixReadBit s.pix (nextHeaderBit idx))))).complete := rfl

/-- ENCODE's phase EST (R102). -/
theorem coreRun_encodeEst : ∀ (n i c : Nat) (s : State), s.conf.pixelCount - (i + 1) = n →
    coreRun (n + 1) (s.setFsm (.encodeEst i c)) = encodeEstEnd ((c + countWritable i s.conf.pixelCount s.conf.width.toNat s.conf.region) * bitsPerPixel s.conf.capacity.toNat) s
  | 0, i, c, s, hi => by
    rw [coreRun_succ, coreStep_encodeEst, if_neg (by omega), countWritable_last _ _ _ _ _ (by omega)]
    cases encodeEstEnd _ s <;> rfl
  | n + 1, i, c, s, hi => by
    rw [coreRun_succ, coreStep_encodeEst, if_pos (by omega), countWritable_step _ _ _ _ _ (by omega)]
    exact coreRun_encodeEst n (i + 1) _ s (by omega)

/-- ESTIMATE's loop (R102). -/
theorem coreRun_estimatePixel : ∀ (n i c : Nat) (s : State), s.conf.pixelCount - (i + 1) = n →
    coreRun (n + 1) (s.setFsm (.estimatePixel i c)) = .next (s.setEstimate (BitVec.ofNat 64 ((c + countWritable i s.conf.pixelCount s.conf.width.toNat s.conf.region) * bitsPerPixel s.conf.capacity.toNat))).complete
  | 0, i, c, s, hi => by
    rw [coreRun_succ, coreStep_estimatePixel, if_neg (by omega), countWritable_last _ _ _ _ _ (by omega)]
    rfl
  | n + 1, i, c, s, hi => by
    rw [coreRun_succ, coreStep_estimatePixel, if_pos (by omega), countWritable_step _ _ _ _ _ (by omega)]
    exact coreRun_estimatePixel n (i + 1) _ s (by omega)

/-- EST_FIRST_PIXEL is 8 or 9. -/
theorem estFirst_ge (p : Config.EstFirst) : 8 ≤ p.toNat := by cases p <;> decide

/-- An FSM step changes no parameter and no configuration register. -/
theorem coreStep_frame {s t : State} (h : coreStep s = .next t) : t.params = s.params ∧ t.conf = s.conf := by
  unfold coreStep at h
  cases hf : s.fsm <;> rw [hf] at h
  case idle => cases h; exact ⟨rfl, rfl⟩
  case illegal => cases h; exact ⟨rfl, rfl⟩
  case start i =>
    cases i
    · cases h; exact ⟨rfl, rfl⟩
    · simp only [startStep, nextPayBody] at h; split_ifs at h <;> cases h <;> exact ⟨rfl, rfl⟩
    · simp only [startStep, isWritableBody] at h; split_ifs at h <;> cases h <;> exact ⟨rfl, rfl⟩
    · simp only [startStep, estimateStep] at h; split_ifs at h <;> cases h <;> exact ⟨rfl, rfl⟩
    · simp only [startStep] at h; split_ifs at h <;> cases h <;> exact ⟨rfl, rfl⟩
    · simp only [startStep] at h; split_ifs at h <;> cases h <;> exact ⟨rfl, rfl⟩
    · simp only [startStep, readHdrStep] at h; split_ifs at h <;> cases h <;> exact ⟨rfl, rfl⟩
  case estimatePixel => simp only [estimateStep] at h; split_ifs at h <;> cases h <;> exact ⟨rfl, rfl⟩
  case encodeEst => simp only [encodeEstStep, encodeEstEnd] at h; split_ifs at h <;> cases h <;> exact ⟨rfl, rfl⟩
  case encodeHdr => simp only [encodeHdrStep] at h; split_ifs at h <;> cases h <;> exact ⟨rfl, rfl⟩
  case encodeScan =>
    simp only [scanStep] at h
    split_ifs at h
    · cases h; exact ⟨rfl, rfl⟩
    · cases hx : scanFault (encodeArgs s).dir s <;> rw [hx] at h <;> cases h; exact ⟨rfl, rfl⟩
    · cases h; exact ⟨rfl, rfl⟩
    · cases h; exact ⟨rfl, rfl⟩
  case readHdr => simp only [readHdrStep] at h; split_ifs at h <;> cases h <;> exact ⟨rfl, rfl⟩
  case decodeHdr => simp only [decodeHdrStep] at h; split_ifs at h <;> cases h <;> exact ⟨rfl, rfl⟩
  case decodeValidate => simp only [decodeValidateStep] at h; split_ifs at h <;> cases h <;> exact ⟨rfl, rfl⟩
  case decodeScan =>
    simp only [scanStep] at h
    split_ifs at h
    · cases h; exact ⟨rfl, rfl⟩
    · cases hx : scanFault (decodeArgs s).dir s <;> rw [hx] at h <;> cases h; unfold scanBit; simp [scanAct_eq]
    · cases h; exact ⟨rfl, rfl⟩
    · cases h; exact ⟨rfl, rfl⟩
  case decodeTail => cases h; unfold decodeTailEnd; split_ifs <;> exact ⟨rfl, rfl⟩

/-- `t` with the host's side replaced: everReset, turns, program, WDROP. -/
def State.withHost (e : Bool) (ts : List Turn) (p : List HostOp) (w : Bool) (t : State) : State := { t with everReset := e, turns := ts, program := p, status := { t.status with wdrop := w } }

/-- A function on next states. -/
def Result.mapNext (f : State → State) : Result → Result
  | .next s => .next (f s)
  | .fault f => .fault f
  | .refused r => .refused r

/-- An FSM step neither reads nor changes the host's side. -/
theorem coreStep_withHost (er ts p w) (s : State) : coreStep (State.withHost er ts p w s) = Result.mapNext (State.withHost er ts p w) (coreStep s) := by
  have hite : ∀ (c : Prop) [Decidable c] (x y : Result), Result.mapNext (State.withHost er ts p w) (if c then x else y) = if c then Result.mapNext (State.withHost er ts p w) x else Result.mapNext (State.withHost er ts p w) y := by
    intro c _ x y; split_ifs <;> rfl
  unfold coreStep
  have hf : (State.withHost er ts p w s).fsm = s.fsm := rfl
  rw [hf]
  cases s.fsm with
  | idle => rfl
  | illegal => rfl
  | start i =>
    cases i with
    | nextHdr => rfl
    | nextPay => simp only [startStep, nextPayBody]; rw [hite]; rfl
    | isWritable => simp only [startStep, isWritableBody]; rw [hite]; rfl
    | estimate => simp only [startStep, estimateStep]; rw [hite, hite]; rfl
    | encode => simp only [startStep]; rw [hite]; rfl
    | decode => simp only [startStep]; rw [hite, hite]; rfl
    | readHeader => simp only [startStep, readHdrStep]; rw [hite, hite, hite]; rfl
  | estimatePixel i c => simp only [estimateStep]; rw [hite]; rfl
  | encodeEst i c => simp only [encodeEstStep, encodeEstEnd]; rw [hite, hite, hite]; rfl
  | encodeHdr i x => simp only [encodeHdrStep]; rw [hite]; rfl
  | encodeScan =>
    simp only [scanStep]; rw [hite, hite, hite]
    have e : scanFault (encodeArgs (State.withHost er ts p w s)).dir (State.withHost er ts p w s) = scanFault (encodeArgs s).dir s := rfl
    rw [e]
    cases scanFault (encodeArgs s).dir s <;> rfl
  | readHdr i x b => simp only [readHdrStep]; rw [hite]; rfl
  | decodeHdr i x b => simp only [decodeHdrStep]; rw [hite]; rfl
  | decodeValidate => simp only [decodeValidateStep]; rw [hite]; rfl
  | decodeScan =>
    simp only [scanStep]; rw [hite, hite, hite]
    have e : scanFault (decodeArgs (State.withHost er ts p w s)).dir (State.withHost er ts p w s) = scanFault (decodeArgs s).dir s := rfl
    rw [e]
    have e2 : scanBit (decodeArgs (State.withHost er ts p w s)) (State.withHost er ts p w s) = State.withHost er ts p w (scanBit (decodeArgs s) s) := by
      unfold scanBit scanAct State.collect
      simp only [decodeArgs]
      by_cases h : s.res.bitsDone.toNat % 8 = 7
      · have h' : (State.withHost er ts p w s).res.bitsDone.toNat % 8 = 7 := h
        simp only [h, h', if_true]; rfl
      · have h' : ¬ (State.withHost er ts p w s).res.bitsDone.toNat % 8 = 7 := h
        simp only [h, h', if_false]; rfl
    rw [e2]
    cases scanFault (decodeArgs s).dir s <;> rfl
  | decodeTail =>
    simp only [decodeTailEnd]
    by_cases h : s.res.hdr.len.toNat % 8 = 0
    · have h' : (State.withHost er ts p w s).res.hdr.len.toNat % 8 = 0 := h
      simp only [h, h', if_true]; rfl
    · have h' : ¬ (State.withHost er ts p w s).res.hdr.len.toNat % 8 = 0 := h
      simp only [h, h', if_false]; rfl

/-- An FSM step to a next state, whatever the host's side is. -/
theorem coreStep_withHost_next {s t : State} (er ts p w) (h : coreStep s = .next t) : coreStep (State.withHost er ts p w s) = .next (State.withHost er ts p w t) := by
  rw [coreStep_withHost, h]; rfl

/-- A run of FSM steps neither reads nor changes the host's side. -/
theorem coreRun_withHost (er ts p w) (n : Nat) (s : State) : coreRun n (State.withHost er ts p w s) = Result.mapNext (State.withHost er ts p w) (coreRun n s) := by
  induction n generalizing s with
  | zero => rfl
  | succ n ih =>
    rw [coreRun_succ, coreRun_succ, coreStep_withHost]
    cases coreStep s with
    | next t => exact ih t
    | fault _ => rfl
    | refused _ => rfl

/-- An FSM step leaves turns, program, WDROP and everReset. -/
theorem coreStep_keeps {s t : State} (h : coreStep s = .next t) : t.turns = s.turns ∧ t.program = s.program ∧ t.status.wdrop = s.status.wdrop ∧ t.everReset = s.everReset := by
  have := coreStep_withHost_next s.everReset s.turns s.program s.status.wdrop h
  have e : State.withHost s.everReset s.turns s.program s.status.wdrop s = s := rfl
  rw [e, h, next_inj] at this
  refine ⟨by rw [this]; rfl, by rw [this]; rfl, by rw [this]; rfl, by rw [this]; rfl⟩

/-- A run of the machine after a first step to a next state. -/
theorem core_run_next {n : Nat} {s t : State} (h : step s = .next t) : Sys2Proof.core.run (n + 1) s = Sys2Proof.core.run n t := by
  have h' : Sys2Proof.core.step s = .next t := h
  simp only [Host.Core.run, h']

/-- A run of the machine stops with the outcome of a first step that stops. -/
theorem core_run_fault {n : Nat} {s : State} {f : Fault} (h : step s = .fault f) : Sys2Proof.core.run (n + 1) s = .fault f := by
  have h' : Sys2Proof.core.step s = .fault f := h
  simp only [Host.Core.run, h']

/-- A run of the machine stops with the outcome of a first step that stops. -/
theorem core_run_refused {n : Nat} {s : State} {r : Refusal} (h : step s = .refused r) : Sys2Proof.core.run (n + 1) s = .refused r := by
  have h' : Sys2Proof.core.step s = .refused r := h
  simp only [Host.Core.run, h']

/-- A run in which only the block moves or time passes is that many FSM steps as the order names the block (R192). -/
theorem run_core_stall (ts : List Turn) (s : State) (he : s.everReset = true) (h : ∀ t ∈ ts, t = .core ∨ t = .stall) :
    Sys2Proof.core.run ts.length { s with turns := ts } = Result.mapNext (fun t => { t with turns := [] }) (coreRun (ts.count .core) s) := by
  induction ts generalizing s with
  | nil => rfl
  | cons x ts ih =>
    have hts : ∀ t ∈ ts, t = .core ∨ t = .stall := fun t ht => h t (List.mem_cons_of_mem _ ht)
    rcases h x List.mem_cons_self with rfl | rfl
    · have e : step { s with turns := .core :: ts } = coreStep { s with turns := ts } := by
        simp only [step, machineStep, takeTurn, he, if_true]
      have e2 : coreStep { s with turns := ts } = Result.mapNext (fun t => { t with turns := ts }) (coreStep s) := by
        have := coreStep_withHost s.everReset ts s.program s.status.wdrop s
        rw [show State.withHost s.everReset ts s.program s.status.wdrop s = { s with turns := ts } from rfl] at this
        rw [this]
        cases hs : coreStep s with
        | next t =>
          obtain ⟨-, k2, k3, k4⟩ := coreStep_keeps hs
          simp only [Result.mapNext, State.withHost, ← k2, ← k3, ← k4]
        | fault _ => rfl
        | refused _ => rfl
      rw [e2] at e
      rw [List.count_cons_self, coreRun_succ]
      cases hs : coreStep s with
      | next t => rw [hs] at e; exact (core_run_next e).trans (ih t ((coreStep_keeps hs).2.2.2.trans he) hts)
      | fault _ => rw [hs] at e; exact core_run_fault e
      | refused _ => rw [hs] at e; exact core_run_refused e
    · have e : step { s with turns := .stall :: ts } = .next { s with turns := ts } := by
        simp only [step, machineStep, takeTurn, he, if_true]
      rw [List.count_cons_of_ne (by decide)]
      exact (core_run_next e).trans (ih s he hts)

end Sys2Proof.Machine
end

