-- ==== Sys2Proof/Laws/Host.lean ====
section
/-! SUPPORT. The register bank's addresses and the host's moves, each said once. -/

namespace Sys2Proof.Machine

/-- A register is at its offset (R22). -/
theorem regAt_offset (r : Reg) : regAt r.offset = some r := by cases r <;> rfl

/-- Register offsets are aligned and inside the bank. -/
theorem Reg.offset_lt (r : Reg) : r.offset < 0x100 ∧ r.offset % 4 = 0 := by cases r <;> decide

/-- An aligned 32-bit access inside the bank. -/
theorem busTarget_bank (p : Config.Params) {o : Nat} (h : o < 0x100) (h4 : o % 4 = 0) : busTarget p (p.base + o) 4 = match regAt o with | some r => .reg r | none => .reserved := by
  unfold busTarget
  have e : p.base + o - p.base = o := by omega
  rw [if_neg (by omega), e, if_neg (by omega)] <;> cases regAt o <;> rfl

/-- The access at a register's offset. -/
theorem busTarget_reg (p : Config.Params) (r : Reg) : busTarget p (p.base + r.offset) 4 = .reg r := by
  rw [busTarget_bank p (Reg.offset_lt r).1 (Reg.offset_lt r).2, regAt_offset]

/-- The access at BASE is to CMD. -/
theorem busTarget_cmd (p : Config.Params) : busTarget p p.base 4 = .reg .cmd := by
  unfold busTarget
  rw [if_neg (by omega), if_neg (by omega), Nat.sub_self]; rfl

/-- No register is at a reserved offset. -/
theorem regAt_none {o : Nat} (h : o < 0x100) (hn : ∀ r : Reg, r.offset ≠ o) : regAt o = none := by
  unfold regAt
  split <;> first | rfl | (exfalso; first
    | exact hn .cmd rfl | exact hn .status rfl | exact hn .width rfl | exact hn .height rfl | exact hn .capacity rfl | exact hn .minX rfl | exact hn .maxX rfl | exact hn .minY rfl | exact hn .maxY rfl
    | exact hn .payloadBytes rfl | exact hn .fillNum rfl | exact hn .fillDen rfl | exact hn .cursorInLo rfl | exact hn .cursorInHi rfl | exact hn .pixelIndex rfl
    | exact hn .cursorOutLo rfl | exact hn .cursorOutHi rfl | exact hn .result rfl | exact hn .estimateLo rfl | exact hn .estimateHi rfl | exact hn .bitsDone rfl | exact hn .scanPixel rfl
    | exact hn .bitPtrLo rfl | exact hn .bitPtrHi rfl | exact hn .outBytes rfl | exact hn .hdrLen rfl | exact hn .hdrCap rfl | exact hn .hdrMinX rfl | exact hn .hdrMaxX rfl | exact hn .hdrMinY rfl | exact hn .hdrMaxY rfl)

/-- The access at a reserved offset. -/
theorem busTarget_reserved (p : Config.Params) {o : Nat} (h : o < 0x100) (h4 : o % 4 = 0) (hn : ∀ r : Reg, r.offset ≠ o) : busTarget p (p.base + o) 4 = .reserved := by
  rw [busTarget_bank p h h4, regAt_none h hn]

/-- An idle block is not busy. -/
theorem busy_of_idle {s : State} (hf : s.fsm = .idle) : s.busy = false := by unfold State.busy; rw [hf]; rfl

/-- Nothing interfering, an idle block's next step is the host's. -/
theorem step_idle {s : State} (he : s.everReset = true) (ht : s.turns = []) (hf : s.fsm = .idle) : step s = hostMove runCommand s := by
  simp [step, machineStep, ht, defaultTurn, he, State.busy, hf]

/-- The host's turn. -/
theorem step_host {s : State} {ts} (he : s.everReset = true) (ht : s.turns = .host :: ts) : step s = hostMove startCommand { s with turns := ts } := by
  simp [step, machineStep, ht, takeTurn, he]

/-- An idle block's host move, in either order log 1 allows: only a CMD write tells the two apart. -/
theorem step_hostNext {s : State} {ts} (h : s.HostNext ts) : ∃ c, step s = hostMove c { s with turns := ts } := by
  obtain ⟨he, hf, ⟨h1, h2⟩ | h1⟩ := h
  · refine ⟨runCommand, ?_⟩
    rw [step_idle he h1 hf, h2, ← h1]
  · exact ⟨startCommand, step_host he h1⟩

/-- The host's program, its first line done. -/
theorem advance_eq {s : State} {op rest} (hp : s.program = op :: rest) : s.advance = { s with program := rest } := by
  unfold State.advance; rw [hp]; rfl

/-- The host's register write. -/
theorem hostMove_write {c : Word → State → Result} {s : State} {a sz : Nat} {v : Word} {rest} (hp : s.program = .write a sz v :: rest) : hostMove c s =
    match busTarget s.params a sz with
    | .reg r => busWrite c (some r) v { s with program := rest }
    | .reserved => busWrite c none v { s with program := rest }
    | .badAccess => .refused .badAccess
    | .outside => .fault .outsideBank := by
  unfold hostMove; rw [hp, advance_eq hp] <;> rfl

/-- The host's register read. -/
theorem hostMove_read {c : Word → State → Result} {s : State} {a sz : Nat} {rest} (hp : s.program = .read a sz :: rest) : hostMove c s =
    match busTarget s.params a sz with
    | .reg r => .next (busRead r { s with program := rest })
    | .reserved => .next (({ s with program := rest } : State).returnData 0)
    | .badAccess => .refused .badAccess
    | .outside => .fault .outsideBank := by
  unfold hostMove; rw [hp, advance_eq hp] <;> rfl

/-- The host fills a pixel word. -/
theorem hostMove_storePix {c : Word → State → Result} {s : State} {i v rest} (hp : s.program = .storePix i v :: rest) : hostMove c s =
    hostMemory (decide (i < s.params.pixWords)) .unbackedPixel s { s with program := rest, pix := s.pix.write i v } := by
  unfold hostMove; rw [hp, advance_eq hp]

/-- The host fills a payload byte. -/
theorem hostMove_storePay {c : Word → State → Result} {s : State} {i v rest} (hp : s.program = .storePay i v :: rest) : hostMove c s =
    hostMemory (decide (i < s.params.payBytes)) .unbackedPayload s { s with program := rest, pay := s.pay.write i v } := by
  unfold hostMove; rw [hp, advance_eq hp]

/-- The host reads a pixel word. -/
theorem hostMove_loadPix {c : Word → State → Result} {s : State} {i rest} (hp : s.program = .loadPix i :: rest) : hostMove c s =
    hostMemory (decide (i < s.params.pixWords)) .unbackedPixel s { s with program := rest, readData := s.pix.read i } := by
  unfold hostMove; rw [hp, advance_eq hp] <;> rfl

/-- The host reads a payload byte. -/
theorem hostMove_loadPay {c : Word → State → Result} {s : State} {i rest} (hp : s.program = .loadPay i :: rest) : hostMove c s =
    hostMemory (decide (i < s.params.payBytes)) .unbackedPayload s { s with program := rest, readData := (s.pay.read i).setWidth 32 } := by
  unfold hostMove; rw [hp, advance_eq hp] <;> rfl

/-- The host polls STATUS (R79). -/
theorem hostMove_wait {c : Word → State → Result} {s : State} {rest} (hp : s.program = .wait :: rest) : hostMove c s =
    .next { s with program := if s.busy then .wait :: rest else rest, readData := readReg .status s } := by
  unfold hostMove; rw [hp]; simp only
  unfold hostWait
  cases s.busy
  · simp only [Bool.false_eq_true, if_false]
    unfold State.advance State.returnData; simp only; rw [hp]; rfl
  · simp only [if_true]; rw [← hp]; rfl

end Sys2Proof.Machine
end

