-- ==== Sys2Proof/Laws/Inv.lean ====
section
/-! SUPPORT. The invariant: what it depends on, and that a scan's iterations keep their part of it. -/

namespace Sys2Proof.Machine

/-- A phase other than IDLE is busy (R38). -/
theorem busy_of_fsm {s : State} {f : Fsm} (h : s.fsm = f) (hf : f ≠ .idle) : s.busy = true := by
  unfold State.busy; rw [h]; simpa using hf

/-- STATUS's laws depend on STATUS and BUSY only. -/
theorem statusOk_mk {s t : State} (h : StatusOk s) (h1 : t.status = s.status) (h2 : t.busy = s.busy) : StatusOk t := by
  obtain ⟨a, b, c, d⟩ := h
  exact ⟨by rw [h1]; exact a, by rw [h1]; exact b, by rw [h1, h2]; exact c, by rw [h1]; exact d⟩

/-- Normal completion keeps STATUS's laws. -/
theorem statusOk_complete {s t : State} (h : StatusOk s) (hb : s.busy = true) (h1 : t.status = s.status.completed) (h2 : t.busy = false) : StatusOk t := by
  obtain ⟨a, b, c, d⟩ := h
  obtain ⟨c1, c2⟩ := c hb
  exact ⟨by rw [h1]; exact a, by rw [h1]; exact b, by rw [h2]; simp, by rw [h1]; exact d⟩

/-- Raising an error keeps STATUS's laws. -/
theorem statusOk_raise {t : State} {st : Status} (e : ErrKind) (h1 : t.status = st.aborted e) (h2 : t.busy = false) : StatusOk t := by
  refine ⟨?_, ?_, by rw [h2]; simp, ?_⟩ <;> rw [h1] <;> cases e <;> simp [Status.aborted, ErrKind.code]

/-- Every framed bit of a pixel is at one of the framed offsets (R92). -/
theorem exists_payOffset {c p : Nat} (h1 : 1 ≤ c) (h8 : c ≤ 8) (h : PayFramed c p) : ∃ j, j < 8 + 3 * c ∧ payOffset c j = p := by
    have : ∀ n : Fin 9, 1 ≤ n.val → ∀ p : Fin 32, (p.val < 8 ∨ p.val % 8 < n.val) → ∃ j : Fin 32, j.val < 8 + 3 * n.val ∧ payOffset n.val j.val = p.val := by decide
    obtain ⟨j, hj, he⟩ := this ⟨c, by omega⟩ h1 ⟨p, h.1⟩ h.2
    exact ⟨j, hj, he⟩

/-- A writable pixel's iteration keeps the scan's invariant (R133). -/
theorem scanOk_bit {a : ScanArgs} (h1 : 1 ≤ a.cap.toNat) (h8 : a.cap.toNat ≤ 8) (hn : a.n < 2^32) (hl : a.len < 2^32) {s : State} (h : ScanOk a s) (hlt : s.res.bitsDone.toNat < a.len)
    (hpn : s.res.scanPixel.toNat < a.n) : ScanOk a (scanBit a s) := by
  have hq := s.res.scanPixel.isLt
  obtain ⟨j, hj, hptr⟩ : ∃ j, j < 8 + 3 * a.cap.toNat ∧ activePtr s = BitVec.ofNat 64 (32 * s.res.scanPixel.toNat + payOffset a.cap.toNat j) := by
    unfold activePtr
    rcases h.ptr with hp | ⟨p, hp, he⟩
    · rw [if_pos hp]; exact ⟨0, by omega, by simp [payOffset]⟩
    · obtain ⟨j, hj, rfl⟩ := exists_payOffset h1 h8 hp
      have hb : s.res.bitPtr = BitVec.ofNat 64 (32 * s.res.scanPixel.toNat + payOffset a.cap.toNat j) := by
        apply BitVec.eq_of_toNat_eq
        have := hp.1
        rw [he, BitVec.toNat_ofNat]; omega
      rw [if_neg (by rw [hb]; exact ofNat_pixel_ne _ hp.1)]
      exact ⟨j, hj, hb⟩
  have hnext := nextPayloadBit_framed h1 h8 s.res.scanPixel.toNat hj
  have hb : (s.res.bitsDone + 1).toNat = s.res.bitsDone.toNat + 1 := by
    rw [BitVec.toNat_add]; simp; omega
  unfold scanBit
  simp only [hptr, hnext, pixelOf]
  have hpx := h.pixel
  have hpl := h.pixelLe
  have hoff := payOffset_lt h1 h8 hj
  split_ifs with hc
  · have hoff := payOffset_lt h1 h8 hc
    have e : (BitVec.ofNat 64 (32 * s.res.scanPixel.toNat + payOffset a.cap.toNat (j + 1))).toNat = 32 * s.res.scanPixel.toNat + payOffset a.cap.toNat (j + 1) := by
      rw [BitVec.toNat_ofNat]; omega
    have e2 : BitVec.ofNat 32 ((32 * s.res.scanPixel.toNat + payOffset a.cap.toNat (j + 1)) / 32) = s.res.scanPixel := by
      rw [show (32 * s.res.scanPixel.toNat + payOffset a.cap.toNat (j + 1)) / 32 = s.res.scanPixel.toNat by omega]; simp
    rw [e, e2]
    refine ⟨?_, hpx, hpl, .inr ⟨_, payFramed_payOffset h1 h8 hc, e⟩⟩
    show (s.res.bitsDone + 1).toNat ≤ _
    omega
  · have e : (BitVec.ofNat 64 (32 * (s.res.scanPixel.toNat + 1))).toNat = 32 * (s.res.scanPixel.toNat + 1) := by
      rw [BitVec.toNat_ofNat]; omega
    have e2 : (BitVec.ofNat 32 (32 * (s.res.scanPixel.toNat + 1) / 32)).toNat = s.res.scanPixel.toNat + 1 := by
      rw [BitVec.toNat_ofNat]; omega
    rw [e]
    refine ⟨?_, ?_, ?_, .inr ⟨0, ⟨by omega, by omega⟩, ?_⟩⟩
    · show (s.res.bitsDone + 1).toNat ≤ _
      omega
    · show 9 ≤ (BitVec.ofNat 32 _).toNat; omega
    · show (BitVec.ofNat 32 _).toNat ≤ _; omega
    · show (BitVec.ofNat 64 _).toNat = 32 * (BitVec.ofNat 32 _).toNat + 0; omega

/-- Any other pixel's iteration keeps the scan's invariant (R133). -/
theorem scanOk_skip {a : ScanArgs} (hn : a.n < 2^32) {s : State} (h : ScanOk a s) 
    (hpn : s.res.scanPixel.toNat < a.n) : ScanOk a (skipPixel s) := by
  have hpx : (skipPixel s).res.scanPixel.toNat = s.res.scanPixel.toNat + 1 := by
    show (s.res.scanPixel + 1).toNat = _
    rw [BitVec.toNat_add]; simp; omega
  have := h.pixel
  exact ⟨h.bits, by omega, by omega, .inl rfl⟩

/-- The scan starts in its invariant. -/
theorem scanOk_init (a : ScanArgs) (s : State) (f : Fsm) : ScanOk a ((scanInit s).setFsm f) := ⟨Nat.zero_le _, le_rfl, le_max_left _ _, .inl rfl⟩

/-- DECODE's iteration keeps payload memory canonical and pixel memory as it is. -/
theorem scanBit_of_read (a : ScanArgs) (hd : a.dir = .read) (s : State) (h : s.pay.wf) : (scanBit a s).pay.wf ∧ (scanBit a s).pix = s.pix := by
  unfold scanBit scanAct State.collect
  rw [hd]; simp only
  split_ifs
  · exact ⟨Memory.wf_write h _ _, rfl⟩
  · exact ⟨h, rfl⟩

/-- The invariant does not depend on the host's side or WDROP. -/
theorem inv_congr {s t : State} (h : Inv s) (h1 : t.params = s.params) (h2 : t.conf = s.conf) (h3 : t.res = s.res) (h4 : t.status.done = s.status.done ∧ t.status.err = s.status.err ∧ t.status.errCode = s.status.errCode)
   (h5 : t.fsm = s.fsm) (h6 : t.pix.wf) (h7 : t.pay.wf) : Inv t := by
  refine ⟨h6, h7, ?_, ?_⟩
  · obtain ⟨a, b, c, d⟩ := h.status
    obtain ⟨e1, e2, e3⟩ := h4
    have hb : t.busy = s.busy := by unfold State.busy; rw [h5]
    exact ⟨by rw [e2, e3]; exact a, by rw [e2, e3]; exact b, by rw [hb, e1, e2]; exact c, by rw [e3]; exact d⟩
  · have hp := h.phase
    unfold PhaseOk at *
    rw [h5]
    have e1 : t.PixelCountLegal = s.PixelCountLegal := by unfold State.PixelCountLegal State.N; rw [h1, h2]
    have e2 : t.EstimateLegal = s.EstimateLegal := by unfold State.EstimateLegal; rw [e1, h2]
    have e3 : t.EncodeLegal = s.EncodeLegal := by unfold State.EncodeLegal; rw [e2, h2]
    have e4 : encodeArgs t = encodeArgs s := by unfold encodeArgs; rw [h2]
    have e5 : decodeArgs t = decodeArgs s := by unfold decodeArgs; rw [h2, h3]
    have e6 : ∀ a, ScanOk a s → ScanOk a t := fun a h => ⟨by rw [h3]; exact h.1, by rw [h3]; exact h.2, by rw [h3]; exact h.3, by rw [h3]; exact h.4⟩
    clear h5
    generalize s.fsm = f at hp ⊢
    cases f <;> simp only [e1, e2, e3, e4, e5, h3] at hp ⊢ <;> first | exact hp | exact ⟨hp.1, e6 _ hp.2⟩ | exact ⟨hp.1, hp.2.1, e6 _ hp.2.2⟩

end Sys2Proof.Machine
end

