-- ==== Sys2Proof/Laws/PerInstr.lean ====
section
/-! SUPPORT. Statements made of each command as syntax. -/

namespace Sys2Proof.Laws.DecodeEncode

/-- The command's word decodes to the command (R71, R74). -/
def Statement (i : Instr) : Prop := Sys2Proof.decode (Sys2Proof.encode i) = .ok i

theorem nextHdr : Statement .nextHdr := rfl

theorem nextPay : Statement .nextPay := rfl

theorem isWritable : Statement .isWritable := rfl

theorem estimate : Statement .estimate := rfl

theorem encode : Statement .encode := rfl

theorem decode : Statement .decode := rfl

theorem readHeader : Statement .readHeader := rfl

end Sys2Proof.Laws.DecodeEncode
end

