-- ==== Sys2Proof/Tests/Slice0.lean ====
section
/-! SUPPORT. Tests against the vectors of 95_test_vectors.md, and a witness for the hypotheses of every statement. -/

set_option Elab.async false

namespace Sys2Proof.Tests

open Sys2Proof Sys2Proof.Machine

/-! ## Small states -/

/-- Reset, then registers written. -/
def regs (rs : List (Reg × Word)) : State := rs.foldl (fun s q => writeReg q.1 q.2 s) State.reset

/-- `s` with pixel words 0, 1, 2, …. -/
def withPix (ws : List Word) (s : State) : State :=
  { s with pix := ws.zipIdx.foldl (fun m q => m.write q.2 q.1) [] }

/-- `s` with payload bytes 0, 1, 2, …. -/
def withPay (bs : List Byte) (s : State) : State :=
  { s with pay := bs.zipIdx.foldl (fun m q => m.write q.2 q.1) [] }

/-- `s` about to run a host program, nothing interfering. -/
def running (ops : List HostOp) (s : State) : State := { s with program := ops }

/-- `s` with the next moves in this order. -/
def ordered (ts : List Turn) (s : State) : State := { s with turns := ts }

/-- `s` in the first step of NEXT_HDR. -/
def busy (s : State) : State := { s with fsm := .start .nextHdr }

/-- The outcome is a next state that `p` accepts. -/
def ends (r : Result) (p : State → Bool) : Bool :=
  match r with
  | .next t => p t
  | .fault _ => false
  | .refused _ => false

theorem exists_of_ends {r : Result} {p : State → Bool} (h : ends r p = true) : ∃ t, r = .next t ∧ p t = true := by
  cases r with
  | next t => exact ⟨t, rfl, h⟩
  | fault _ => simp [ends] at h
  | refused _ => simp [ends] at h

/-- Registers read these values. -/
def reads (rs : List (Reg × Word)) (t : State) : Bool := rs.all (fun q => readReg q.1 t == q.2)

/-- Pixel words from `i` on are these. -/
def pixels (i : Nat) (ws : List Word) (t : State) : Bool := ws.zipIdx.all (fun q => t.pix.read (i + q.2) == q.1)

/-- Payload bytes from 0 on are these. -/
def payload (bs : List Byte) (t : State) : Bool := bs.zipIdx.all (fun q => t.pay.read q.2 == q.1)

/-! ## Well-formedness: ill-formed terms are refused -/

theorem test_wf_word_rsvd : wordWf 0x00000015#32 = false := by decide

theorem test_wf_word_opcode_zero : wordWf 0x00000000#32 = false := by decide

theorem test_wf_word_opcode_eight : wordWf 0x00000008#32 = false := by decide

theorem test_wf_params_max_pixels : ({ Config.Params.default with maxPixels := 7 } : Config.Params).wf = false := by
  decide

theorem test_wf_params_pix_words :
    ({ Config.Params.default with pixWords := 2 ^ 32 + 1 } : Config.Params).wf = false := by decide

theorem test_wf_params_pay_bytes :
    ({ Config.Params.default with payBytes := 2 ^ 29 + 1 } : Config.Params).wf = false := by decide

theorem test_wf_accepts : wordWf 0x00000007#32 = true ∧ Config.Params.default.wf = true ∧ Instr.encode.wf = true := by
  decide

/-! ## Decoding (R70, R71): OPCODE in bits 3:0 below 28 zero bits -/

theorem test_decode_nextHdr : decode (0#28 ++ 0b0001#4) = .ok .nextHdr := by decide +kernel

theorem test_decode_nextPay : decode (0#28 ++ 0b0010#4) = .ok .nextPay := by decide +kernel

theorem test_decode_isWritable : decode (0#28 ++ 0b0011#4) = .ok .isWritable := by decide +kernel

theorem test_decode_estimate : decode (0#28 ++ 0b0100#4) = .ok .estimate := by decide +kernel

theorem test_decode_encode : decode (0#28 ++ 0b0101#4) = .ok .encode := by decide +kernel

theorem test_decode_decode : decode (0#28 ++ 0b0110#4) = .ok .decode := by decide +kernel

theorem test_decode_readHeader : decode (0#28 ++ 0b0111#4) = .ok .readHeader := by decide +kernel

/-- V-ENC-ILL. -/
theorem test_decode_illegal :
    [0x0#32, 0x8#32, 0x9#32, 0xA#32, 0xB#32, 0xC#32, 0xD#32, 0xE#32, 0xF#32, 0x10#32, 0x15#32, 0x80000005#32].all
      (fun w => (decode w).toOption.isNone) = true := by decide +kernel

/-- The table's numbering, and a word with a set bit above 31. -/
theorem test_decodeTableWord :
    decodeTableWord 32 5 = some .encode ∧ decodeTableWord 32 0x15 = none ∧ decodeTableWord 64 (2 ^ 32 + 5) = none := by
  decide +kernel

/-! ## The cursor -/

/-- V-CUR-2, V-CUR-6: CURSOR_IN and CURSOR_OUT. -/
theorem test_nextHdr :
    ([(-1, 8), (8, 9), (9, 10), (31, 40), (0, 1), (30, 31), (63, 72), (-2, -1), (-32, -31), (-33, -24),
      (0x7FFFFFFFFFFFFFFF, 0x8000000000000008)] : List (BitVec 64 × BitVec 64)).all (fun q =>
        ends (exec .nextHdr (regs [(.cursorInLo, q.1.setWidth 32), (.cursorInHi, (q.1 >>> 32).setWidth 32)]))
          (reads [(.status, 0x2), (.cursorOutLo, q.2.setWidth 32), (.cursorOutHi, (q.2 >>> 32).setWidth 32)])) = true := by
  decide +kernel

/-- V-CUR-1, V-CUR-5, V-CUR-NEG: CAPACITY, CURSOR_IN and CURSOR_OUT. -/
theorem test_nextPay :
    ([(2, 0, 1), (2, 6, 7), (2, 7, 8), (2, 8, 9), (2, 9, 16), (2, 17, 24), (2, 24, 25), (2, 25, 32), (1, 9, 16), (1, 15, 16),
      (1, 31, 32), (3, 10, 16), (3, 12, 16), (3, 26, 32), (8, 14, 15), (8, 15, 16), (8, 30, 31), (2, -10, -8), (2, -8, -7),
      (2, -7, 0), (2, -1, 0), (3, 0x7FFFFFFFFFFFFFFF, 0x8000000000000000)] : List (Word × BitVec 64 × BitVec 64)).all
      (fun q =>
        ends (exec .nextPay (regs [(.capacity, q.1), (.cursorInLo, q.2.1.setWidth 32),
            (.cursorInHi, (q.2.1 >>> 32).setWidth 32)]))
          (reads [(.status, 0x2), (.cursorOutLo, q.2.2.setWidth 32), (.cursorOutHi, (q.2.2 >>> 32).setWidth 32)])) = true := by
  decide +kernel

/-- V-CUR-7. -/
theorem test_nextPay_illegal_capacity :
    ([0, 9, 0xFFFFFFFF] : List Word).all (fun c =>
      ends (exec .nextPay ((regs [(.capacity, c)]).setCursorOut 16)) (reads [(.status, 0x16), (.cursorOutLo, 16)])) = true := by
  decide +kernel

/-! ## The region and the estimate -/

/-- V-REG-1 to V-REG-4: WIDTH, region, PIXEL_INDEX and RESULT. -/
theorem test_isWritable :
    ([(100, 50, 80, 50, 80, 0, 0), (100, 50, 80, 50, 80, 5050, 1), (100, 50, 80, 50, 80, 9090, 0),
      (100, 50, 80, 50, 80, 8080, 1), (100, 50, 80, 50, 80, 8081, 0), (100, 50, 80, 50, 80, 5049, 0),
      (4, 1, 1, 0, 5, 5, 1), (1, 0, 0, 0, 0, 1000000000, 1), (10, 3, 3, 7, 7, 0, 1), (10, 3, 3, 7, 7, 37, 1)] :
      List (Word × Word × Word × Word × Word × Word × Word)).all (fun (w, a, b, c, d, i, r) =>
        ends (exec .isWritable (regs [(.width, w), (.minX, a), (.maxX, b), (.minY, c), (.maxY, d), (.pixelIndex, i)]))
          (reads [(.status, 0x2), (.result, r)])) = true := by
  decide +kernel

/-- V-REG-5. -/
theorem test_isWritable_invalid :
    ([[(.width, 0)], [(.width, 1), (.minX, 5), (.maxX, 4)], [(.width, 1), (.minY, 2), (.maxY, 1)]] :
      List (List (Reg × Word))).all (fun rs =>
        ends (exec .isWritable ((regs rs).setWritable true)) (reads [(.status, 0x16), (.result, 1)])) = true := by
  decide +kernel

/-- V-EST-1, V-EST-2: WIDTH, HEIGHT, CAPACITY, region and ESTIMATE. -/
theorem test_estimate :
    ([(10, 10, 2, 0, 0, 0, 0, 1288), (8, 1, 3, 0, 0, 0, 0, 0), (4, 4, 1, 0, 0, 0, 0, 88), (9, 1, 4, 7, 8, 0, 0, 20),
      (6, 4, 1, 1, 2, 2, 3, 44), (10, 10, 8, 0, 9, 5, 5, 320)] :
      List (Word × Word × Word × Word × Word × Word × Word × Word)).all (fun (w, h, k, a, b, c, d, e) =>
        ends (exec .estimate (regs [(.width, w), (.height, h), (.capacity, k), (.minX, a), (.maxX, b), (.minY, c), (.maxY, d)]))
          (reads [(.status, 0x2), (.estimateLo, e), (.estimateHi, 0)])) = true := by
  decide +kernel

/-- V-EST-3. -/
theorem test_estimate_invalid :
    ([[(.width, 8), (.height, 1), (.capacity, 0)], [(.width, 8), (.height, 1), (.capacity, 9)],
      [(.width, 7), (.height, 1), (.capacity, 1)], [(.capacity, 1)],
      [(.width, 0x10000), (.height, 0x10000), (.capacity, 1)],
      [(.width, 8), (.height, 1), (.capacity, 1), (.minX, 5), (.maxX, 4)]] : List (List (Reg × Word))).all (fun rs =>
        ends (exec .estimate ((regs rs).setEstimate 7)) (reads [(.status, 0x16), (.estimateLo, 7)])) = true := by
  decide +kernel

/-! ## The header -/

/-- V-HDR-1, its last row, over words 0x12345678. -/
theorem test_writeHeader :
    (let m := writeHeader { len := 0xDEADBEEF, cap := 3, minX := 1, maxX := 2, minY := 4, maxY := 8 }
        (withPix (List.replicate 8 0x12345678) State.reset).pix
     pixels 0 [0xADBEEF78, 0x0003DE78, 0x01000078, 0x00000078, 0x00000278, 0x00040078, 0x08000078, 0x00000078]
        (State.reset.setPix m)) = true := by
  decide +kernel

/-- The same pixels, read back. -/
theorem test_readHeader :
    ends (exec .readHeader (withPix
        [0xADBEEF78, 0x0003DE78, 0x01000078, 0x00000078, 0x00000278, 0x00040078, 0x08000078, 0x00000078]
        (regs [(.width, 8), (.height, 1)])))
      (reads [(.status, 0x2), (.hdrLen, 0xDEADBEEF), (.hdrCap, 3), (.hdrMinX, 1), (.hdrMaxX, 2), (.hdrMinY, 4),
        (.hdrMaxY, 8)]) = true := by
  decide +kernel

/-- V-HDR-3: N = 7. -/
theorem test_readHeader_small :
    ends (exec .readHeader ((regs [(.width, 7), (.height, 1)]).setHdr { Header.zero with len := 5 }))
      (reads [(.status, 0x16), (.hdrLen, 5)]) = true := by
  decide +kernel

/-! ## ENCODE -/

/-- V-E2E's start state. -/
def e2e : State :=
  withPay [1, 2, 3, 4] (withPix (List.replicate 100 0xFFFFFFFF)
    (regs [(.width, 10), (.height, 10), (.capacity, 2), (.payloadBytes, 4)]))

/-- V-ENC-FULL's start state, with PAYLOAD_BYTES as given; V-ERR-INSUF-2 with 8. -/
def full (nb : Word) : State :=
  withPay (List.replicate 8 0x11)
    (regs [(.width, 10), (.height, 1), (.capacity, 8), (.payloadBytes, nb), (.fillNum, 1), (.fillDen, 1)])

/-- V-ENC-L0's start state, with PAYLOAD_BYTES as given. -/
def smallest (nb : Word) : State :=
  withPix (List.replicate 8 0x12345678) (regs [(.width, 8), (.height, 1), (.capacity, 3), (.payloadBytes, nb)])

/-- V-ERR-INSUF's start state. -/
def insufficient : State :=
  withPay [0xA5] (regs [(.width, 9), (.height, 1), (.capacity, 4), (.minX, 7), (.maxX, 8), (.payloadBytes, 1)])

/-- V-GUARD-1's start state. -/
def guarded (nb : Word) : State :=
  withPay [1, 2, 3, 4] (regs [(.width, 4), (.height, 4), (.capacity, 1), (.payloadBytes, nb)])

/-- V-E2E, V-ENC-FULL, V-ENC-L0. -/
theorem test_encode :
    ends (exec .encode e2e) (fun t =>
      reads [(.status, 0x2), (.estimateLo, 1288), (.bitsDone, 32), (.scanPixel, 11), (.bitPtrLo, 356), (.hdrLen, 32),
        (.hdrCap, 2)] t &&
      pixels 0 [0x000020FF, 0x000200FF] t && pixels 8 [0xFFFFFFFF, 0xFCFCFE01, 0xFDFCFC0C, 0xFFFFFFF0, 0xFFFFFFFF] t) = true ∧
    ends (exec .encode (full 4)) (fun t =>
      reads [(.status, 0x2), (.estimateLo, 64), (.bitsDone, 32), (.scanPixel, 10), (.bitPtrLo, 320)] t &&
      pixels 0 [0x2000, 0x80000, 0, 0, 0, 0, 0, 0, 0, 0x11111111] t) = true ∧
    ends (exec .encode (smallest 0)) (fun t =>
      reads [(.status, 0x2), (.estimateLo, 0), (.bitsDone, 0), (.scanPixel, 9), (.bitPtrLo, 0xFFFFFFFF),
        (.bitPtrHi, 0xFFFFFFFF)] t && pixels 0 [0x78, 0x30078, 0x78] t) = true := by
  decide +kernel

/-- V-GUARD-1, V-ERR-INSUF, V-ERR-INSUF-2, V-CFG. -/
theorem test_encode_errors :
    ends (exec .encode (guarded 5)) (fun t => reads [(.status, 0x26), (.estimateLo, 88), (.hdrLen, 0)] t && t.pix == []) = true ∧
    ends (exec .encode insufficient) (fun t =>
      reads [(.status, 0x36), (.estimateLo, 20), (.hdrLen, 8), (.bitsDone, 0), (.scanPixel, 9), (.bitPtrLo, 0xFFFFFFFF)] t &&
      pixels 0 [0x800, 0x40000, 0x7000000, 0, 0x800, 0, 0, 0, 0] t) = true ∧
    ends (exec .encode (full 8)) (fun t =>
      reads [(.status, 0x36), (.bitsDone, 32), (.scanPixel, 10), (.bitPtrLo, 320)] t && pixels 9 [0x11111111] t) = true ∧
    ([(.payloadBytes, 0x20000000), (.fillDen, 0), (.capacity, 0), (.width, 0)] : List (Reg × Word)).all (fun q =>
      ends (exec .encode (writeReg q.1 q.2 e2e)) (fun t => reads [(.status, 0x16), (.estimateLo, 0)] t)) = true := by
  decide +kernel

/-! ## DECODE -/

/-- A 1-row image. -/
def row (width : Word) (ws : List Word) : State := withPix ws (regs [(.width, width), (.height, 1)])

/-- V-ERR-TRUNC's start state. -/
def truncated : State := row 10 [0x4000, 0x20000, 0, 0, 0, 0, 0, 0, 0, 0xFFFFFFFF]

/-- V-ERR-MALF's start state. -/
def malformed : State := row 12 [0xC00, 0x20000, 0, 0, 0, 0, 0, 0, 0, 0x3A5]

/-- The image V-ENC-FULL ends in. -/
def fullImage : State := row 10 [0x2000, 0x80000, 0, 0, 0, 0, 0, 0, 0, 0x11111111]

/-- V-E2E's second half, under both bit orders, and V-ENC-FULL's. -/
theorem test_decode :
    (let e := withPix (0x000020FF :: 0x000200FF :: List.replicate 6 0xFF ++ [0xFFFFFFFF, 0xFCFCFE01, 0xFDFCFC0C, 0xFFFFFFF0])
        (regs [(.width, 10), (.height, 10)])
     ends (exec .decode e) (fun t => reads [(.status, 0x2), (.outBytes, 4), (.bitsDone, 32), (.scanPixel, 11), (.bitPtrLo, 356)] t &&
       payload [1, 2, 3, 4] t) &&
     ends (exec .decode { e with params := { e.params with bitOrder := .msbFirst } }) (payload [128, 64, 192, 32])) = true ∧
    ends (exec .decode fullImage) (payload [0x11, 0x11, 0x11, 0x11, 0]) = true := by
  decide +kernel

/-- V-ERR-TRUNC, V-ERR-MALF, V-ERR-CORRUPT, V-CFG. -/
theorem test_decode_errors :
    ends (exec .decode truncated) (fun t =>
      reads [(.status, 0x46), (.bitsDone, 14), (.scanPixel, 10), (.bitPtrLo, 320), (.outBytes, 1)] t && payload [0xFF, 0] t) = true ∧
    ends (exec .decode malformed) (fun t =>
      reads [(.status, 0x66), (.bitsDone, 12), (.scanPixel, 9), (.bitPtrLo, 312), (.outBytes, 1)] t && payload [0xA5, 0] t) = true ∧
    ([[0x800], [0x800, 0x90000], [0x800, 0x20000, 0x5000000, 0, 0x400], [0x800, 0x20000, 0, 0, 0, 0x70000, 0x6000000], [0xC00]] :
      List (List Word)).all (fun ws => ends (exec .decode (row 16 ws)) (reads [(.status, 0x56), (.outBytes, 0)])) = true ∧
    ends (exec .decode (regs [(.width, 0x10000), (.height, 0x10000)])) (reads [(.status, 0x16)]) = true := by
  decide +kernel

/-! ## The host's side -/

/-- V-STAT-1. -/
theorem test_status_w1c :
    (let s := (busy State.reset).raise .invalidConfiguration
     ends (step (running [.write 4 4 0x2] s)) (reads [(.status, 0x14)]) &&
     ends (step (running [.write 4 4 0x4] s)) (reads [(.status, 0x02)]) &&
     ends (step (running [.write 4 4 0xFFFFFE09] s)) (reads [(.status, 0x16)])) = true := by
  decide +kernel

/-- V-RST-1. -/
theorem test_reset :
    ends (step (ordered [.reset] (busy (regs [(.width, 3), (.fillNum, 9)]))))
      (reads [(.status, 0), (.width, 0), (.fillNum, 2), (.fillDen, 5), (.bitPtrLo, 0), (.cmd, 0)]) = true := by
  decide +kernel

/-- V-HAZ-1: the write while BUSY is dropped, the write after completion takes effect. -/
theorem test_write_while_busy :
    (let s := running [.write 0x10 4 3] (busy (regs [(.capacity, 2)]))
     ends (step (ordered [.host] s)) (reads [(.capacity, 2), (.status, 0x101)]) &&
     ends (step (running [.write 0x10 4 3] (regs [(.capacity, 2)]))) (reads [(.capacity, 3)])) = true := by
  decide +kernel

/-- R192: time passes without an FSM step, and the command is still running. -/
theorem test_stall :
    ends (step (ordered [.stall, .core] (busy State.reset))) (fun t => t == ordered [.core] (busy State.reset)) = true := by
  decide +kernel

/-- A command word at the head of the program runs as the first step after reset (V-RST-1). -/
theorem test_withFetchWord :
    ends (step (State.reset.withFetchWord 32 1)) (reads [(.status, 0x2), (.cursorOutLo, 1)]) = true ∧
    ends (step (State.reset.withFetchWord 32 5)) (reads [(.status, 0x16)]) = true := by
  decide +kernel

/-- PROG-1, lines 1 and 2. -/
theorem test_expand :
    hostProgram Config.Params.default [.wr64 .cursorIn (-1), .cmd .nextHdr] =
      [.write 0x30 4 0xFFFFFFFF, .write 0x34 4 0xFFFFFFFF, .write 0 4 1] := by
  decide +kernel

/-! ## Witnesses: concrete states and operands that meet each statement's hypotheses together -/

theorem witness_StepRunsDecodedCommand :
    (running [.write 0 4 1] State.reset).everReset = true ∧ (running [.write 0 4 1] State.reset).turns = [] ∧
    (running [.write 0 4 1] State.reset).fsm = .idle ∧
    (running [.write 0 4 1] State.reset).program = .write State.reset.params.base 4 1#32 :: [] ∧
    decode 1#32 = .ok .nextHdr := by decide +kernel

theorem witness_IllegalCommandOnlyStatus :
    ∀ n ∈ [0x10, 0, 8, 15], let w := BitVec.ofNat 32 n
      (w.toNat / 16 ≠ 0 ∨ w.toNat % 16 = 0 ∨ 8 ≤ w.toNat % 16) ∧
      (running [.write 0 4 w] State.reset).everReset = true ∧ (running [.write 0 4 w] State.reset).turns = [] ∧
      (running [.write 0 4 w] State.reset).fsm = .idle ∧
      (running [.write 0 4 w] State.reset).program = .write State.reset.params.base 4 w :: [] := by decide +kernel

theorem witness_CmdWriteStartsCommand :
    ∀ n ∈ [7, 8], let w := BitVec.ofNat 32 n
      (ordered [.host] (running [.write 0 4 w] State.reset)).everReset = true ∧
      (ordered [.host] (running [.write 0 4 w] State.reset)).turns = .host :: [] ∧
      (ordered [.host] (running [.write 0 4 w] State.reset)).fsm = .idle ∧
      (ordered [.host] (running [.write 0 4 w] State.reset)).program = .write State.reset.params.base 4 w :: [] ∧
      (decode w = .ok .readHeader ∨ decode w = .error .reservedOpcode) := by decide +kernel

theorem witness_NextPayResult :
    CapacityLegal (regs [(.capacity, 1)]).conf.capacity ∧ CapacityLegal (regs [(.capacity, 8)]).conf.capacity ∧
    ¬CapacityLegal (regs [(.capacity, 0)]).conf.capacity ∧ ¬CapacityLegal (regs [(.capacity, 9)]).conf.capacity := by
  decide +kernel

theorem witness_PayloadCursorFootprint : 
    ∀ n ∈ [1, 8], 1 ≤ (BitVec.ofNat 32 n).toNat ∧ (BitVec.ofNat 32 n).toNat ≤ 8 ∧ 10 < 8 + 3 * (BitVec.ofNat 32 n).toNat := by
  decide

theorem witness_CursorsAdvance :
    (0 ≤ (0#64).toInt ∧ (0#64).toInt < 2 ^ 63 - 8) ∧
    (0 ≤ (0x7FFFFFFFFFFFFFF7#64).toInt ∧ (0x7FFFFFFFFFFFFFF7#64).toInt < 2 ^ 63 - 8) := by
  have h : (0x7FFFFFFFFFFFFFF7#64).toInt = 0x7FFFFFFFFFFFFFF7 := by decide +kernel
  rw [h]; norm_num

theorem witness_IsWritableResult :
    State.IsWritableLegal (regs [(.width, 1), (.minX, 4), (.maxX, 4)]) ∧ ¬State.IsWritableLegal State.reset ∧
    ¬State.IsWritableLegal (regs [(.width, 1), (.minX, 5), (.maxX, 4)]) ∧
    ¬State.IsWritableLegal (regs [(.width, 1), (.minY, 1)]) := by decide +kernel

theorem witness_EstimateResult :
    State.EstimateLegal (regs [(.width, 8), (.height, 1), (.capacity, 1)]) ∧
    State.EstimateLegal (regs [(.width, 0xFFFFFFFF), (.height, 1), (.capacity, 8)]) ∧
    ¬State.EstimateLegal (regs [(.width, 7), (.height, 1), (.capacity, 1)]) := by decide +kernel

theorem witness_EstimateFitsPair : State.EstimateLegal (regs [(.width, 0xFFFFFFFF), (.height, 1), (.capacity, 8)]) := by
  decide +kernel

/-- `s` with EST_FIRST_PIXEL = 9. -/
def nine (s : State) : State := { s with params := { s.params with estFirst := .nine } }

theorem witness_EstimateExactness :
    (nine insufficient).params.estFirst = .nine ∧
    (insufficient.params.estFirst = .eight ∧ 8 < insufficient.N ∧
      WritableAt 8 (encodeArgs insufficient).width (encodeArgs insufficient).region) ∧
    ((smallest 0).params.estFirst = .eight ∧
      ¬(8 < (smallest 0).N ∧ WritableAt 8 (encodeArgs (smallest 0)).width (encodeArgs (smallest 0)).region)) ∧
    (nine (full 4)).params.estFirst = .nine ∧ (nine (full 4)).conf.fillNum.toNat ≤ (nine (full 4)).conf.fillDen.toNat ∧
    ∃ t, exec .encode (nine (full 4)) = .next t := by
  refine ⟨by decide +kernel, by decide +kernel, by decide +kernel, by decide +kernel, by decide +kernel, ?_⟩
  exact (exists_of_ends (p := fun _ => true) (by decide +kernel)).imp fun _ h => h.1

theorem witness_ReadHeaderResult :
    (State.PixelCountLegal (row 8 []) ∧ 8 ≤ (row 8 []).params.pixWords) ∧ ¬State.PixelCountLegal (row 7 []) := by
  decide +kernel

theorem witness_HeaderRoundTrip : (full 4).pix.wf ∧ e2e.pix.wf := by decide +kernel

theorem witness_WriteHeaderPlacement : e2e.pix.wf ∧ 7 < 8 ∧ 8 ≤ 8 := by decide +kernel

theorem witness_PixelBitWriteIsLocal : e2e.pix.wf ∧ (31 : Nat) ≠ (32#64).toNat := by decide +kernel

theorem witness_CommandsEndIdle : ∃ t, exec .encode insufficient = .next t :=
  (exists_of_ends (p := fun _ => true) (by decide +kernel)).imp fun _ h => h.1

theorem witness_CommandsWriteOnlyTheirResults : ∃ t, exec .decode malformed = .next t :=
  (exists_of_ends (p := fun _ => true) (by decide +kernel)).imp fun _ h => h.1

/-- `s` on a platform that backs this many pixel words and payload bytes. -/
def backed (pw pb : Nat) (s : State) : State := { s with params := { s.params with pixWords := pw, payBytes := pb } }

theorem witness_BackedCommandsComplete :
    8 ≤ (backed 8 0 State.reset).params.pixWords ∧ State.EncodeBacked (backed 10 4 (full 4)) ∧
    State.DecodeBacked (backed 10 4 fullImage) := by decide +kernel

theorem witness_UnbackedHeaderFaults :
    (backed 7 4 (full 4)).params.pixWords < 8 ∧ State.PixelCountLegal (backed 7 4 (full 4)) ∧
    State.EncodeLegal (backed 7 4 (full 4)) ∧ State.FillOk (backed 7 4 (full 4)) := by decide +kernel

theorem witness_EncodeCapacityError : State.EncodeLegal (guarded 5) ∧ ¬State.FillOk (guarded 5) := by decide +kernel

theorem witness_EncodeSucceeds :
    (State.EncodeLegal (full 4) ∧ State.FillOk (full 4) ∧ State.EncodeBacked (full 4) ∧
      8 * (full 4).conf.payloadBytes.toNat = (encodeArgs (full 4)).room) ∧
    (State.EncodeLegal (smallest 0) ∧ State.FillOk (smallest 0) ∧ State.EncodeBacked (smallest 0) ∧
      8 * (smallest 0).conf.payloadBytes.toNat ≤ (encodeArgs (smallest 0)).room) := by decide +kernel

theorem witness_EncodeRunsOut :
    State.EncodeLegal (full 5) ∧ State.FillOk (full 5) ∧ State.EncodeBacked (full 5) ∧
    (encodeArgs (full 5)).room < 8 * (full 5).conf.payloadBytes.toNat := by decide +kernel

theorem witness_EncodePlacesPayload :
    ∃ t, (full 4).pix.wf ∧ exec .encode (full 4) = .next t ∧ State.EncodeLegal (full 4) ∧ State.FillOk (full 4) ∧
      31 < t.res.bitsDone.toNat := by
  obtain ⟨t, h, hp⟩ := exists_of_ends (r := exec .encode (full 4)) (p := fun t => decide (31 < t.res.bitsDone.toNat))
    (by decide +kernel)
  exact ⟨t, by decide +kernel, h, by decide +kernel, by decide +kernel, of_decide_eq_true hp⟩

theorem witness_EncodeTouchesOnlyFramedBits :
    ∃ t, e2e.pix.wf ∧ exec .encode e2e = .next t ∧ 31 < 32 ∧
      (t.pix.read 7).getLsbD 31 ≠ (e2e.pix.read 7).getLsbD 31 ∧ (t.pix.read 9).getLsbD 1 ≠ (e2e.pix.read 9).getLsbD 1 := by
  obtain ⟨t, h, hp⟩ := exists_of_ends (r := exec .encode e2e)
    (p := fun t => decide ((t.pix.read 7).getLsbD 31 ≠ (e2e.pix.read 7).getLsbD 31 ∧
      (t.pix.read 9).getLsbD 1 ≠ (e2e.pix.read 9).getLsbD 1)) (by decide +kernel)
  exact ⟨t, by decide +kernel, h, by decide, of_decide_eq_true hp⟩

theorem witness_DecodeCorruptHeader :
    State.PixelCountLegal (row 16 [0x800]) ∧ 8 ≤ (row 16 [0x800]).params.pixWords ∧
    ¬HeaderLegal (headerInPixels (row 16 [0x800]).pix) := by decide +kernel

theorem witness_DecodeReadsAllBits :
    (State.PixelCountLegal fullImage ∧ State.DecodeBacked fullImage ∧ HeaderLegal (headerInPixels fullImage.pix) ∧
      (headerInPixels fullImage.pix).len.toNat = (State.decodeScanArgs fullImage).room) ∧
    (State.PixelCountLegal malformed ∧ State.DecodeBacked malformed ∧ HeaderLegal (headerInPixels malformed.pix) ∧
      (headerInPixels malformed.pix).len.toNat ≤ (State.decodeScanArgs malformed).room) ∧
    (State.PixelCountLegal (row 8 [0, 0x10000]) ∧ State.DecodeBacked (row 8 [0, 0x10000]) ∧
      HeaderLegal (headerInPixels (row 8 [0, 0x10000]).pix) ∧ (headerInPixels (row 8 [0, 0x10000]).pix).len = 0) := by
  decide +kernel

theorem witness_DecodeTruncated :
    State.PixelCountLegal truncated ∧ State.DecodeBacked truncated ∧ HeaderLegal (headerInPixels truncated.pix) ∧
    (State.decodeScanArgs truncated).room < (headerInPixels truncated.pix).len.toNat := by decide +kernel

theorem witness_DecodePacksPayload :
    ∃ t, fullImage.pay.wf ∧ exec .decode fullImage = .next t ∧ State.PixelCountLegal fullImage ∧
      HeaderLegal (headerInPixels fullImage.pix) ∧ 3 < t.res.outBytes.toNat ∧ t.res.outBytes.toNat ≤ 4 := by
  obtain ⟨t, h, hp⟩ := exists_of_ends (r := exec .decode fullImage)
    (p := fun t => decide (3 < t.res.outBytes.toNat ∧ t.res.outBytes.toNat ≤ 4)) (by decide +kernel)
  exact ⟨t, by decide +kernel, h, by decide +kernel, by decide +kernel, of_decide_eq_true hp⟩

theorem witness_DecodeWithoutScanWritesNothing :
    ∃ t, exec .decode (row 16 [0x800]) = .next t ∧
      ¬(State.PixelCountLegal (row 16 [0x800]) ∧ HeaderLegal (headerInPixels (row 16 [0x800]).pix)) := by
  obtain ⟨t, h, -⟩ := exists_of_ends (r := exec .decode (row 16 [0x800])) (p := fun _ => true) (by decide +kernel)
  exact ⟨t, h, by decide +kernel⟩

theorem witness_RoundTrip :
    ∃ t, ∃ d : State, (full 4).pix.wf ∧ d.pay.wf ∧ exec .encode (full 4) = .next t ∧ t.status.err = false ∧ d.pix = t.pix ∧
      d.conf.width = (full 4).conf.width ∧ d.conf.height = (full 4).conf.height ∧
      d.params.bitOrder = (full 4).params.bitOrder ∧ d.params ≠ (full 4).params ∧
      State.N (full 4) ≤ d.params.maxPixels.toNat ∧ State.N (full 4) ≤ d.params.pixWords ∧
      (full 4).conf.payloadBytes.toNat ≤ d.params.payBytes := by
  obtain ⟨t, h, hp⟩ := exists_of_ends (r := exec .encode (full 4)) (p := fun t => !t.status.err) (by decide +kernel)
  have hd : fullImage.pay.wf := by decide +kernel
  have hb : (nine (backed 10 4 fullImage)).params.bitOrder = (full 4).params.bitOrder ∧
      (nine (backed 10 4 fullImage)).params ≠ (full 4).params ∧
      State.N (full 4) ≤ (nine (backed 10 4 fullImage)).params.maxPixels.toNat ∧ State.N (full 4) ≤ 10 ∧
      (full 4).conf.payloadBytes.toNat ≤ 4 := by decide +kernel
  exact ⟨t, { nine (backed 10 4 fullImage) with pix := t.pix }, by decide +kernel, hd, h, by simpa using hp, rfl, rfl, rfl, hb⟩

theorem witness_DecodeTwice : ∃ t, truncated.pay.wf ∧ exec .decode truncated = .next t := by
  obtain ⟨t, h, -⟩ := exists_of_ends (r := exec .decode truncated) (p := fun _ => true) (by decide +kernel)
  exact ⟨t, by decide +kernel, h⟩

theorem witness_ResultsIgnoreEarlierResults :
    ∃ s' t : State, s'.params = fullImage.params ∧ s'.conf = fullImage.conf ∧ s'.pix = fullImage.pix ∧
      s'.pay = fullImage.pay ∧ s'.res ≠ fullImage.res ∧ exec .decode fullImage = .next t := by
  obtain ⟨t, h, -⟩ := exists_of_ends (r := exec .decode fullImage) (p := fun _ => true) (by decide +kernel)
  exact ⟨fullImage.setEstimate 5, t, rfl, rfl, rfl, rfl, by decide +kernel, h⟩

theorem witness_FsmStepsRefineExec :
    State.reset.everReset = true ∧ (∀ t ∈ [Turn.stall, .core, .stall], t = .core ∨ t = .stall) ∧
    stepBound .nextHdr State.reset ≤ [Turn.stall, .core, .stall].count .core := by decide

theorem witness_IdleCoreDoesNothing :
    (ordered [.core] State.reset).everReset = true ∧ (ordered [.core] State.reset).fsm = .idle ∧
    (ordered [.core] State.reset).turns = .core :: [] := by decide

/-- V-ENC-FULL's ENCODE in its scan, one payload bit done. -/
def scanning : State := { (full 4).setScan 1 9 289 with fsm := .encodeScan }

theorem witness_StepKeepsInv : ∃ t, Inv scanning ∧ step scanning = .next t := by
  obtain ⟨t, h, -⟩ := exists_of_ends (r := step scanning) (p := fun _ => true) (by decide +kernel)
  refine ⟨t, ⟨by decide +kernel, by decide +kernel, ⟨by decide, by decide, by decide, by decide⟩, ?_⟩, h⟩
  exact ⟨by decide +kernel, by decide +kernel, by decide +kernel, by decide +kernel, .inr ⟨1, by decide +kernel, by decide +kernel⟩⟩

theorem witness_ParamsNeverChange : ∃ t, step scanning = .next t :=
  (exists_of_ends (p := fun _ => true) (by decide +kernel)).imp fun _ h => h.1

theorem witness_BusyBlockKeepsConfiguration :
    ∃ t, step scanning = .next t ∧ scanning.busy = true ∧ scanning.turns.head? ≠ some .reset := by
  obtain ⟨t, h, -⟩ := exists_of_ends (r := step scanning) (p := fun _ => true) (by decide +kernel)
  exact ⟨t, h, by decide, by decide⟩

theorem witness_ResetInput : (ordered [.reset] scanning).turns = .reset :: [] := by decide

theorem witness_CommandsAfterReset : (busy e2e).resetInput.conf = Conf.reset := by decide

theorem witness_NothingBeforeReset :
    ({ State.reset with everReset := false } : State).everReset = false ∧
    ({ State.reset with everReset := false } : State).turns.head? ≠ some .reset := by decide

theorem witness_RegisterMap : 0x3C < 0x100 ∧ 0x3C % 4 = 0 ∧ (∀ r : Reg, r.offset ≠ 0x3C) ∧ ∀ r : Reg, r.offset ≠ 0xFC := by
  refine ⟨by decide, by decide, ?_, ?_⟩ <;> intro r <;> cases r <;> decide

theorem witness_RegisterWrites :
    ∀ r ∈ [Reg.width, Reg.pixelIndex, Reg.cursorOutLo, Reg.hdrMaxY],
      r ≠ .cmd ∧ r ≠ .status ∧
      (running [.write r.offset 4 5] State.reset).program = .write (State.reset.params.base + r.offset) 4 5 :: [] ∧
      State.HostNext (running [.write r.offset 4 5] State.reset) [] ∧
      State.HostNext (ordered [.host, .core] (running [.write r.offset 4 5] State.reset)) [.core] := by
  decide +kernel

theorem witness_ReservedOffsets :
    State.HostNext (running [.read 0x3C 4] State.reset) [] ∧
    State.HostNext (ordered [.host] (running [.write 0xFC 4 1] State.reset)) [] ∧
    0x3C < 0x100 ∧ 0x3C % 4 = 0 ∧ (∀ r : Reg, r.offset ≠ 0x3C) ∧
    0xFC < 0x100 ∧ 0xFC % 4 = 0 ∧ (∀ r : Reg, r.offset ≠ 0xFC) ∧
    (running [.read 0x3C 4] State.reset).program = .read (State.reset.params.base + 0x3C) 4 :: [] ∧
    (running [.write 0xFC 4 1] State.reset).program = .write (State.reset.params.base + 0xFC) 4 1 :: [] := by
  refine ⟨by decide, by decide, by decide, by decide, ?_, by decide, by decide, ?_, by decide, by decide⟩ <;>
    (intro r; cases r <;> decide)

theorem witness_StatusWriteOneToClear :
    State.HostNext (running [.write 4 4 6] State.reset) [] ∧
    State.HostNext (ordered [.host, .reset] (running [.write 4 4 6] State.reset)) [.reset] ∧
    (running [.write 4 4 6] State.reset).program = .write (State.reset.params.base + 4) 4 6 :: [] := by decide

theorem witness_BusyWritesDropped :
    ∀ o ∈ [0, 4, 0x10, 0x3C, 0xFC],
      (ordered [.host] (running [.write o 4 1] scanning)).everReset = true ∧
      (ordered [.host] (running [.write o 4 1] scanning)).turns = .host :: [] ∧
      (ordered [.host] (running [.write o 4 1] scanning)).busy = true ∧ o < 0x100 ∧ o % 4 = 0 ∧
      (ordered [.host] (running [.write o 4 1] scanning)).program = .write (scanning.params.base + o) 4 1 :: [] := by
  decide +kernel

theorem witness_BusyReads_reserved :
    0x3C < 0x100 ∧ 0x3C % 4 = 0 ∧ (∀ r : Reg, r.offset ≠ 0x3C) ∧
    (ordered [.host] (running [.read 0x3C 4] (busy State.reset))).turns = .host :: [] ∧
    (ordered [.host] (running [.read 0x3C 4] (busy State.reset))).busy = true ∧
    (ordered [.host] (running [.read 0x3C 4] (busy State.reset))).program =
      .read (State.reset.params.base + 0x3C) 4 :: [] := by
  refine ⟨by decide, by decide, ?_, by decide, by decide, by decide⟩
  intro r; cases r <;> decide

theorem witness_BusyReads :
    ∀ r ∈ [Reg.status, Reg.cmd, Reg.width, Reg.cursorOutLo],
      (ordered [.host] (running [.read r.offset 4] (busy State.reset))).everReset = true ∧
      (ordered [.host] (running [.read r.offset 4] (busy State.reset))).turns = .host :: [] ∧
      (ordered [.host] (running [.read r.offset 4] (busy State.reset))).busy = true ∧
      StatusOk (ordered [.host] (running [.read r.offset 4] (busy State.reset))) ∧
      (ordered [.host] (running [.read r.offset 4] (busy State.reset))).program =
        .read (State.reset.params.base + r.offset) 4 :: [] := by
  intro r _
  exact ⟨rfl, rfl, rfl, ⟨by simp [ordered, running, busy, State.reset, Status.reset],
    by simp [ordered, running, busy, State.reset, Status.reset], by simp [ordered, running, busy, State.reset, Status.reset],
    by simp [ordered, running, busy, State.reset, Status.reset]⟩,
    by simp [ordered, running, busy, State.reset, Config.Params.default]⟩

theorem witness_IdleReads :
    State.HostNext (running [.read 0x58 4] State.reset) [] ∧
    State.HostNext (ordered [.host, .host] (running [.read 0x58 4] State.reset)) [.host] ∧
    (running [.read 0x58 4] State.reset).program = .read (State.reset.params.base + Reg.offset .bitsDone) 4 :: [] := by
  decide

theorem witness_MisalignedAccessRefused :
    ∀ q ∈ [(0x10, 2), (0x12, 4), (0xFF, 4)],
      (ordered [.host] (running [.read q.1 q.2] State.reset)).everReset = true ∧
      (ordered [.host] (running [.read q.1 q.2] State.reset)).turns = .host :: [] ∧ q.1 < 0x100 ∧ (q.2 ≠ 4 ∨ q.1 % 4 ≠ 0) ∧
      (ordered [.host] (running [.read q.1 q.2] State.reset)).program = .read (State.reset.params.base + q.1) q.2 :: [] ∧
      State.HostNext (running [.read q.1 q.2] State.reset) [] := by
  decide

theorem witness_HostMemoryRefusedWhileBusy :
    ∀ op ∈ [HostOp.storePix 0 1, .loadPix 0, .storePay 0 1, .loadPay 0],
      (ordered [.host] (running [op] (busy State.reset))).everReset = true ∧
      (ordered [.host] (running [op] (busy State.reset))).turns = .host :: [] ∧
      (ordered [.host] (running [op] (busy State.reset))).busy = true ∧
      (ordered [.host] (running [op] (busy State.reset))).program = op :: [] := by decide

theorem witness_HostFillsMemory :
    e2e.pix.wf ∧ e2e.pay.wf ∧
    (∀ op ∈ [HostOp.storePix 0xFFFFFFFF 1, .storePay 0x1FFFFFFF 1, .loadPix 0xFFFFFFFF, .loadPay 0x1FFFFFFF],
      State.HostNext (running [op] e2e) [] ∧ State.HostNext (ordered [.host] (running [op] e2e)) [] ∧
      (running [op] e2e).program = op :: []) ∧
    0xFFFFFFFF < e2e.params.pixWords ∧ 0x1FFFFFFF < e2e.params.payBytes := by
  decide +kernel

theorem witness_WriteAtCompletionBothOrders :
    ∃ t, (running [.write 0x10 4 3] (busy State.reset)).everReset = true ∧
      (running [.write 0x10 4 3] (busy State.reset)).busy = true ∧
      (running [.write 0x10 4 3] (busy State.reset)).program = .write (State.reset.params.base + 0x10) 4 3 :: [] ∧
      coreStep (running [.write 0x10 4 3] (busy State.reset)) = .next t ∧ t.busy = false := by
  obtain ⟨t, h, hp⟩ := exists_of_ends (r := coreStep (running [.write 0x10 4 3] (busy State.reset))) (p := fun t => !t.busy)
    (by decide +kernel)
  exact ⟨t, by decide, by decide, by decide, h, by simpa using hp⟩

theorem witness_WaitPollsStatus :
    ∀ s ∈ [State.reset, busy State.reset],
      (ordered [.host] (running [.wait] s)).everReset = true ∧ (ordered [.host] (running [.wait] s)).turns = .host :: [] ∧
      (ordered [.host] (running [.wait] s)).program = .wait :: [] := by decide

end Sys2Proof.Tests
end

/-! ## What a step can do, and that it keeps the parameters -/

namespace Sys2Proof.Machine

/-- Whose move took `s` to `t`, with the guard it was made under (R166, R180, R193; log 1): one constructor per turn
an order names, and two for the moves made where no order is given. -/
inductive Moved (s t : State) : Prop
  | reset (ts : List Turn) (turns : s.turns = .reset :: ts) (eq : ({ s with turns := ts } : State).resetInput = t)
  | stall (ts : List Turn) (turns : s.turns = .stall :: ts) (ever : s.everReset = true) (eq : { s with turns := ts } = t)
  | core (ts : List Turn) (turns : s.turns = .core :: ts) (ever : s.everReset = true)
      (eq : coreStep { s with turns := ts } = .next t)
  | host (ts : List Turn) (turns : s.turns = .host :: ts) (ever : s.everReset = true)
      (eq : hostMove startCommand { s with turns := ts } = .next t)
  | freeCore (turns : s.turns = []) (ever : s.everReset = true) (busy : s.busy = true) (eq : coreStep s = .next t)
  | freeHost (turns : s.turns = []) (ever : s.everReset = true) (idle : s.busy = false)
      (eq : hostMove runCommand s = .next t)

/-- Every step to a next state is one of these moves. -/
theorem step_moved {s t : State} (h : step s = .next t) : Moved s t := by
  unfold step machineStep at h
  cases hts : s.turns with
  | nil =>
    simp only [hts, defaultTurn] at h
    split_ifs at h with he hb
    · exact .freeCore hts he hb h
    · exact .freeHost hts he (Bool.eq_false_iff.2 hb) h
  | cons x ts =>
    simp only [hts] at h
    cases x with
    | reset => exact .reset ts hts (next_inj.1 h)
    | host =>
      simp only [takeTurn] at h
      split_ifs at h with he
      exact .host ts hts he h
    | core =>
      simp only [takeTurn] at h
      split_ifs at h with he
      exact .core ts hts he h
    | stall =>
      simp only [takeTurn] at h
      split_ifs at h with he
      exact .stall ts hts he (next_inj.1 h)

/-! ### Commands -/

/-- A command run whole keeps the parameters. -/
theorem exec_params {i : Instr} {s t : State} (h : exec i s = .next t) : t.params = s.params := by
  cases i with
  | nextHdr => cases h; rfl
  | nextPay =>
    rw [execNextPay_eq] at h
    split_ifs at h <;> cases h <;> rfl
  | isWritable =>
    rw [execIsWritable_eq] at h
    split_ifs at h <;> cases h <;> rfl
  | estimate =>
    rw [execEstimate_eq] at h
    split_ifs at h <;> cases h <;> rfl
  | readHeader =>
    rw [execReadHeader_eq] at h
    split_ifs at h <;> cases h <;> rfl
  | encode => rw [(encode_frame h).1]
  | decode => rw [(decode_frame h).1]

/-- What a CMD write does keeps the parameters, the illegal word included (R73). -/
theorem runCommand_params {w : Word} {s t : State} (h : runCommand w s = .next t) : t.params = s.params := by
  unfold runCommand at h
  cases hw : decode w with
  | ok i => rw [hw] at h; exact exec_params h
  | error _ => rw [hw] at h; cases h; rfl

/-- A command's start keeps the parameters. -/
theorem startCommand_params {w : Word} {s t : State} (h : startCommand w s = .next t) : t.params = s.params := by
  unfold startCommand at h
  cases hw : decode w <;> rw [hw] at h <;> cases h <;> rfl

/-! ### The host's moves -/

@[simp] theorem writeReg_params (r : Reg) (v : Word) (s : State) : (writeReg r v s).params = s.params := by
  cases r <;> rfl

@[simp] theorem busRead_params (r : Reg) (s : State) : (busRead r s).params = s.params := by
  unfold busRead
  split_ifs <;> rfl

/-- A host access that answers a next state answers the one it names. -/
theorem hostMemory_next {b : Bool} {f : Fault} {s s' t : State} (h : hostMemory b f s s' = .next t) : s' = t := by
  unfold hostMemory at h
  split_ifs at h
  exact next_inj.1 h

/-- A host write keeps the parameters, if a CMD write does. -/
theorem busWrite_params {c : Word → State → Result} (hc : ∀ v s t, c v s = .next t → t.params = s.params)
    {r : Option Reg} {v : Word} {s t : State} (h : busWrite c r v s = .next t) : t.params = s.params := by
  unfold busWrite at h
  split_ifs at h
  · cases h; rfl
  · split at h
    · exact hc _ _ _ h
    · cases h; exact writeReg_params _ _ _
    · cases h; rfl

/-- A line of the host's program keeps the parameters, if a CMD write does. -/
theorem hostMove_params {c : Word → State → Result} (hc : ∀ v s t, c v s = .next t → t.params = s.params)
    {s t : State} (h : hostMove c s = .next t) : t.params = s.params := by
  cases hp : s.program with
  | nil => unfold hostMove at h; rw [hp] at h; cases h; rfl
  | cons op rest =>
    cases op with
    | write a size v =>
      rw [hostMove_write hp] at h
      split at h
      · exact (busWrite_params hc h).trans rfl
      · exact (busWrite_params hc h).trans rfl
      · cases h
      · cases h
    | read a size =>
      rw [hostMove_read hp] at h
      split at h
      · cases h; exact busRead_params _ _
      · cases h; rfl
      · cases h
      · cases h
    | wait => rw [hostMove_wait hp] at h; cases h; rfl
    | storePix i v => rw [hostMove_storePix hp] at h; cases hostMemory_next h; rfl
    | storePay a v => rw [hostMove_storePay hp] at h; cases hostMemory_next h; rfl
    | loadPix i => rw [hostMove_loadPix hp] at h; cases hostMemory_next h; rfl
    | loadPay a => rw [hostMove_loadPay hp] at h; cases hostMemory_next h; rfl

/-- Settles O42: whoever moves, the parameters stay (R9). -/
theorem paramsNeverChange : Obligations.ParamsNeverChange := by
  intro s t h
  cases step_moved h with
  | reset ts _ eq => subst eq; rfl
  | stall ts _ _ eq => subst eq; rfl
  | core ts _ _ eq => exact (coreStep_frame eq).1
  | host ts _ _ eq => exact (hostMove_params (fun _ _ _ => startCommand_params) eq).trans rfl
  | freeCore _ _ _ eq => exact (coreStep_frame eq).1
  | freeHost _ _ _ eq => exact hostMove_params (fun _ _ _ => runCommand_params) eq

end Sys2Proof.Machine

/-! ## What a host's move and a command leave, and that every step keeps the invariant -/

namespace Sys2Proof.Machine

/-! ### The host's moves, said once -/

/-- What a host's move does to the block (R21, R59, R79, R186 to R188): reads, polls, loads and writes to reserved
offsets change the host's side only; `c` is what a CMD write does. -/
inductive HostMoved (c : Word → State → Result) (s t : State) : Prop
  | side (p : List HostOp) (d : Word) (n : Nat) (eq : { s with program := p, readData := d, draws := n } = t)
  | dropped (p : List HostOp) (busy : s.busy = true) (eq : dropWrite { s with program := p } = t)
  | cmd (v : Word) (p : List HostOp) (idle : s.busy = false) (eq : c v { s with program := p } = .next t)
  | reg (r : Reg) (v : Word) (p : List HostOp) (idle : s.busy = false) (eq : writeReg r v { s with program := p } = t)
  | storePix (i : Nat) (v : Word) (p : List HostOp) (eq : { s with program := p, pix := s.pix.write i v } = t)
  | storePay (a : Nat) (v : Byte) (p : List HostOp) (eq : { s with program := p, pay := s.pay.write a v } = t)

/-- A host write into the bank is dropped, or made while idle. -/
theorem busWrite_moved {c : Word → State → Result} {r : Option Reg} {v : Word} {s t : State} {p : List HostOp}
    (h : busWrite c r v { s with program := p } = .next t) : HostMoved c s t := by
  unfold busWrite at h
  split_ifs at h with hb
  · exact .dropped p hb (next_inj.1 h)
  · have hi : s.busy = false := Bool.eq_false_iff.2 hb
    split at h
    · exact .cmd v p hi h
    · exact .reg _ v p hi (next_inj.1 h)
    · exact .side p s.readData s.draws (next_inj.1 h)

/-- A host read of a register changes the host's side only (R62, R187). -/
theorem busRead_moved (c : Word → State → Result) (r : Reg) (s : State) (p : List HostOp) :
    HostMoved c s (busRead r { s with program := p }) := by
  unfold busRead
  split_ifs
  · exact .side p _ _ rfl
  · exact .side p _ s.draws rfl

/-- Every host move to a next state is one of these. -/
theorem hostMove_moved {c : Word → State → Result} {s t : State} (h : hostMove c s = .next t) : HostMoved c s t := by
  cases hp : s.program with
  | nil =>
    unfold hostMove at h
    rw [hp] at h
    exact .side s.program s.readData s.draws (next_inj.1 h)
  | cons op rest =>
    cases op with
    | write a size v =>
      rw [hostMove_write hp] at h
      split at h
      · exact busWrite_moved h
      · exact busWrite_moved h
      · cases h
      · cases h
    | read a size =>
      rw [hostMove_read hp] at h
      split at h
      · cases h; exact busRead_moved c _ s rest
      · exact .side rest 0 s.draws (next_inj.1 h)
      · cases h
      · cases h
    | wait => rw [hostMove_wait hp] at h; exact .side _ _ s.draws (next_inj.1 h)
    | storePix i v => rw [hostMove_storePix hp] at h; exact .storePix i v rest (hostMemory_next h)
    | storePay a v => rw [hostMove_storePay hp] at h; exact .storePay a v rest (hostMemory_next h)
    | loadPix i => rw [hostMove_loadPix hp] at h; exact .side rest _ s.draws (hostMemory_next h)
    | loadPay a => rw [hostMove_loadPay hp] at h; exact .side rest _ s.draws (hostMemory_next h)

/-- Settles O43: while busy neither an FSM step nor a host's move writes a configuration register (R21, R186). -/
theorem busyBlockKeepsConfiguration : Obligations.BusyBlockKeepsConfiguration := by
  intro s t h hb hr
  cases step_moved h with
  | reset ts hts _ => exact absurd (by rw [hts]; rfl) hr
  | stall ts _ _ eq => subst eq; rfl
  | core ts _ _ eq => exact (coreStep_frame eq).2
  | freeCore _ _ _ eq => exact (coreStep_frame eq).2
  | freeHost _ _ idle _ => exact absurd (hb.symm.trans idle) (by decide)
  | host ts _ _ eq =>
    cases hostMove_moved eq with
    | side _ _ _ eq | dropped _ _ eq | storePix _ _ _ eq | storePay _ _ _ eq => subst eq; rfl
    | cmd _ _ idle _ | reg _ _ _ idle _ => exact absurd (hb.symm.trans idle) (by decide)

/-! ### How a command ends -/

/-- The codes of R160 are 1 to 7. -/
theorem ErrKind.code_range (e : ErrKind) : 1 ≤ e.code.toNat ∧ e.code.toNat ≤ 7 := by cases e <;> decide

/-- A command that does not scan completes, or ends with InvalidConfiguration and its result registers as they were. -/
theorem exec_ended {i : Instr} (hn : i ≠ .encode) (hd : i ≠ .decode) {s t : State} (h : exec i s = .next t) :
    (∃ r, t = s.endedOk r) ∨ t = s.endedErr 1 s.res := by
  cases i with
  | nextHdr => exact .inl ⟨_, (next_inj.1 h).symm⟩
  | nextPay =>
    rw [execNextPay_eq] at h
    split_ifs at h
    · exact .inl ⟨_, (next_inj.1 h).symm⟩
    · exact .inr (next_inj.1 h).symm
  | isWritable =>
    rw [execIsWritable_eq] at h
    split_ifs at h
    · exact .inl ⟨_, (next_inj.1 h).symm⟩
    · exact .inr (next_inj.1 h).symm
  | estimate =>
    rw [execEstimate_eq] at h
    split_ifs at h
    · exact .inl ⟨_, (next_inj.1 h).symm⟩
    · exact .inr (next_inj.1 h).symm
  | readHeader =>
    rw [execReadHeader_eq] at h
    split_ifs at h
    · exact .inl ⟨_, (next_inj.1 h).symm⟩
    · exact .inr (next_inj.1 h).symm
  | encode => exact absurd rfl hn
  | decode => exact absurd rfl hd

/-- A command leaves the block idle, with ERR set exactly with one of the codes 1 to 6 (R160, R163, R164). -/
theorem exec_status {i : Instr} {s t : State} (h : exec i s = .next t) :
    t.fsm = .idle ∧
      (t.status.err = false ∧ t.status.errCode = 0 ∨
        t.status.err = true ∧ 1 ≤ t.status.errCode.toNat ∧ t.status.errCode.toNat ≤ 6) := by
  by_cases hn : i = .encode
  · subst hn
    obtain ⟨ht, -, -, hok | ⟨he, h1, h3⟩, -⟩ := encode_frame h
    · exact ⟨by rw [ht], .inl hok⟩
    · exact ⟨by rw [ht], .inr ⟨he, h1, by omega⟩⟩
  by_cases hd : i = .decode
  · subst hd
    obtain ⟨ht, -, -, hs, -⟩ := decode_frame h
    exact ⟨by rw [ht], hs⟩
  obtain ⟨r, rfl⟩ | rfl := exec_ended hn hd h
  · exact ⟨rfl, .inl ⟨rfl, rfl⟩⟩
  · exact ⟨rfl, .inr ⟨rfl, show 1 ≤ (1#4).toNat ∧ (1#4).toNat ≤ 6 by decide⟩⟩

/-- ENCODE keeps pixel memory canonical. -/
theorem encode_pix_wf {s t : State} (hw : s.pix.wf) (h : exec .encode s = .next t) : t.pix.wf := by
  by_cases hl : s.EncodeLegal
  · by_cases hf : s.FillOk
    · exact (encode_pixels hw hl hf h).1
    · rw [execEncode_eq, if_pos hl, if_neg hf] at h
      cases h; exact hw
  · rw [execEncode_eq, if_neg hl] at h
    cases h; exact hw

/-- DECODE keeps payload memory canonical. -/
theorem decode_pay_wf {s t : State} (hw : s.pay.wf) (h : exec .decode s = .next t) : t.pay.wf := by
  by_cases hl : s.PixelCountLegal
  · by_cases hh : HeaderLegal (headerInPixels s.pix)
    · obtain ⟨n, q, ptr, hroom, hlen, -, hpay, -⟩ := decode_inv h hl hh
      rw [hpay]
      exact (decode_packed hw hl hh hroom (lt_of_le_of_lt hlen (decodeScanArgs_len_lt s))).wf
    · rw [execDecode_eq, if_pos hl, if_neg hh] at h
      split_ifs at h
      cases h; exact hw
  · rw [execDecode_eq, if_neg hl] at h
    cases h; exact hw

/-- A command keeps both memories canonical. -/
theorem exec_wf {i : Instr} {s t : State} (hx : s.pix.wf) (hy : s.pay.wf) (h : exec i s = .next t) :
    t.pix.wf ∧ t.pay.wf := by
  by_cases hn : i = .encode
  · subst hn
    exact ⟨encode_pix_wf hx h, by rw [(encode_frame h).1]; exact hy⟩
  by_cases hd : i = .decode
  · subst hd
    exact ⟨by rw [(decode_frame h).1]; exact hx, decode_pay_wf hy h⟩
  obtain ⟨r, rfl⟩ | rfl := exec_ended hn hd h
  · exact ⟨hx, hy⟩
  · exact ⟨hx, hy⟩

/-! ### The invariant of an idle block, and of one that ends or goes on with a command -/

/-- An idle block is in the invariant if its memories are canonical and ERR is set exactly with a code up to 7. -/
theorem inv_idle {t : State} (hf : t.fsm = .idle) (hx : t.pix.wf) (hy : t.pay.wf)
    (hs : t.status.err = false ∧ t.status.errCode = 0 ∨
      t.status.err = true ∧ 1 ≤ t.status.errCode.toNat ∧ t.status.errCode.toNat ≤ 7) : Inv t := by
  refine ⟨hx, hy, ⟨?_, ?_, ?_, ?_⟩, by unfold PhaseOk; rw [hf]; trivial⟩
  · rintro he hc
    obtain ⟨he', -⟩ | ⟨-, h1, -⟩ := hs
    · exact absurd (he.symm.trans he') (by decide)
    · rw [hc] at h1; exact absurd h1 (by decide)
  · intro he
    obtain ⟨-, hc⟩ | ⟨he', -⟩ := hs
    · exact hc
    · exact absurd (he.symm.trans he') (by decide)
  · intro hb; exact absurd hf ((State.busy_eq_true t).1 hb)
  · obtain ⟨-, hc⟩ | ⟨-, -, h7⟩ := hs
    · rw [hc]; decide
    · exact h7

/-- Settles O41: after reset the block is idle, with empty memories and no error (R180). -/
theorem resetMeetsInv : Obligations.ResetMeetsInv :=
  inv_idle rfl Memory.wf_nil Memory.wf_nil (.inl ⟨rfl, rfl⟩)

/-- Raising an error ends in the invariant (R163). -/
theorem inv_raise {u : State} (e : ErrKind) (hx : u.pix.wf) (hy : u.pay.wf) : Inv (u.raise e) :=
  inv_idle rfl hx hy (.inr ⟨rfl, e.code_range⟩)

/-- A running command has raised no error yet (R25). -/
theorem Inv.no_error {s : State} (h : Inv s) (hb : s.fsm ≠ .idle) :
    s.status.done = false ∧ s.status.err = false ∧ s.status.errCode = 0 := by
  obtain ⟨hd, he⟩ := h.status.busyClear ((State.busy_eq_true s).2 hb)
  exact ⟨hd, he, h.status.noErrNoCode he⟩

/-- Normal completion ends in the invariant (R164). -/
theorem Inv.complete {s u : State} (h : Inv s) (hb : s.fsm ≠ .idle) (hs : u.status = s.status) (hx : u.pix.wf)
    (hy : u.pay.wf) : Inv u.complete := by
  obtain ⟨-, he, hc⟩ := h.no_error hb
  exact inv_idle rfl hx hy (.inl ⟨by rw [← he, ← hs]; rfl, by rw [← hc, ← hs]; rfl⟩)

/-- A command that goes on stays in the invariant if its phase allows the state. -/
theorem Inv.running {s t : State} (h : Inv s) (hb : s.fsm ≠ .idle) (hs : t.status = s.status) (hf : t.fsm ≠ .idle)
    (hx : t.pix.wf) (hy : t.pay.wf) (hp : PhaseOk t) : Inv t := by
  have hbusy : t.busy = s.busy := ((State.busy_eq_true t).2 hf).trans ((State.busy_eq_true s).2 hb).symm
  exact ⟨hx, hy, statusOk_mk h.status hs hbusy, hp⟩

/-! ### The FSM's steps keep the invariant -/

/-- What an iteration of a scan does: it ends the scan, or moves one bit, or skips a pixel (R131, R132). -/
inductive ScanStepped (a : ScanArgs) (onEnd : ScanEnd → Result) (s t : State) : Prop
  | done (eq : onEnd (.done s) = .next t)
  | exhausted (eq : onEnd (.exhausted s) = .next t)
  | unbacked (f : Fault) (eq : onEnd (.unbacked f) = .next t)
  | bit (more : s.res.bitsDone.toNat < a.len) (inside : s.res.scanPixel.toNat < a.n) (eq : scanBit a s = t)
  | skip (inside : s.res.scanPixel.toNat < a.n) (eq : skipPixel s = t)

theorem scanStep_stepped {a : ScanArgs} {onEnd : ScanEnd → Result} {s t : State}
    (h : scanStep a onEnd s = .next t) : ScanStepped a onEnd s t := by
  unfold scanStep at h
  split_ifs at h with hmore hout hw
  · exact .exhausted h
  · split at h
    · exact .unbacked _ h
    · exact .bit hmore (by omega) (next_inj.1 h)
  · exact .skip (by omega) (next_inj.1 h)
  · exact .done h

/-- Moving a bit changes no field that the checks or the phase look at. -/
theorem scanBit_frame (a : ScanArgs) (s : State) :
    (scanBit a s).params = s.params ∧ (scanBit a s).conf = s.conf ∧ (scanBit a s).res.hdr = s.res.hdr ∧
      (scanBit a s).status = s.status ∧ (scanBit a s).fsm = s.fsm := by
  unfold scanBit
  cases a.dir <;> simp [scanAct]

/-- Moving a bit keeps both memories canonical. -/
theorem scanBit_wf (a : ScanArgs) {s : State} (hx : s.pix.wf) (hy : s.pay.wf) :
    (scanBit a s).pix.wf ∧ (scanBit a s).pay.wf := by
  cases hd : a.dir with
  | write =>
    unfold scanBit
    rw [hd]
    exact ⟨wf_pixWriteBit hx _ _, hy⟩
  | read =>
    obtain ⟨hpay, hpix⟩ := scanBit_of_read a hd s hy
    exact ⟨by rw [hpix]; exact hx, hpay⟩

/-- DECODE's scan depends on the configuration and the header only. -/
theorem decodeArgs_congr {s t : State} (hc : t.conf = s.conf) (hh : t.res.hdr = s.res.hdr) :
    decodeArgs t = decodeArgs s := by
  unfold decodeArgs
  rw [hc, hh]

/-- `8 <= N <= MAX_PIXELS` depends on the parameters and the configuration only. -/
theorem pixelCountLegal_congr {s t : State} (hp : t.params = s.params) (hc : t.conf = s.conf) :
    t.PixelCountLegal = s.PixelCountLegal := by
  unfold State.PixelCountLegal State.N
  rw [hp, hc]

theorem phaseOk_encodeScan {s : State} (hf : s.fsm = .encodeScan) (hl : s.EncodeLegal)
    (hs : ScanOk (encodeArgs s) s) : PhaseOk s := by
  unfold PhaseOk
  rw [hf]
  exact ⟨hl, hs⟩

theorem phaseOk_decodeScan {s : State} (hf : s.fsm = .decodeScan) (hl : s.PixelCountLegal)
    (hh : HeaderLegal s.res.hdr) (hs : ScanOk (decodeArgs s) s) : PhaseOk s := by
  unfold PhaseOk
  rw [hf]
  exact ⟨hl, hh, hs⟩

section FsmSteps

variable {s t : State} (h : Inv s) (hb : s.fsm ≠ .idle)
include h hb

theorem inv_estimateStep {i c : Nat} (hl : s.EstimateLegal) (e : estimateStep i c s = .next t) : Inv t := by
  simp only [estimateStep] at e
  split_ifs at e <;> cases e
  · exact h.running hb rfl (by simp) h.pixWf h.payWf hl
  · exact h.complete hb rfl h.pixWf h.payWf

theorem inv_encodeEstStep {i c : Nat} (hl : s.EncodeLegal) (e : encodeEstStep i c s = .next t) : Inv t := by
  simp only [encodeEstStep, encodeEstEnd] at e
  split_ifs at e <;> cases e
  · exact h.running hb rfl (by simp) h.pixWf h.payWf hl
  · exact h.running hb rfl (by simp) h.pixWf h.payWf ⟨hl, by decide⟩
  · exact inv_raise _ h.pixWf h.payWf

theorem inv_encodeHdrStep {i : Nat} {idx : BitIndex} (hl : s.EncodeLegal) (e : encodeHdrStep i idx s = .next t) :
    Inv t := by
  simp only [encodeHdrStep] at e
  split_ifs at e with hi <;> cases e
  · exact h.running hb rfl (by simp) (wf_pixWriteBit h.pixWf _ _) h.payWf ⟨hl, hi⟩
  · exact h.running hb rfl (by simp) (wf_pixWriteBit h.pixWf _ _) h.payWf ⟨hl, scanOk_init _ _ _⟩

theorem inv_readHdrStep {i : Nat} {idx : BitIndex} {bits : BitVec 192} (hl : s.PixelCountLegal)
    (e : readHdrStep i idx bits s = .next t) : Inv t := by
  simp only [readHdrStep] at e
  split_ifs at e with hi <;> cases e
  · exact h.running hb rfl (by simp) h.pixWf h.payWf ⟨hl, hi⟩
  · exact h.complete hb rfl h.pixWf h.payWf

theorem inv_decodeHdrStep {i : Nat} {idx : BitIndex} {bits : BitVec 192} (hl : s.PixelCountLegal)
    (e : decodeHdrStep i idx bits s = .next t) : Inv t := by
  simp only [decodeHdrStep] at e
  split_ifs at e with hi <;> cases e
  · exact h.running hb rfl (by simp) h.pixWf h.payWf ⟨hl, hi⟩
  · exact h.running hb rfl (by simp) h.pixWf h.payWf hl

theorem inv_decodeValidateStep (hl : s.PixelCountLegal) (e : decodeValidateStep s = .next t) : Inv t := by
  simp only [decodeValidateStep] at e
  split_ifs at e with hv <;> cases e
  · exact h.running hb rfl (by simp) h.pixWf h.payWf ⟨hl, (validHeader_iff _).1 hv, scanOk_init _ _ _⟩
  · exact inv_raise _ h.pixWf h.payWf

/-- A command's first step: what it starts has passed its CHECK (R161). -/
theorem inv_startStep {i : Instr} (e : startStep i s = .next t) : Inv t := by
  have hraise (k : ErrKind) : Inv (s.raise k) := inv_raise k h.pixWf h.payWf
  cases i with
  | nextHdr => cases e; exact h.complete hb rfl h.pixWf h.payWf
  | nextPay =>
    simp only [startStep, nextPayBody] at e
    split_ifs at e <;> cases e
    · exact h.complete hb rfl h.pixWf h.payWf
    · exact hraise _
  | isWritable =>
    simp only [startStep, isWritableBody] at e
    split_ifs at e <;> cases e
    · exact h.complete hb rfl h.pixWf h.payWf
    · exact hraise _
  | estimate =>
    simp only [startStep] at e
    split_ifs at e with hc
    · exact inv_estimateStep h hb ((estimateConfOk_iff s).1 hc) e
    · cases e; exact hraise _
  | encode =>
    simp only [startStep] at e
    split_ifs at e with hc <;> cases e
    · exact h.running hb rfl (by simp) h.pixWf h.payWf ((encodeConfOk_iff s).1 hc)
    · exact hraise _
  | decode =>
    simp only [startStep] at e
    split_ifs at e with hc <;> cases e
    · exact h.running hb rfl (by simp) h.pixWf h.payWf ⟨(pixelCountOk_iff s).1 hc, by decide⟩
    · exact hraise _
  | readHeader =>
    simp only [startStep] at e
    split_ifs at e with hc
    · exact inv_readHdrStep h hb ((pixelCountOk_iff s).1 hc) e
    · cases e; exact hraise _

/-- ENCODE's phase SCAN: BITPTR stays -1 or a framed bit of SCAN_PIXEL (R133). -/
theorem inv_encodeScan (hf : s.fsm = .encodeScan) (hl : s.EncodeLegal) (hs : ScanOk (encodeArgs s) s)
    (e : scanStep (encodeArgs s) encodeScanEnd s = .next t) : Inv t := by
  have hn : (encodeArgs s).n < 2 ^ 32 := pixelCount_lt hl.1.2.2
  cases scanStep_stepped e with
  | done eq => cases eq; exact h.complete hb rfl h.pixWf h.payWf
  | exhausted eq => cases eq; exact inv_raise _ h.pixWf h.payWf
  | unbacked _ eq => cases eq
  | skip inside eq =>
    subst eq
    exact h.running hb rfl hb h.pixWf h.payWf (phaseOk_encodeScan hf hl (scanOk_skip hn hs inside))
  | bit more inside eq =>
    subst eq
    obtain ⟨hx, hy⟩ := scanBit_wf (encodeArgs s) h.pixWf h.payWf
    have hbit := scanOk_bit hl.1.1.1 hl.1.1.2 hn (encodeArgs_len_lt s hl) hs more inside
    exact h.running hb rfl hb hx hy (phaseOk_encodeScan hf hl hbit)

/-- DECODE's phase SCAN: the header it reads by stays as it is, so its scan's arguments do (R140). -/
theorem inv_decodeScan (hf : s.fsm = .decodeScan) (hl : s.PixelCountLegal) (hh : HeaderLegal s.res.hdr)
    (hs : ScanOk (decodeArgs s) s) (e : scanStep (decodeArgs s) decodeScanStepEnd s = .next t) : Inv t := by
  have hn : (decodeArgs s).n < 2 ^ 32 := pixelCount_lt hl
  cases scanStep_stepped e with
  | done eq => cases eq; exact h.running hb rfl (by simp) h.pixWf h.payWf ⟨hl, hh⟩
  | exhausted eq => cases eq; exact inv_raise _ h.pixWf h.payWf
  | unbacked _ eq => cases eq
  | skip inside eq =>
    subst eq
    exact h.running hb rfl hb h.pixWf h.payWf (phaseOk_decodeScan hf hl hh (scanOk_skip hn hs inside))
  | bit more inside eq =>
    subst eq
    obtain ⟨hx, hy⟩ := scanBit_wf (decodeArgs s) h.pixWf h.payWf
    obtain ⟨hpar, hconf, hhdr, hst, hfsm⟩ := scanBit_frame (decodeArgs s) s
    have hbit := scanOk_bit hh.1.1 hh.1.2 hn s.res.hdr.len.isLt hs more inside
    refine h.running hb hst (by rw [hfsm]; exact hb) hx hy (phaseOk_decodeScan (hfsm.trans hf) ?_ ?_ ?_)
    · rw [pixelCountLegal_congr hpar hconf]; exact hl
    · rw [hhdr]; exact hh
    · rw [decodeArgs_congr hconf hhdr]; exact hbit

end FsmSteps

/-- Every FSM step keeps the invariant: one lemma per phase. -/
theorem inv_coreStep {s t : State} (h : Inv s) (e : coreStep s = .next t) : Inv t := by
  have hp := h.phase
  unfold PhaseOk at hp
  unfold coreStep at e
  have hb {f : Fsm} (hf : s.fsm = f) (hne : f ≠ .idle) : s.fsm ≠ .idle := hf ▸ hne
  cases hf : s.fsm with
  | idle => rw [hf] at e; cases e; exact h
  | illegal => rw [hf] at e; cases e; exact inv_raise _ h.pixWf h.payWf
  | start i => rw [hf] at e; exact inv_startStep h (hb hf nofun) e
  | estimatePixel i c => rw [hf] at e hp; exact inv_estimateStep h (hb hf nofun) hp e
  | encodeEst i c => rw [hf] at e hp; exact inv_encodeEstStep h (hb hf nofun) hp e
  | encodeHdr i idx => rw [hf] at e hp; exact inv_encodeHdrStep h (hb hf nofun) hp.1 e
  | encodeScan => rw [hf] at e hp; exact inv_encodeScan h (hb hf nofun) hf hp.1 hp.2 e
  | readHdr i idx bits => rw [hf] at e hp; exact inv_readHdrStep h (hb hf nofun) hp.1 e
  | decodeHdr i idx bits => rw [hf] at e hp; exact inv_decodeHdrStep h (hb hf nofun) hp.1 e
  | decodeValidate => rw [hf] at e hp; exact inv_decodeValidateStep h (hb hf nofun) hp e
  | decodeScan => rw [hf] at e hp; exact inv_decodeScan h (hb hf nofun) hf hp.1 hp.2.1 hp.2.2 e
  | decodeTail =>
    rw [hf] at e
    cases e
    unfold decodeTailEnd
    split_ifs
    · exact h.complete (hb hf nofun) rfl h.pixWf h.payWf
    · exact inv_raise _ h.pixWf h.payWf

/-! ### The host's moves keep the invariant -/

/-- Nothing but the host's side changes: the invariant stays. -/
theorem Inv.side {s : State} (h : Inv s) (p : List HostOp) (d : Word) (n : Nat) :
    Inv { s with program := p, readData := d, draws := n } :=
  inv_congr h rfl rfl rfl ⟨rfl, rfl, rfl⟩ rfl h.pixWf h.payWf

/-- In the invariant ERR is set exactly with one of the codes 1 to 7. -/
theorem StatusOk.err_iff_code {s : State} (h : StatusOk s) :
    s.status.err = false ∧ s.status.errCode = 0 ∨
      s.status.err = true ∧ 1 ≤ s.status.errCode.toNat ∧ s.status.errCode.toNat ≤ 7 := by
  cases he : s.status.err with
  | false => exact .inl ⟨rfl, h.noErrNoCode he⟩
  | true =>
    refine .inr ⟨rfl, ?_, h.codeKnown⟩
    have := h.errHasCode he
    rw [ne_eq, ← BitVec.toNat_inj] at this
    exact Nat.one_le_iff_ne_zero.2 this

/-- A register write made while idle keeps the invariant: STATUS's bit 2 clears ERR together with ERRCODE (R24). -/
theorem inv_writeReg {s : State} (h : Inv s) (hi : s.busy = false) (r : Reg) (v : Word) : Inv (writeReg r v s) := by
  have hf : s.fsm = .idle := (State.busy_eq_false s).1 hi
  have hs := h.status.err_iff_code
  cases r
  case status =>
    refine inv_idle hf h.pixWf h.payWf ?_
    simp only [writeReg, Status.writeOneToClear]
    cases v.getLsbD 2
    · simpa using hs
    · simp
  all_goals exact inv_idle hf h.pixWf h.payWf hs

/-- A command run whole ends in the invariant. -/
theorem inv_runCommand {w : Word} {s t : State} (h : Inv s) (e : runCommand w s = .next t) : Inv t := by
  unfold runCommand at e
  cases hw : decode w with
  | ok i =>
    rw [hw] at e
    obtain ⟨hx, hy⟩ := exec_wf h.pixWf h.payWf e
    obtain ⟨hf, hok | ⟨he, h1, h6⟩⟩ := exec_status e
    · exact inv_idle hf hx hy (.inl hok)
    · exact inv_idle hf hx hy (.inr ⟨he, h1, by omega⟩)
  | error _ => rw [hw] at e; cases e; exact inv_raise _ h.pixWf h.payWf

/-- A command's start clears DONE, ERR and ERRCODE, and its phase is still to check (R72). -/
theorem inv_begin {s : State} (h : Inv s) {f : Fsm} (hp : PhaseOk (s.begin f)) : Inv (s.begin f) :=
  ⟨h.pixWf, h.payWf, ⟨nofun, fun _ => rfl, fun _ => ⟨rfl, rfl⟩, by simp [Status.started]⟩, hp⟩

theorem inv_startCommand {w : Word} {s t : State} (h : Inv s) (e : startCommand w s = .next t) : Inv t := by
  unfold startCommand at e
  cases hw : decode w <;> rw [hw] at e <;> cases e <;> exact inv_begin h trivial

/-- A host's move keeps the invariant, if a CMD write does. -/
theorem inv_hostMove {c : Word → State → Result} (hc : ∀ v s t, Inv s → c v s = .next t → Inv t) {s t : State}
    (h : Inv s) (e : hostMove c s = .next t) : Inv t := by
  cases hostMove_moved e with
  | side p d n eq => subst eq; exact h.side p d n
  | dropped p _ eq => subst eq; exact inv_congr h rfl rfl rfl ⟨rfl, rfl, rfl⟩ rfl h.pixWf h.payWf
  | cmd v p _ eq => exact hc v _ t (h.side p s.readData s.draws) eq
  | reg r v p idle eq => subst eq; exact inv_writeReg (h.side p s.readData s.draws) idle r v
  | storePix i v p eq =>
    subst eq
    exact inv_congr h rfl rfl rfl ⟨rfl, rfl, rfl⟩ rfl (Memory.wf_write h.pixWf i v) h.payWf
  | storePay a v p eq =>
    subst eq
    exact inv_congr h rfl rfl rfl ⟨rfl, rfl, rfl⟩ rfl h.pixWf (Memory.wf_write h.payWf a v)

/-- Settles O40: reset, stalls, FSM steps and the host's moves keep the invariant (R25, R133). -/
theorem stepKeepsInv : Obligations.StepKeepsInv := by
  intro s t h e
  have ordered (ts : List Turn) : Inv { s with turns := ts } :=
    inv_congr h rfl rfl rfl ⟨rfl, rfl, rfl⟩ rfl h.pixWf h.payWf
  cases step_moved e with
  | reset ts _ eq => subst eq; exact inv_idle rfl h.pixWf h.payWf (.inl ⟨rfl, rfl⟩)
  | stall ts _ _ eq => subst eq; exact ordered ts
  | core ts _ _ eq => exact inv_coreStep (ordered ts) eq
  | host ts _ _ eq => exact inv_hostMove (fun _ _ _ => inv_startCommand) (ordered ts) eq
  | freeCore _ _ _ eq => exact inv_coreStep h eq
  | freeHost _ _ _ eq => exact inv_hostMove (fun _ _ _ => inv_runCommand) h eq

end Sys2Proof.Machine

/-! ## The register bank while idle -/

namespace Sys2Proof.Machine

/-- An idle block makes the host's write to a register other than CMD, in either order log 1 allows (R21). -/
theorem step_hostNext_writeReg {s : State} {ts : List Turn} {r : Reg} {v : Word} {rest : List HostOp}
    (h : s.HostNext ts) (hr : r ≠ .cmd) (hp : s.program = .write (s.params.base + r.offset) 4 v :: rest) :
    step s = .next (writeReg r v { s with turns := ts, program := rest }) := by
  obtain ⟨c, hc⟩ := step_hostNext h
  rw [hc, hostMove_write (s := { s with turns := ts }) hp, busTarget_reg]
  have hb : ({ s with turns := ts, program := rest } : State).busy = false := busy_of_idle h.2.1
  simp only [busWrite, hb]
  cases r <;> try contradiction
  all_goals rfl

/-- Settles O47: the two address lemmas, then the map's offsets as lists. -/
theorem registerMap : Obligations.RegisterMap := fun p =>
  ⟨busTarget_reg p, fun _ hlt h4 hn => busTarget_reserved p hlt h4 hn, by decide, by decide⟩

/-- Settles O50: STATUS is the register at offset 4. -/
theorem statusWriteOneToClear : Obligations.StatusWriteOneToClear := fun _ _ _ _ h hp =>
  step_hostNext_writeReg (r := .status) h (by decide) hp

/-- Settles O49: the access reaches no register (R22). -/
theorem reservedOffsets : Obligations.ReservedOffsets := by
  intro s o rest ts h hlt h4 hn
  obtain ⟨c, hc⟩ := step_hostNext h
  have htarget := busTarget_reserved s.params hlt h4 hn
  refine ⟨fun hp => ?_, fun v hp => ?_⟩
  · rw [hc, hostMove_read (s := { s with turns := ts }) hp, htarget]; rfl
  · rw [hc, hostMove_write (s := { s with turns := ts }) hp, htarget]
    exact if_neg (by simp [State.busy, h.2.1])

/-! ### What a register write leaves in every register -/

/-- A result register ignores a write (R21). -/
theorem writeReg_of_isResult {r : Reg} (h : r.isResult = true) (v : Word) (s : State) : writeReg r v s = s := by
  cases r <;> try contradiction
  all_goals rfl

/-- A register write other than W1C changes the configuration and operand registers only. -/
theorem writeReg_frame {r : Reg} (hs : r ≠ .status) (v : Word) (s : State) :
    writeReg r v s = { s with conf := (writeReg r v s).conf } := by
  cases r <;> try contradiction
  all_goals rfl

/-- A RW register reads back what was written (R21). -/
theorem readReg_writeReg_self {r : Reg} (hc : r ≠ .cmd) (hs : r ≠ .status) (h : r.isResult = false) (v : Word)
    (s : State) : readReg r (writeReg r v s) = v := by
  cases r <;> try contradiction
  all_goals rfl

/-- Every other register reads as before. -/
theorem readReg_writeReg_of_ne {q r : Reg} (hs : r ≠ .status) (h : q ≠ r) (v : Word) (s : State) :
    readReg q (writeReg r v s) = readReg q s := by
  cases hr : r.isResult with
  | true => rw [writeReg_of_isResult hr]
  | false =>
    cases r <;> try contradiction
    all_goals cases q <;> try contradiction
    all_goals rfl

/-- No register shows the host's program or the order of moves. -/
theorem readReg_withHostSide (q : Reg) (s : State) (ts : List Turn) (p : List HostOp) :
    readReg q { s with turns := ts, program := p } = readReg q s := by
  cases q <;> rfl

/-- Settles O48: the register written reads back if it is RW, every other one reads as before. -/
theorem registerWrites : Obligations.RegisterWrites := by
  intro s r v rest ts h hc hs hp
  refine ⟨_, step_hostNext_writeReg h hc hp, writeReg_frame hs v _, fun q => ?_⟩
  by_cases hq : q = r
  · subst hq
    cases hr : q.isResult with
    | false => rw [readReg_writeReg_self hc hs hr, if_pos ⟨rfl, rfl⟩]
    | true => rw [writeReg_of_isResult hr, if_neg (by simp)]; exact readReg_withHostSide q s ts rest
  · rw [readReg_writeReg_of_ne hs hq, if_neg fun hqr => hq hqr.1]; exact readReg_withHostSide q s ts rest

/-- Settles O51: bits 0 to 8 one by one, and all above are the word's 23 zeros. -/
theorem statusWordFields : Obligations.StatusWordFields := by
  intro s n
  show (statusWord s.busy s.status).getLsbD n = _
  simp only [statusWord, BitVec.getLsbD_append, BitVec.getLsbD_ofBool, BitVec.getLsbD_zero]
  rcases Nat.lt_or_ge n 9 with hn | hn
  · interval_cases n <;> simp
  · obtain ⟨k, rfl⟩ := Nat.exists_eq_add_of_le' hn
    simp

end Sys2Proof.Machine

/-! ## A command's outcome depends on parameters, configuration and memories only -/

namespace Sys2Proof.Machine

/-- Two states agree on what a command may depend on (R45). -/
structure SameInputs (s s' : State) : Prop where
  params : s'.params = s.params
  conf : s'.conf = s.conf
  pix : s'.pix = s.pix
  pay : s'.pay = s.pay

/-! ### What the commands compute from those inputs -/

section Inputs

variable {s s' : State} (h : SameInputs s s')
include h

theorem SameInputs.pixelCountLegal : s'.PixelCountLegal = s.PixelCountLegal := pixelCountLegal_congr h.params h.conf

theorem SameInputs.isWritableLegal : s'.IsWritableLegal = s.IsWritableLegal := by
  unfold State.IsWritableLegal
  rw [h.conf]

theorem SameInputs.estimateLegal : s'.EstimateLegal = s.EstimateLegal := by
  unfold State.EstimateLegal
  rw [h.pixelCountLegal, h.conf]

theorem SameInputs.encodeLegal : s'.EncodeLegal = s.EncodeLegal := by
  unfold State.EncodeLegal
  rw [h.estimateLegal, h.conf]

theorem SameInputs.estimateOf : s'.estimateOf = s.estimateOf := by
  unfold State.estimateOf
  rw [h.params, h.conf]

theorem SameInputs.fillOk : s'.FillOk = s.FillOk := by
  unfold State.FillOk
  rw [h.estimateOf, h.conf]

theorem SameInputs.record : s'.record = s.record := by
  unfold State.record
  rw [h.conf]

theorem SameInputs.encodeArgs : encodeArgs s' = encodeArgs s := by
  unfold Machine.encodeArgs
  rw [h.conf]

theorem SameInputs.decodeScanArgs : s'.decodeScanArgs = s.decodeScanArgs := by
  unfold State.decodeScanArgs
  rw [h.conf, h.pix]

end Inputs

/-! ### Outcomes that are alike -/

/-- A register is alike after both commands, or as it was before each. -/
abbrev Alike {α : Type} (x x' y y' : α) : Prop := y' = y ∨ y = x ∧ y' = x'

/-- Every result register, from `r` and `r'` before to `q` and `q'` after, is alike or was not written. -/
structure ResultsAlike (r r' q q' : Results) : Prop where
  cursorOut : Alike r.cursorOut r'.cursorOut q.cursorOut q'.cursorOut := by exact .inr ⟨rfl, rfl⟩
  writable : Alike r.writable r'.writable q.writable q'.writable := by exact .inr ⟨rfl, rfl⟩
  estimate : Alike r.estimate r'.estimate q.estimate q'.estimate := by exact .inr ⟨rfl, rfl⟩
  hdr : Alike r.hdr r'.hdr q.hdr q'.hdr := by exact .inr ⟨rfl, rfl⟩
  outBytes : Alike r.outBytes r'.outBytes q.outBytes q'.outBytes := by exact .inr ⟨rfl, rfl⟩
  scan : (q'.bitsDone = q.bitsDone ∧ q'.scanPixel = q.scanPixel ∧ q'.bitPtr = q.bitPtr) ∨
    (q.bitsDone = r.bitsDone ∧ q'.bitsDone = r'.bitsDone) ∧ (q.scanPixel = r.scanPixel ∧ q'.scanPixel = r'.scanPixel) ∧
      (q.bitPtr = r.bitPtr ∧ q'.bitPtr = r'.bitPtr) := by exact .inr ⟨⟨rfl, rfl⟩, ⟨rfl, rfl⟩, rfl, rfl⟩

/-- From `s` and `s'`, the states `t` and `t'` have the same memories, ERR and ERRCODE, and result registers that are
alike or were not written. -/
structure EndsAlike (s s' t t' : State) : Prop where
  pix : t'.pix = t.pix
  pay : t'.pay = t.pay
  err : t'.status.err = t.status.err
  errCode : t'.status.errCode = t.status.errCode
  res : ResultsAlike s.res s'.res t.res t'.res

theorem EndsAlike.complete {s s' u u' : State} (h : EndsAlike s s' u u') : EndsAlike s s' u.complete u'.complete :=
  ⟨h.pix, h.pay, h.err, h.errCode, h.res⟩

theorem EndsAlike.raise {s s' u u' : State} (h : EndsAlike s s' u u') (e : ErrKind) :
    EndsAlike s s' (u.raise e) (u'.raise e) :=
  ⟨h.pix, h.pay, rfl, rfl, h.res⟩

/-- DECODE's phase TAIL looks at the header's length only. -/
theorem EndsAlike.decodeTailEnd {s s' u u' : State} (h : EndsAlike s s' u u') (len : Nat) :
    EndsAlike s s' (decodeTailEnd len u) (decodeTailEnd len u') := by
  unfold Machine.decodeTailEnd
  split_ifs
  · exact h.complete
  · exact h.raise _

theorem SameInputs.endedOk {s s' : State} (h : SameInputs s s') {q q' : Results}
    (hr : ResultsAlike s.res s'.res q q') : EndsAlike s s' (s.endedOk q) (s'.endedOk q') :=
  ⟨h.pix, h.pay, rfl, rfl, hr⟩

theorem SameInputs.endedErr {s s' : State} (h : SameInputs s s') (c : BitVec 4) {q q' : Results}
    (hr : ResultsAlike s.res s'.res q q') : EndsAlike s s' (s.endedErr c q) (s'.endedErr c q') :=
  ⟨h.pix, h.pay, rfl, rfl, hr⟩

/-! ### The two scans -/

/-- ENCODE's scans go the same way, whatever the result registers held. -/
theorem encode_scan_alike {s s' : State} (h : SameInputs s s') :
    ScanEndRel SameWrite (scan (encodeArgs s) s.encodeStart) (scan (encodeArgs s') s'.encodeStart) := by
  have hpix : (scanInit s'.encodeStart).pix = (scanInit s.encodeStart).pix := by
    rw [encodeStart_pix, encodeStart_pix, h.record, h.pix]
  rw [h.encodeArgs]
  exact scanFrom_closed closed_sameWrite _ _ _ ⟨⟨h.params, rfl, rfl, rfl⟩, hpix, h.pay⟩

/-- The states ENCODE's scans end in are alike. -/
theorem encode_scanned_alike {s s' : State} (h : SameInputs s s') (hl : s.EncodeLegal) {e e' : ScanEnd} {u u' : State}
    (hs : scan (encodeArgs s) s.encodeStart = e) (hs' : scan (encodeArgs s') s'.encodeStart = e')
    (he : e = .done u ∨ e = .exhausted u) (he' : e' = .done u' ∨ e' = .exhausted u') (hu : SameWrite u u') :
    EndsAlike s s' u u' := by
  obtain ⟨m, k, q, p, rfl⟩ := encode_scan_frame hl hs he
  obtain ⟨m', k', q', p', rfl⟩ := encode_scan_frame (h.encodeLegal ▸ hl) hs' he'
  exact ⟨hu.pix, hu.pay, rfl, rfl,
    { estimate := .inl (congrArg (BitVec.ofNat 64) h.estimateOf), hdr := .inl h.record,
      scan := .inl ⟨hu.bits, hu.pixel, hu.ptr⟩ }⟩

/-- DECODE's scans go the same way, whatever the result registers held. -/
theorem decode_scan_alike {s s' : State} (h : SameInputs s s') :
    ScanEndRel SameDec (scan s.decodeScanArgs s.decodeStart) (scan s'.decodeScanArgs s'.decodeStart) := by
  rw [h.decodeScanArgs]
  exact scanFrom_closed closed_sameDec _ _ _ ⟨⟨h.params, rfl, rfl, rfl⟩, h.pix, h.pay, rfl, rfl⟩

/-- The states DECODE's scans end in are alike. -/
theorem decode_scanned_alike {s s' : State} (h : SameInputs s s') (hl : s.PixelCountLegal)
    (hh : HeaderLegal (headerInPixels s.pix)) {e e' : ScanEnd} {u u' : State}
    (hs : scan s.decodeScanArgs s.decodeStart = e) (hs' : scan s'.decodeScanArgs s'.decodeStart = e')
    (he : e = .done u ∨ e = .exhausted u) (he' : e' = .done u' ∨ e' = .exhausted u') (hu : SameDec u u') :
    EndsAlike s s' u u' := by
  obtain ⟨m, acc, ob, k, q, p, rfl⟩ := decode_scan_frame hl hh hs he
  obtain ⟨m', acc', ob', k', q', p', rfl⟩ :=
    decode_scan_frame (h.pixelCountLegal ▸ hl) (by rw [h.pix]; exact hh) hs' he'
  exact ⟨hu.pix, hu.pay, rfl, rfl,
    { hdr := .inl (congrArg headerInPixels h.pix), outBytes := .inl hu.out,
      scan := .inl ⟨hu.bits, hu.pixel, hu.ptr⟩ }⟩

/-! ### The commands -/

theorem encode_alike {s s' t : State} (h : SameInputs s s') (e : exec .encode s = .next t) :
    ∃ t', exec .encode s' = .next t' ∧ EndsAlike s s' t t' := by
  rw [execEncode_eq] at e
  simp only [execEncode_eq s', h.encodeLegal, h.fillOk, h.params]
  split_ifs at e ⊢ with hl hf hb
  · have hrel := encode_scan_alike h
    generalize hs : scan (encodeArgs s) s.encodeStart = end₁ at e hrel
    generalize hs' : scan (encodeArgs s') s'.encodeStart = end₂ at hrel
    cases hrel with
    | done hu => cases e; exact ⟨_, rfl, (encode_scanned_alike h hl hs hs' (.inl rfl) (.inl rfl) hu).complete⟩
    | exhausted hu => cases e; exact ⟨_, rfl, (encode_scanned_alike h hl hs hs' (.inr rfl) (.inr rfl) hu).raise _⟩
    | unbacked f => cases e
  · cases e
    exact ⟨_, rfl, h.endedErr 2 { estimate := .inl (congrArg (BitVec.ofNat 64) h.estimateOf) }⟩
  · cases e
    exact ⟨_, rfl, h.endedErr 1 {}⟩

theorem decode_alike {s s' t : State} (h : SameInputs s s') (e : exec .decode s = .next t) :
    ∃ t', exec .decode s' = .next t' ∧ EndsAlike s s' t t' := by
  rw [execDecode_eq] at e
  simp only [execDecode_eq s', h.pixelCountLegal, h.params, h.pix]
  split_ifs at e ⊢ with hl hb hh
  · have hrel := decode_scan_alike h
    generalize hs : scan s.decodeScanArgs s.decodeStart = end₁ at e hrel
    generalize hs' : scan s'.decodeScanArgs s'.decodeStart = end₂ at hrel
    cases hrel with
    | done hu =>
      cases e
      exact ⟨_, rfl, (decode_scanned_alike h hl hh hs hs' (.inl rfl) (.inl rfl) hu).decodeTailEnd _⟩
    | exhausted hu =>
      cases e
      exact ⟨_, rfl, (decode_scanned_alike h hl hh hs hs' (.inr rfl) (.inr rfl) hu).raise _⟩
    | unbacked f => cases e
  · cases e
    exact ⟨_, rfl, h.endedErr 5 { hdr := .inl rfl }⟩
  · cases e
    exact ⟨_, rfl, h.endedErr 1 {}⟩

/-- From the same inputs every command ends alike. -/
theorem exec_alike {i : Instr} {s s' t : State} (h : SameInputs s s') (e : exec i s = .next t) :
    ∃ t', exec i s' = .next t' ∧ EndsAlike s s' t t' := by
  cases i with
  | nextHdr =>
    cases e
    exact ⟨_, rfl, h.endedOk { cursorOut := .inl (congrArg (fun c : Conf => nextHeaderBit c.cursorIn) h.conf) }⟩
  | nextPay =>
    rw [execNextPay_eq] at e
    simp only [execNextPay_eq s', h.conf]
    split_ifs at e ⊢ <;> cases e
    · exact ⟨_, rfl, h.endedOk { cursorOut := .inl rfl }⟩
    · exact ⟨_, rfl, h.endedErr 1 {}⟩
  | isWritable =>
    rw [execIsWritable_eq] at e
    simp only [execIsWritable_eq s', h.isWritableLegal, h.conf]
    split_ifs at e ⊢ <;> cases e
    · exact ⟨_, rfl, h.endedOk { writable := .inl rfl }⟩
    · exact ⟨_, rfl, h.endedErr 1 {}⟩
  | estimate =>
    rw [execEstimate_eq] at e
    simp only [execEstimate_eq s', h.estimateLegal, h.estimateOf]
    split_ifs at e ⊢ <;> cases e
    · exact ⟨_, rfl, h.endedOk { estimate := .inl rfl }⟩
    · exact ⟨_, rfl, h.endedErr 1 {}⟩
  | readHeader =>
    rw [execReadHeader_eq] at e
    simp only [execReadHeader_eq s', h.pixelCountLegal, h.params, h.pix]
    split_ifs at e ⊢ <;> cases e
    · exact ⟨_, rfl, h.endedOk { hdr := .inl rfl }⟩
    · exact ⟨_, rfl, h.endedErr 1 {}⟩
  | encode => exact encode_alike h e
  | decode => exact decode_alike h e

/-- Settles O37: the outcomes are alike (R45, R149). -/
theorem resultsIgnoreEarlierResults : Obligations.ResultsIgnoreEarlierResults := by
  intro i s s' t hparams hconf hpix hpay e
  obtain ⟨t', e', h⟩ := exec_alike ⟨hparams, hconf, hpix, hpay⟩ e
  exact ⟨t', e', h.pix, h.pay, h.err, h.errCode, h.res.cursorOut, h.res.writable, h.res.estimate, h.res.hdr,
    h.res.outBytes, h.res.scan⟩

end Sys2Proof.Machine

/-! ## Single bits, the host's side of the memories, and what ENCODE touches (20_memory.md) -/

namespace Sys2Proof.Machine

/-! ### Single bits of pixel memory -/

/-- PixReadBit reads the conceptual bit stream of R52. -/
theorem pixReadBit_eq_streamBit (m : Memory 32) (b : BitIndex) : pixReadBit m b = streamBit m b.toNat := rfl

/-- Every bit of the stream after PixWriteBit, whatever the BitIndex. -/
theorem streamBit_pixWriteBit_bitIndex {m : Memory 32} (h : m.wf) (b : BitIndex) (v : Bool) (n : Nat) :
    streamBit (pixWriteBit m b v) n = if n = b.toNat then v else streamBit m n := by
  have := streamBit_pixWriteBit h b.isLt v n
  rwa [BitVec.ofNat_toNat, BitVec.setWidth_eq] at this

/-- Settles O19: the stream after the write, at `b` and at every other place. -/
theorem pixelBitWriteIsLocal : Obligations.PixelBitWriteIsLocal := by
  intro m b v h
  refine ⟨?_, fun n hn => ?_⟩
  · rw [pixReadBit_eq_streamBit, streamBit_pixWriteBit_bitIndex h, if_pos rfl]
  · rw [streamBit_pixWriteBit_bitIndex h, if_neg hn]

/-! ### What ENCODE touches -/

/-- Bit `p` of pixel `i` is stream bit `32 i + p` (R52). -/
theorem streamBit_pixel (m : Memory 32) (i : Nat) {p : Nat} (hp : p < 32) :
    streamBit m (32 * i + p) = (m.read i).getLsbD p := by
  unfold streamBit
  rw [show (32 * i + p) / 32 = i by omega, show (32 * i + p) % 32 = p by omega]

/-- writeHeader changes a bit of the stream only at the place of a header bit (R55, R117). -/
theorem exists_hdrPos_of_writeHeader_ne {h : Header} {m : Memory 32} (hm : m.wf) {b : Nat}
    (hne : streamBit (writeHeader h m) b ≠ streamBit m b) : ∃ j, j < 192 ∧ b = hdrPos j := by
  unfold streamBit at hne
  rw [getLsbD_read_writeHeader h hm] at hne
  have hb : 8 ≤ b % 32 ∧ b % 32 < 32 ∧ b / 32 < 8 := by
    by_contra hn
    exact hne (if_neg hn)
  refine ⟨24 * (b / 32) + (b % 32 - 8), by omega, ?_⟩
  unfold hdrPos
  omega

/-- An ENCODE stopped by its checks or its guard leaves pixel memory as it was (R135, R137). -/
theorem encode_pix_of_stopped {s t : State} (h : exec .encode s = .next t) (hn : ¬(s.EncodeLegal ∧ s.FillOk)) :
    t.pix = s.pix := by
  rw [execEncode_eq] at h
  split_ifs at h with hl hf
  · exact absurd ⟨hl, hf⟩ hn
  · cases h; rfl
  · cases h; rfl

/-- A payload bit that the image has room for lies at a framed place of a writable pixel in `[9, N)` (R133). -/
theorem encode_bitPos_framed {s : State} (hl : s.EncodeLegal) {k : Nat} (hk : k < (encodeArgs s).room) {i p : Nat}
    (hp : p < 32) (he : 32 * i + p = (encodeArgs s).bitPos k) :
    9 ≤ i ∧ i < s.N ∧ WritableAt i s.conf.width.toNat s.conf.region ∧ PayFramed s.conf.capacity.toNat p := by
  rw [ScanArgs.room_eq] at hk
  obtain ⟨⟨⟨h1, h8⟩, -⟩, -⟩ := hl
  obtain ⟨i', p', hpos, h9, hi, hw, hf⟩ := ScanArgs.bitPos_mem h1 h8 hk
  have hp' : p' < 32 := hf.1
  obtain ⟨rfl, rfl⟩ : i' = i ∧ p' = p := by omega
  exact ⟨h9, hi, hw, hf⟩

/-- Settles O29: a changed bit is the place of a payload bit done, or writeHeader changed it. -/
theorem encodeTouchesOnlyFramedBits : Obligations.EncodeTouchesOnlyFramedBits := by
  intro s t hwf he i p hp hne
  by_cases hgo : s.EncodeLegal ∧ s.FillOk
  · obtain ⟨hl, hf⟩ := hgo
    obtain ⟨-, hroom, -, hrest, -⟩ := encode_pixels hwf hl hf he
    by_cases hbit : ∃ k, k < t.res.bitsDone.toNat ∧ 32 * i + p = (encodeArgs s).bitPos k
    · obtain ⟨k, hk, hpos⟩ := hbit
      obtain ⟨h9, hi, hw, hframed⟩ := encode_bitPos_framed hl (hk.trans_le hroom) hp hpos
      exact .inr ⟨h9, hi, hw, hframed, k, hk, hpos⟩
    · have hhdr := hrest (32 * i + p) fun k hk hpos => hbit ⟨k, hk, hpos⟩
      rw [← streamBit_pixel _ _ hp, ← streamBit_pixel _ _ hp, hhdr] at hne
      exact .inl (exists_hdrPos_of_writeHeader_ne hwf hne)
  · exact absurd (by rw [encode_pix_of_stopped he hgo]) hne

/-! ### The host's reads while idle -/

/-- A read while idle returns the register's value (R62). -/
theorem busRead_idle {s : State} (h : s.busy = false) (r : Reg) : busRead r s = s.returnData (readReg r s) := by
  unfold busRead
  rw [h, Bool.false_and]
  exact if_neg Bool.false_ne_true

/-- An idle block makes the host's read of a register, in either order log 1 allows. -/
theorem step_hostNext_readReg {s : State} {ts : List Turn} {r : Reg} {rest : List HostOp} (h : s.HostNext ts)
    (hp : s.program = .read (s.params.base + r.offset) 4 :: rest) :
    step s = .next { s with turns := ts, program := rest, readData := readReg r s } := by
  obtain ⟨c, hc⟩ := step_hostNext h
  have hidle : ({ s with turns := ts, program := rest } : State).busy = false := busy_of_idle h.2.1
  rw [hc, hostMove_read (s := { s with turns := ts }) hp, busTarget_reg]
  simp only [busRead_idle hidle, readReg_withHostSide]
  rfl

/-- The halves of a 64-bit pair, put together (R22, R76). -/
theorem append_halves (v : BitVec 64) : v.extractLsb' 32 32 ++ v.extractLsb' 0 32 = v :=
  (BitVec.extractLsb'_append_extractLsb'_eq_extractLsb' (x := v) rfl).trans BitVec.extractLsb'_eq_self

/-- RESULT reads 1 or 0 (R34). -/
theorem readReg_result (s : State) : readReg .result s = if s.res.writable then 1 else 0 := by
  show 0#31 ++ BitVec.ofBool s.res.writable = _
  cases s.res.writable <;> rfl

/-- Settles O54: the read, then register by register the field of State it shows. -/
theorem idleReads : Obligations.IdleReads :=
  ⟨fun _ _ _ _ h hp => step_hostNext_readReg h hp, fun s =>
    ⟨rfl, rfl, append_halves _, append_halves _, append_halves _, readReg_result s, rfl⟩⟩

/-! ### The host's accesses to the memories while idle -/

/-- An idle block lets the host's access to a backed cell through (R188, R189). -/
theorem hostMemory_backed {s : State} (hf : s.fsm = .idle) {x limit : Nat} (hx : x < limit) (f : Fault) (s' : State) :
    hostMemory (decide (x < limit)) f s s' = .next s' := by
  unfold hostMemory
  rw [busy_of_idle hf, decide_eq_true hx]
  rfl

/-- Settles O57: each of the four moves goes through, and a store is read back at its own cell only. -/
theorem hostFillsMemory : Obligations.HostFillsMemory := by
  intro s rest ts hpix hpay h
  obtain ⟨c, hc⟩ := step_hostNext h
  have hf : ({ s with turns := ts } : State).fsm = .idle := h.2.1
  rw [hc]
  refine ⟨fun i v hp hi => ⟨s.pix.write i v, ?_, fun j => Memory.read_write hpix i j v⟩,
    fun a v hp ha => ⟨s.pay.write a v, ?_, fun j => Memory.read_write hpay a j v⟩,
    fun i hp hi => ?_, fun a hp ha => ?_⟩
  · rw [hostMove_storePix (s := { s with turns := ts }) hp, hostMemory_backed hf hi]
  · rw [hostMove_storePay (s := { s with turns := ts }) hp, hostMemory_backed hf ha]
  · rw [hostMove_loadPix (s := { s with turns := ts }) hp, hostMemory_backed hf hi]
  · rw [hostMove_loadPay (s := { s with turns := ts }) hp, hostMemory_backed hf ha, BitVec.ofNat_toNat]

/-! ### Accesses outside the protocol -/

/-- An access into the bank of another width, or not aligned, is bad (R59). -/
theorem busTarget_badAccess (p : Config.Params) {o size : Nat} (h : o < 0x100) (hbad : size ≠ 4 ∨ o % 4 ≠ 0) :
    busTarget p (p.base + o) size = .badAccess := by
  unfold busTarget
  rw [if_neg (by omega), Nat.add_sub_cancel_left, if_pos hbad]

/-- Settles O55: in every order the move is the host's next line, a write or a read without a target. -/
theorem misalignedAccessRefused : Obligations.MisalignedAccessRefused := by
  intro s o size v rest ts hnext hlt hbad hp
  obtain ⟨c, hc⟩ : ∃ c, step s = hostMove c { s with turns := ts } := by
    obtain hidle | ⟨he, hts⟩ := hnext
    · exact step_hostNext hidle
    · exact ⟨startCommand, step_host he hts⟩
  rw [hc]
  obtain hp | hp := hp
  · rw [hostMove_write (s := { s with turns := ts }) hp, busTarget_badAccess _ hlt hbad]
  · rw [hostMove_read (s := { s with turns := ts }) hp, busTarget_badAccess _ hlt hbad]

end Sys2Proof.Machine

/-! ## Command words, and what a command leaves unchanged (30_encoding.md) -/

namespace Sys2Proof.Machine

/-! ### The decoder and the encoder -/

/-- The decoder takes each command's word back to the command, by its per-command statement (R71). -/
theorem decode_encode (i : Instr) : decode (encode i) = .ok i := by
  cases i with
  | nextHdr => exact Laws.DecodeEncode.nextHdr
  | nextPay => exact Laws.DecodeEncode.nextPay
  | isWritable => exact Laws.DecodeEncode.isWritable
  | estimate => exact Laws.DecodeEncode.estimate
  | encode => exact Laws.DecodeEncode.encode
  | decode => exact Laws.DecodeEncode.decode
  | readHeader => exact Laws.DecodeEncode.readHeader

/-- As a number a command word is its OPCODE: RSVD is 0 (R70). -/
theorem toNat_encode (i : Instr) : (encode i).toNat = i.opcode.toNat := by
  unfold encode
  rw [BitVec.toNat_append, BitVec.toNat_zero, Nat.zero_shiftLeft, Nat.zero_or]

/-- A word that decodes to a command has RSVD 0 and that command's OPCODE (R74). -/
theorem fields_of_decode_ok {w : Word} {i : Instr} (h : decode w = .ok i) :
    w.toNat / 16 = 0 ∧ w.toNat % 16 = i.opcode.toNat := by
  rw [decode_eq] at h
  split_ifs at h with hrsvd
  refine ⟨not_not.1 hrsvd, ?_⟩
  split at h <;> cases h <;> assumption

/-- A word decodes to a command exactly if it is the command's word (R74): the two fields are the whole word. -/
theorem decode_eq_ok_iff (w : Word) (i : Instr) : decode w = .ok i ↔ w = encode i := by
  constructor
  · intro h
    obtain ⟨hrsvd, hop⟩ := fields_of_decode_ok h
    apply BitVec.eq_of_toNat_eq
    rw [toNat_encode]
    omega
  · rintro rfl
    exact decode_encode i

/-- A word is illegal exactly if a bit of RSVD is set or OPCODE is none of 1 to 7 (R73). -/
theorem exists_decode_error_iff (w : Word) :
    (∃ e, decode w = .error e) ↔ w.toNat / 16 ≠ 0 ∨ w.toNat % 16 = 0 ∨ 8 ≤ w.toNat % 16 := by
  rw [decode_eq]
  split_ifs with hrsvd
  · exact ⟨fun _ => .inl hrsvd, fun _ => ⟨_, rfl⟩⟩
  · have hlt : w.toNat % 16 < 16 := Nat.mod_lt _ (by decide)
    generalize w.toNat % 16 = op at hlt
    interval_cases op <;> simp [hrsvd]

/-- Settles O2: the decoder's two outcomes, each as an equivalence. -/
theorem decoderTotality : Obligations.DecoderTotality := ⟨decode_eq_ok_iff, exists_decode_error_iff⟩

/-- Settles O1: the seven words are those of the encoder. -/
theorem tableWordsDecode : Obligations.TableWordsDecode :=
  ⟨decode_encode .nextHdr, decode_encode .nextPay, decode_encode .isWritable, decode_encode .estimate,
    decode_encode .encode, decode_encode .decode, decode_encode .readHeader⟩

/-- Settles O60: the word of `cmd` is the encoder's, and the halves of a pair are its two extracts. -/
theorem pseudoInstructionsExpand : Obligations.PseudoInstructionsExpand := by
  refine fun p => ⟨fun i => ⟨encode i, rfl, decode_encode i⟩, fun v => ?_⟩
  have hlo : v.setWidth 32 = v.extractLsb' 0 32 := BitVec.setWidth_eq_extractLsb' (by decide)
  rw [hlo]
  rfl

/-! ### The CMD write -/

/-- On an idle block the host's write to BASE is the CMD write (R23, R72). -/
theorem hostMove_cmd {c : Word → State → Result} {s : State} {w : Word} {rest : List HostOp} (hf : s.fsm = .idle)
    (hp : s.program = .write s.params.base 4 w :: rest) : hostMove c s = c w { s with program := rest } := by
  have hidle : ¬({ s with program := rest } : State).busy = true := by simp [hf]
  rw [hostMove_write hp, busTarget_cmd]
  exact if_neg hidle

/-- A CMD write of a legal word, nothing interfering, is its command whole (R72). -/
theorem runCommand_of_ok {w : Word} {i : Instr} (h : decode w = .ok i) (s : State) : runCommand w s = exec i s := by
  unfold runCommand
  rw [h]

/-- A CMD write of an illegal word, nothing interfering, starts and ends with IllegalCommand (R72, R73). -/
theorem runCommand_of_error {w : Word} {e : IllegalWord} (h : decode w = .error e) (s : State) :
    runCommand w s = .next (execIllegal s) := by
  unfold runCommand
  rw [h]

/-- A CMD write of a legal word leaves the FSM at the command's first step (R72). -/
theorem startCommand_of_ok {w : Word} {i : Instr} (h : decode w = .ok i) (s : State) :
    startCommand w s = .next (s.begin (.start i)) := by
  unfold startCommand
  rw [h]

/-- A CMD write of an illegal word leaves the FSM at the step that raises IllegalCommand (R72). -/
theorem startCommand_of_error {w : Word} {e : IllegalWord} (h : decode w = .error e) (s : State) :
    startCommand w s = .next (s.begin .illegal) := by
  unfold startCommand
  rw [h]

/-- Settles O3: the idle block's step is the host's move, which is the CMD write. -/
theorem stepRunsDecodedCommand : Obligations.StepRunsDecodedCommand := by
  intro s i w rest he ht hf hp hw
  rw [step_idle he ht hf, hostMove_cmd hf hp, runCommand_of_ok hw]

/-- Settles O4: such a word does not decode, and what runs is the start and its abort with code 7. -/
theorem illegalCommandOnlyStatus : Obligations.IllegalCommandOnlyStatus := by
  intro s w rest he ht hf hp hillegal
  obtain ⟨e, hw⟩ := (exists_decode_error_iff w).2 hillegal
  rw [step_idle he ht hf, hostMove_cmd hf hp, runCommand_of_error hw]
  unfold execIllegal State.raise State.begin
  rw [hf]
  rfl

/-- Settles O5: the host's turn is the CMD write, which starts the command and no more. -/
theorem cmdWriteStartsCommand : Obligations.CmdWriteStartsCommand := by
  intro s w rest ts he ht hf hp
  have hstep : step s = startCommand w { s with turns := ts, program := rest } := by
    rw [step_host he ht]
    exact hostMove_cmd (s := { s with turns := ts }) hf hp
  refine ⟨fun i hw => ⟨?_, rfl⟩, fun e hw => ⟨?_, rfl, ?_⟩⟩
  · rw [hstep, startCommand_of_ok hw]; rfl
  · rw [hstep, startCommand_of_error hw]; rfl
  · unfold coreStep State.raise
    rw [hf]
    rfl

/-- Settles O59: the host's turn is one poll. -/
theorem waitPollsStatus : Obligations.WaitPollsStatus := by
  intro s rest ts he ht hp
  rw [step_host he ht]
  exact hostMove_wait (s := { s with turns := ts }) hp

/-! ### The frame of every command -/

/-- The result registers `r`, with those that the command may write taken from `q` (R71). -/
def withResultsOf (i : Instr) (r q : Results) : Results :=
  match i with
  | .nextHdr | .nextPay => { r with cursorOut := q.cursorOut }
  | .isWritable => { r with writable := q.writable }
  | .estimate => { r with estimate := q.estimate }
  | .readHeader => { r with hdr := q.hdr }
  | .encode => { q with cursorOut := r.cursorOut, writable := r.writable, outBytes := r.outBytes }
  | .decode => { q with cursorOut := r.cursorOut, writable := r.writable, estimate := r.estimate }

/-- A command writes no result register but its own. -/
theorem exec_results {i : Instr} {s t : State} (h : exec i s = .next t) : t.res = withResultsOf i s.res t.res := by
  cases i with
  | nextHdr => cases h; rfl
  | nextPay =>
    rw [execNextPay_eq] at h
    split_ifs at h <;> cases h <;> rfl
  | isWritable =>
    rw [execIsWritable_eq] at h
    split_ifs at h <;> cases h <;> rfl
  | estimate =>
    rw [execEstimate_eq] at h
    split_ifs at h <;> cases h <;> rfl
  | readHeader =>
    rw [execReadHeader_eq] at h
    split_ifs at h <;> cases h <;> rfl
  | encode =>
    obtain ⟨-, -, -, -, hcursor, hwritable, hbytes, -⟩ := encode_frame h
    exact Results.ext_fields hcursor hwritable rfl rfl rfl rfl hbytes rfl
  | decode =>
    obtain ⟨-, -, -, -, hcursor, hwritable, hestimate⟩ := decode_frame h
    exact Results.ext_fields hcursor hwritable hestimate rfl rfl rfl rfl rfl

/-- Beside result registers and STATUS, ENCODE writes pixel memory, DECODE payload memory and the packer, and no
command anything else (R56). -/
theorem exec_frame {i : Instr} {s t : State} (h : exec i s = .next t) :
    t = { s with res := t.res, status := t.status, fsm := .idle, acc := t.acc, pix := t.pix, pay := t.pay } ∧
      (i ≠ .encode → t.pix = s.pix) ∧ (i ≠ .decode → t.acc = s.acc ∧ t.pay = s.pay) := by
  by_cases hn : i = .encode
  · subst hn
    obtain ⟨ht, -⟩ := encode_frame h
    exact ⟨by rw [ht], fun hc => absurd rfl hc, fun _ => ⟨by rw [ht], by rw [ht]⟩⟩
  by_cases hd : i = .decode
  · subst hd
    obtain ⟨ht, -⟩ := decode_frame h
    exact ⟨by rw [ht], fun _ => by rw [ht], fun hc => absurd rfl hc⟩
  obtain ⟨r, rfl⟩ | rfl := exec_ended hn hd h
  · exact ⟨rfl, fun _ => rfl, fun _ => ⟨rfl, rfl⟩⟩
  · exact ⟨rfl, fun _ => rfl, fun _ => ⟨rfl, rfl⟩⟩

/-- Settles O22: the frame, and for every register the commands whose results leave it. -/
theorem commandsWriteOnlyTheirResults : Obligations.CommandsWriteOnlyTheirResults := by
  intro i s t h
  have hres := exec_results h
  obtain ⟨hframe, hpix, hpay⟩ := exec_frame h
  refine ⟨hframe, ?_, ?_, ?_, ?_, imp_and.2 ⟨?_, fun hd => (hpay hd).1⟩, ?_, hpix, fun hd => (hpay hd).2⟩
  all_goals
    rw [hres]
    cases i <;> simp [withResultsOf]

end Sys2Proof.Machine

/-! ## The cursor: NEXT_HDR, NEXT_PAY and what their functions visit (40_cursor.md) -/

namespace Sys2Proof.Machine

/-! ### The payload cursor's two branches -/

/-- nextPayloadBit goes to the next bit within lane 0, at its end and within a lane's low `c` bits, and from elsewhere to
the next lane (R91). R87's branch for bit 31 is such a skip, of length 1. -/
theorem nextPayloadBit_eq (idx : BitIndex) (c : Word) :
    nextPayloadBit idx c =
      if idx.toNat % 32 < 8 ∨ idx.toNat % 8 + 1 < c.toNat then idx + 1
      else idx + BitVec.ofNat 64 (8 - idx.toNat % 8) := by
  have hbit : idx.toNat % 32 % 8 = idx.toNat % 8 := Nat.mod_mod_of_dvd _ (by decide)
  simp only [nextPayloadBit, cursorPos_eq, hbit]
  by_cases hnext : idx.toNat % 32 < 8 ∨ idx.toNat % 8 + 1 < c.toNat
  · rw [if_pos hnext]
    split_ifs
    · rfl
    · rfl
    · rfl
    · rfl
    · omega
  · rw [if_neg hnext, if_neg (by omega), if_neg (by omega), if_neg (by omega)]
    split_ifs with hlast
    · rw [show 8 - idx.toNat % 8 = 1 by omega]
      rfl
    · rfl

/-- Settles O8: lane 0 is the positions below 8. -/
theorem payloadCursorEquivalentForm : Obligations.PayloadCursorEquivalentForm := by
  intro idx c
  simp only [Nat.div_eq_zero_iff_lt (show 0 < 8 by decide)]
  exact nextPayloadBit_eq idx c

/-! ### NEXT_PAY and NEXT_HDR -/

/-- Settles O7: the two outcomes of NEXT_PAY, with the cursor in its two-branch form. -/
theorem nextPayResult : Obligations.NextPayResult := by
  intro s
  refine ⟨fun hc => ?_, fun hc => ?_⟩
  · rw [execNextPay_eq, if_pos hc, nextPayloadBit_eq]
    rfl
  · rw [execNextPay_eq, if_neg hc]

/-- All that NEXT_HDR does. -/
theorem execNextHdr_eq (s : State) :
    exec .nextHdr s = .next (s.endedOk { s.res with cursorOut := nextHeaderBit s.conf.cursorIn }) := rfl

/-- Settles O6: the cursor's step is 9 from bit 31 of a pixel and 1 from any other bit. -/
theorem nextHdrResult : Obligations.NextHdrResult := by
  intro s
  rw [execNextHdr_eq, nextHeaderBit_eq]
  rfl

/-! ### Header framing from the start -/

/-- `n` calls of nextHeaderBit from -1 reach the place of header bit `n - 1`. -/
theorem iterate_nextHeaderBit (n : Nat) : nextHeaderBit^[n] (-1) = hdrCursor n := by
  induction n with
  | zero => rfl
  | succ n ih => rw [Function.iterate_succ_apply', ih, nextHeaderBit_hdrCursor, hdrCursor_succ]

/-- Settles O9: the cursor before header bit `i + 1` is at the place of header bit `i`. -/
theorem headerCursorClosedForm : Obligations.HeaderCursorClosedForm :=
  ⟨fun i => (iterate_nextHeaderBit (i + 1)).trans (hdrCursor_succ i), rfl⟩

/-! ### Payload framing through one pixel -/

section Pixel

variable {c : Word} (h1 : 1 ≤ c.toNat) (h8 : c.toNat ≤ 8) (m : Nat)
include h1 h8

/-- `j` calls of nextPayloadBit from bit 0 of a pixel reach its `j`-th framed bit. -/
theorem iterate_nextPayloadBit {j : Nat} (hj : j < 8 + 3 * c.toNat) :
    (nextPayloadBit · c)^[j] (BitVec.ofNat 64 (32 * m)) = BitVec.ofNat 64 (32 * m + payOffset c.toNat j) := by
  induction j with
  | zero => rfl
  | succ j ih =>
    rw [Function.iterate_succ_apply', ih (Nat.lt_of_succ_lt hj), nextPayloadBit_framed h1 h8 m (Nat.lt_of_succ_lt hj),
      if_pos hj]

/-- One call per framed bit of a pixel leads to bit 0 of the next pixel. -/
theorem iterate_nextPayloadBit_pixel :
    (nextPayloadBit · c)^[8 + 3 * c.toNat] (BitVec.ofNat 64 (32 * m)) = BitVec.ofNat 64 (32 * (m + 1)) := by
  have hlast : 7 + 3 * c.toNat < 8 + 3 * c.toNat := by omega
  rw [show 8 + 3 * c.toNat = (7 + 3 * c.toNat).succ by omega, Function.iterate_succ_apply',
    iterate_nextPayloadBit h1 h8 m hlast, nextPayloadBit_framed h1 h8 m hlast, if_neg (by omega)]

end Pixel

/-- Framed offsets of a pixel rise with their number (R92). -/
theorem payOffset_strictMono {c j k : Nat} (h1 : 1 ≤ c) (h8 : c ≤ 8) (hjk : j < k) (hk : k < 8 + 3 * c) :
    payOffset c j < payOffset c k :=
  payOffset_lt_payOffset ⟨c, by omega⟩ h1 ⟨j, by omega⟩ ⟨k, by omega⟩ hjk hk

/-- Settles O10: the walk through the pixel, its exit, and the offsets' order and range. -/
theorem payloadCursorFootprint : Obligations.PayloadCursorFootprint := by
  intro m c h1 h8
  refine ⟨fun _ hj => iterate_nextPayloadBit h1 h8 m hj, iterate_nextPayloadBit_pixel h1 h8 m,
    fun _ _ hjk hk => payOffset_strictMono h1 h8 hjk hk, fun p => ⟨exists_payOffset h1 h8, ?_⟩⟩
  rintro ⟨j, hj, rfl⟩
  exact payFramed_payOffset h1 h8 hj

/-! ### How far one call goes -/

/-- Without overflow, adding a small number to an index adds it to the two's-complement value. -/
theorem toInt_add_ofNat {idx : BitIndex} {d : Nat} (h0 : 0 ≤ idx.toInt) (h : idx.toInt + d < 2 ^ 63) :
    (idx + BitVec.ofNat 64 d).toInt = idx.toInt + d := by
  rw [BitVec.toInt_add, BitVec.toInt_ofNat', Int.add_bmod_bmod]
  exact Int.bmod_eq_of_le (by omega) (by omega)

/-- nextPayloadBit adds between 1 and 8 (R94). -/
theorem exists_nextPayloadBit_eq_add (idx : BitIndex) (c : Word) :
    ∃ d, 1 ≤ d ∧ d ≤ 8 ∧ nextPayloadBit idx c = idx + BitVec.ofNat 64 d := by
  rw [nextPayloadBit_eq]
  split_ifs
  · exact ⟨1, le_rfl, by decide, rfl⟩
  · exact ⟨8 - idx.toNat % 8, by omega, by omega, rfl⟩

/-- nextHeaderBit adds 1 or 9 (R94). The step of 9 cannot overflow: the last bit 31 below 2^63 - 8 is well below it. -/
theorem toInt_nextHeaderBit {idx : BitIndex} (h0 : 0 ≤ idx.toInt) (hlt : idx.toInt < 2 ^ 63 - 8) :
    (nextHeaderBit idx).toInt = idx.toInt + 1 ∨ (nextHeaderBit idx).toInt = idx.toInt + 9 := by
  rw [nextHeaderBit_eq]
  split_ifs with hlast
  · have := BitVec.toInt_eq_toNat_of_lt (BitVec.toInt_pos_iff.1 h0)
    exact .inr (toInt_add_ofNat (d := 9) h0 (by omega))
  · exact .inl (toInt_add_ofNat (d := 1) h0 (by omega))

/-- Settles O11: the distances that the two functions add do not overflow. -/
theorem cursorsAdvance : Obligations.CursorsAdvance := by
  intro idx c h0 hlt
  refine ⟨toInt_nextHeaderBit h0 hlt, ?_⟩
  obtain ⟨d, hd1, hd8, hnext⟩ := exists_nextPayloadBit_eq_add idx c
  have hadd := toInt_add_ofNat (d := d) h0 (by omega)
  rw [hnext, hadd]
  omega

end Sys2Proof.Machine

/-! ## The region and the estimate (41_region.md) -/

namespace Sys2Proof.Machine

/-! ### IS_WRITABLE and ESTIMATE -/

/-- Settles O12: the two outcomes of IS_WRITABLE. -/
theorem isWritableResult : Obligations.IsWritableResult := by
  intro s
  refine ⟨fun hl => ?_, fun hl => ?_⟩
  · rw [execIsWritable_eq, if_pos hl]
  · rw [execIsWritable_eq, if_neg hl]

/-- Settles O13: the two outcomes of ESTIMATE. -/
theorem estimateResult : Obligations.EstimateResult := by
  intro s
  refine ⟨fun hl => ?_, fun hl => ?_⟩
  · rw [execEstimate_eq, if_pos hl]
  · rw [execEstimate_eq, if_neg hl]

/-! ### The size of the estimate -/

/-- An image has no more writable pixels than pixels. -/
theorem card_writableSet_le (first n width : Nat) (r : Region) : (writableSet first n width r).card ≤ n :=
  calc (writableSet first n width r).card
      ≤ (Finset.Ico first n).card := Finset.card_filter_le _ _
    _ = n - first := Nat.card_Ico first n
    _ ≤ n := Nat.sub_le n first

/-- At most `2^32 - 1` pixels of at most 32 bits each (R103). -/
theorem estimateOf_lt {s : State} (h : s.EstimateLegal) : s.estimateOf < 2 ^ 37 := by
  obtain ⟨⟨-, hcap⟩, -, hcount⟩ := h
  have hpixels := (card_writableSet_le s.params.estFirst.toNat s.N s.conf.width.toNat s.conf.region).trans_lt
    (pixelCount_lt hcount)
  have hbits : 8 + 3 * s.conf.capacity.toNat ≤ 32 := by omega
  calc s.estimateOf
      ≤ (writableSet s.params.estFirst.toNat s.N s.conf.width.toNat s.conf.region).card * 32 :=
        Nat.mul_le_mul_left _ hbits
    _ < 2 ^ 37 := by omega

/-- Settles O14: a number below `2^37` loses nothing in the pair. -/
theorem estimateFitsPair : Obligations.EstimateFitsPair := by
  intro s hl
  have hlt := estimateOf_lt hl
  have hpair : (BitVec.ofNat 64 s.estimateOf).toNat = s.estimateOf := by
    rw [BitVec.toNat_ofNat, Nat.mod_eq_of_lt (by omega)]
  exact ⟨_, (estimateResult s).1 hl, hpair, hpair.trans_lt hlt⟩

/-! ### The estimate against the room of ENCODE's scan -/

/-- Counting from one pixel earlier adds that pixel, where it is in the image and writable. -/
theorem card_writableSet_succ (q n width : Nat) (r : Region) :
    (writableSet q n width r).card =
      (writableSet (q + 1) n width r).card + if q < n ∧ WritableAt q width r then 1 else 0 := by
  by_cases hq : q < n
  · rw [writableSet, ← Finset.insert_Ico_add_one_left_eq_Ico hq, Finset.filter_insert]
    by_cases hw : WritableAt q width r
    · rw [if_pos hw, if_pos ⟨hq, hw⟩, Finset.card_insert_of_notMem (by simp)]
      rfl
    · rw [if_neg hw, if_neg fun h => hw h.2]
      rfl
  · rw [if_neg fun h => hq h.1, add_zero, writableSet, writableSet, Finset.Ico_eq_empty_of_le (by omega),
      Finset.Ico_eq_empty_of_le (by omega)]

/-- With EST_FIRST_PIXEL 9 the estimate counts from the scan's first pixel (R107). -/
theorem estimateOf_nine {s : State} (h : s.params.estFirst = .nine) : s.estimateOf = (encodeArgs s).room := by
  rw [State.estimateOf, h]
  rfl

/-- With EST_FIRST_PIXEL 8 the estimate counts pixel 8 as well, where it is in the image and writable (R107). -/
theorem estimateOf_eight {s : State} (h : s.params.estFirst = .eight) :
    s.estimateOf = (encodeArgs s).room +
      if 8 < s.N ∧ WritableAt 8 (encodeArgs s).width (encodeArgs s).region then 8 + 3 * s.conf.capacity.toNat
      else 0 := by
  rw [State.estimateOf, h, show Config.EstFirst.eight.toNat = 8 from rfl, card_writableSet_succ, add_mul, ite_mul,
    one_mul, zero_mul]
  rfl

/-- At a fill ratio of 1 or below the fill guard passes no payload longer than the estimate (R107). -/
theorem payloadBits_le_estimateOf {s : State} (hden : s.conf.fillDen.toNat ≠ 0)
    (hratio : s.conf.fillNum.toNat ≤ s.conf.fillDen.toNat) (hfill : s.FillOk) :
    8 * s.conf.payloadBytes.toNat ≤ s.estimateOf := by
  refine Nat.le_of_mul_le_mul_right ?_ (Nat.pos_of_ne_zero hden)
  calc 8 * s.conf.payloadBytes.toNat * s.conf.fillDen.toNat
      ≤ s.conf.fillNum.toNat * s.estimateOf := Nat.not_lt.1 hfill
    _ ≤ s.conf.fillDen.toNat * s.estimateOf := Nat.mul_le_mul_right _ hratio
    _ = s.estimateOf * s.conf.fillDen.toNat := Nat.mul_comm _ _

/-- Settles O15: the estimate by EST_FIRST_PIXEL, and a payload that passes the guard fits the scan's room. -/
theorem estimateExactness : Obligations.EstimateExactness := by
  refine ⟨fun s => ⟨estimateOf_nine, fun h8 hn hw => ?_, fun h8 hn => ?_⟩, fun s t h9 hratio he hcode => ?_⟩
  · rw [estimateOf_eight h8, if_pos ⟨hn, hw⟩]
  · rw [estimateOf_eight h8, if_neg hn, add_zero]
  · obtain ⟨-, -, -, -, -, -, -, hinsufficient, -⟩ := encode_frame he
    obtain ⟨⟨-, -, hden⟩, hfill, hroom⟩ := hinsufficient hcode
    have hfits := payloadBits_le_estimateOf hden hratio hfill
    rw [estimateOf_nine h9] at hfits
    exact hroom.not_ge hfits

end Sys2Proof.Machine

/-! ## The header: READ_HEADER, its round trip and where writeHeader puts it (42_header.md) -/

namespace Sys2Proof.Machine

/-- Settles O16: the two outcomes of READ_HEADER with the header's words backed. -/
theorem readHeaderResult : Obligations.ReadHeaderResult := by
  intro s
  refine ⟨fun hl hb => ?_, fun hl => ?_⟩
  · rw [execReadHeader_eq, if_pos hl, if_pos hb]
  · rw [execReadHeader_eq, if_neg hl]

/-- Putting a record together undoes taking it apart: each field joins the bits below it (R116, R119). -/
theorem serialize_deserialize (b : BitVec 192) : serialize (deserialize b) = b := by
  unfold serialize deserialize
  rw [BitVec.extractLsb'_append_extractLsb'_eq_extractLsb' (show 160 = 128 + 32 from rfl),
    BitVec.extractLsb'_append_extractLsb'_eq_extractLsb' (show 128 = 96 + 32 from rfl),
    BitVec.extractLsb'_append_extractLsb'_eq_extractLsb' (show 96 = 64 + 32 from rfl),
    BitVec.extractLsb'_append_extractLsb'_eq_extractLsb' (show 64 = 32 + 32 from rfl),
    BitVec.extractLsb'_append_extractLsb'_eq_extractLsb' (show 32 = 0 + 32 from rfl)]
  exact BitVec.extractLsb'_eq_self

/-- Settles O17: as bits in both directions, and through pixel memory. -/
theorem headerRoundTrip : Obligations.HeaderRoundTrip :=
  ⟨deserialize_serialize, serialize_deserialize, fun h _ hm => readHeader_writeHeader h hm⟩

/-- Bits 31:8 of a framed pixel are 24 header bits and bits 7:0 its old lane 0 (R117). -/
theorem read_writeHeader_of_lt (h : Header) {m : Memory 32} (hm : m.wf) {i : Nat} (hi : i < 8) :
    (writeHeader h m).read i = h.word.extractLsb' (24 * i) 24 ++ laneByte m i 0 := by
  refine BitVec.eq_of_getLsbD_eq fun p hp => ?_
  rw [getLsbD_read_writeHeader h hm, BitVec.getLsbD_append]
  by_cases hlane : p < 8
  · rw [if_neg (by omega), if_pos hlane, laneByte, BitVec.getLsbD_extractLsb', decide_eq_true hlane, Bool.true_and,
      Nat.mul_zero, Nat.zero_add]
  · rw [if_pos (by omega), if_neg hlane, BitVec.getLsbD_extractLsb', decide_eq_true (by omega), Bool.true_and]
    rfl

/-- Pixels past the header are as before (R123). -/
theorem read_writeHeader_of_ge (h : Header) {m : Memory 32} (hm : m.wf) {i : Nat} (hi : 8 ≤ i) :
    (writeHeader h m).read i = m.read i := by
  refine BitVec.eq_of_getLsbD_eq fun p _ => ?_
  rw [getLsbD_read_writeHeader h hm, if_neg (by omega)]

/-- Settles O18: the framed pixels and those past them. -/
theorem writeHeaderPlacement : Obligations.WriteHeaderPlacement := fun h _ _ hm =>
  ⟨read_writeHeader_of_lt h hm, read_writeHeader_of_ge h hm⟩

end Sys2Proof.Machine

/-! ## ENCODE and DECODE: how they end, where the payload lies, and the round trip (43_codec.md) -/

namespace Sys2Proof.Machine

/-! ### How a scan ends -/

/-- The pointer after a scan's first `n` bits: the successor of the last of them, or -1 (R136). -/
def ScanArgs.endPtr (a : ScanArgs) (n : Nat) : BitIndex :=
  if n = 0 then -1 else nextPayloadBit (BitVec.ofNat 64 (a.bitPos (n - 1))) a.cap

/-- The pixel after a scan's first `n` bits: the pointer's, or the first one a scan looks at (R136). -/
def ScanArgs.endPixel (a : ScanArgs) (n : Nat) : Word :=
  if n = 0 then 9 else BitVec.ofNat 32 ((a.endPtr n).toNat / 32)

section ScanEnds

variable {a : ScanArgs} {s : State} {e : ScanEnd} (h : ScanSpec a a.len 0 (scanInit s) e)
  (hb : ∀ j, j < a.len → j < a.room → bitFault a.dir s.params j (a.bitPos j / 32) = none)
include h hb

/-- On a platform that backs its bits, a scan of bits that fit ends after the last of them. -/
theorem ScanSpec.eq_done (hfits : a.len ≤ a.room) :
    e = .done ((acts a a.len 0 s).setScan (BitVec.ofNat 32 a.len) (a.endPixel a.len) (a.endPtr a.len)) := by
  have hroom := a.room_eq
  cases e with
  | done u =>
    obtain ⟨-, -, -, q, ptr, hu, hzero, hpos⟩ := h
    rw [Nat.zero_add] at hu hpos
    rw [hu, scanInit, acts_setScan, setScan_setScan, ScanArgs.endPixel, ScanArgs.endPtr]
    split_ifs with hl
    · obtain ⟨rfl, rfl⟩ := hzero hl
      rfl
    · obtain ⟨rfl, rfl⟩ := hpos hl
      rfl
  | exhausted u =>
    obtain ⟨hmore, -⟩ := h
    omega
  | unbacked f =>
    obtain ⟨j, -, hj, hjroom, hf⟩ := h
    have hnone := hb j (by omega) (by omega)
    exact absurd (hnone.symm.trans hf) (by simp)

/-- On a platform that backs its bits, a scan of bits that do not fit ends past the last pixel, with the bits moved
that fit. -/
theorem ScanSpec.eq_exhausted (hmore : a.room < a.len) :
    ∃ (q : Word) (ptr : BitIndex), a.n ≤ q.toNat ∧
      e = .exhausted ((acts a a.room 0 s).setScan (BitVec.ofNat 32 a.room) q ptr) := by
  have hroom := a.room_eq
  cases e with
  | done u =>
    obtain ⟨hfits, -⟩ := h
    omega
  | exhausted u =>
    obtain ⟨-, -, hpix, -, q, ptr, hu⟩ := h
    rw [Nat.sub_zero, ← hroom, scanInit, acts_setScan, setScan_setScan] at hu
    subst hu
    exact ⟨q, ptr, hpix, rfl⟩
  | unbacked f =>
    obtain ⟨j, -, hj, hjroom, hf⟩ := h
    have hnone := hb j (by omega) (by omega)
    exact absurd (hnone.symm.trans hf) (by simp)

end ScanEnds

/-- ENCODE's bit is backed exactly where both its addresses are (R189). -/
theorem bitFault_write_eq_none {p : Config.Params} {k pix : Nat} :
    bitFault .write p k pix = none ↔ k / 8 < p.payBytes ∧ pix < p.pixWords := by
  simp only [bitFault]
  split_ifs <;> simp <;> omega

/-- DECODE's bit is backed where both its addresses are (R189). -/
theorem bitFault_read_eq_none {p : Config.Params} {k pix : Nat} (hbyte : k / 8 < p.payBytes)
    (hpix : pix < p.pixWords) : bitFault .read p k pix = none := by
  simp only [bitFault]
  rw [if_neg hpix.not_ge, if_neg fun hc => hbyte.not_ge hc.2]

theorem capacityLegal_of_encodeLegal {s : State} (hl : s.EncodeLegal) : CapacityLegal s.conf.capacity := hl.1.1

theorem regionLegal_of_encodeLegal {s : State} (hl : s.EncodeLegal) : RegionLegal s.conf.region := hl.1.2.1

theorem pixelCountLegal_of_encodeLegal {s : State} (hl : s.EncodeLegal) : s.PixelCountLegal := hl.1.2.2

/-- A platform that backs a legal image backs the header's pixels (R120, R189). -/
theorem headerWords_le {s : State} (hl : s.PixelCountLegal) (hb : s.PixelsBacked) : 8 ≤ s.params.pixWords :=
  hl.1.trans hb

/-! ### ENCODE's outcomes -/

/-- Settles O25: the guard's branch of ENCODE. -/
theorem encodeCapacityError : Obligations.EncodeCapacityError := by
  intro s hl hf
  rw [execEncode_eq, if_pos hl, if_neg hf]

/-- An ENCODE that passed its checks and guard goes on with its scan (R135). -/
theorem execEncode_scan {s : State} (hl : s.EncodeLegal) (hf : s.FillOk) (h8 : 8 ≤ s.params.pixWords) :
    exec .encode s = encodeScanEnd (scan (encodeArgs s) s.encodeStart) := by
  rw [execEncode_eq, if_pos hl, if_pos hf, if_pos h8]

/-- Settles O26: the scan moves all bits and changes pixel memory only. -/
theorem encodeSucceeds : Obligations.EncodeSucceeds := by
  intro s hl hf hb hfits
  obtain ⟨m, hm⟩ := acts_write_frame (a := encodeArgs s) rfl (encodeArgs s).len 0 s.encodeStart
  have hdone := (encode_scan_spec hl).eq_done (encode_backed hl hb) hfits
  rw [hm] at hdone
  refine ⟨m, ?_⟩
  rw [execEncode_scan hl hf (headerWords_le (pixelCountLegal_of_encodeLegal hl) hb.1), hdone]
  rfl

/-- Settles O27: the scan moves the bits that fit and changes pixel memory only. -/
theorem encodeRunsOut : Obligations.EncodeRunsOut := by
  intro s hl hf hb hmore
  obtain ⟨m, hm⟩ := acts_write_frame (a := encodeArgs s) rfl (encodeArgs s).room 0 s.encodeStart
  obtain ⟨q, ptr, hq, hend⟩ := (encode_scan_spec hl).eq_exhausted (encode_backed hl hb) hmore
  rw [hm] at hend
  refine ⟨m, q, ptr, hq, ?_⟩
  rw [execEncode_scan hl hf (headerWords_le (pixelCountLegal_of_encodeLegal hl) hb.1), hend]
  rfl

/-! ### What ENCODE leaves in pixel memory -/

/-- ENCODE's payload bits lie past the header's pixels (R126, R133). -/
theorem le_encode_bitPos {s : State} (hl : s.EncodeLegal) {k : Nat} (hk : k < (encodeArgs s).room) :
    32 * 9 ≤ (encodeArgs s).bitPos k := by
  rw [ScanArgs.room_eq] at hk
  obtain ⟨h1, h8⟩ := capacityLegal_of_encodeLegal hl
  obtain ⟨i, p, hpos, h9, -⟩ := ScanArgs.bitPos_mem h1 h8 hk
  omega

/-- ENCODE's payload leaves the record in pixels 0..7 as writeHeader put it there (R118, R121). -/
theorem headerInPixels_encode {s t : State} (hwf : s.pix.wf) (hl : s.EncodeLegal) (hf : s.FillOk)
    (he : exec .encode s = .next t) : headerInPixels t.pix = s.record := by
  obtain ⟨-, hroom, -, hrest, -⟩ := encode_pixels hwf hl hf he
  rw [← headerInPixels_writeHeader (h := s.record) hwf]
  refine headerInPixels_congr fun i hi => read_eq_of_streamBit fun p hp => hrest _ fun k hk => ?_
  have hpos := le_encode_bitPos hl (hk.trans_le hroom)
  omega

/-- Settles O28: the record, and the bits the scan did, in the order of R57. -/
theorem encodePlacesPayload : Obligations.EncodePlacesPayload := by
  intro s t hwf he hl hf
  obtain ⟨-, -, hbits, -⟩ := encode_pixels hwf hl hf he
  refine ⟨headerInPixels_encode hwf hl hf he, fun k hk => ?_⟩
  rw [hbits k hk, payBit]
  cases s.params.bitOrder <;> rfl

/-! ### DECODE's outcomes -/

/-- Settles O30: the header's branch of DECODE. -/
theorem decodeCorruptHeader : Obligations.DecodeCorruptHeader := by
  intro s hl h8 hh
  rw [execDecode_eq, if_pos hl, if_pos h8, if_neg hh]

/-- A DECODE that passed its checks goes on with its scan (R140). -/
theorem execDecode_scan {s : State} (hl : s.PixelCountLegal) (h8 : 8 ≤ s.params.pixWords)
    (hh : HeaderLegal (headerInPixels s.pix)) :
    exec .decode s = decodeScanEnd s.decodeScanArgs.len (scan s.decodeScanArgs s.decodeStart) := by
  rw [execDecode_eq, if_pos hl, if_pos h8, if_pos hh]
  rfl

/-- DECODE's first `n` bits change payload memory and the packer only, and complete `n div 8` bytes (R146). -/
theorem decode_acts_eq (s : State) (n : Nat) :
    ∃ (m : Memory 8) (acc : Byte), acts s.decodeScanArgs n 0 s.decodeStart =
      { s.decodeStart with
        pay := m, acc := acc, res := { s.decodeStart.res with outBytes := BitVec.ofNat 32 (n / 8) } } := by
  obtain ⟨m, acc, ob, hacts⟩ := acts_read_frame (a := s.decodeScanArgs) rfl n 0 s.decodeStart
  have hcount := acts_read_count (a := s.decodeScanArgs) rfl n 0 s.decodeStart rfl
  rw [Nat.zero_add, hacts] at hcount
  exact ⟨m, acc, by rw [hacts, ← hcount]⟩

/-- The result registers of a DECODE whose scan ended after `n` bits (R141, R142). -/
def State.decodedResults (s : State) (n : Nat) (pix : Word) (ptr : BitIndex) : Results :=
  { s.res with
    hdr := headerInPixels s.pix
    bitsDone := BitVec.ofNat 32 n
    scanPixel := pix
    bitPtr := ptr
    outBytes := BitVec.ofNat 32 (n / 8) }

section DecodeEnds

variable {s : State} (hl : s.PixelCountLegal) (h8 : 8 ≤ s.params.pixWords) (hh : HeaderLegal (headerInPixels s.pix))
  (hb : ∀ j, j < s.decodeScanArgs.len → j < s.decodeScanArgs.room →
    bitFault .read s.params j (s.decodeScanArgs.bitPos j / 32) = none)
include hl h8 hh hb

/-- DECODE of bits that the image holds reads them all, and its end looks at the length modulo 8 (R140). -/
theorem execDecode_of_fits (hfits : s.decodeScanArgs.len ≤ s.decodeScanArgs.room) :
    let l := s.decodeScanArgs.len
    let r := s.decodedResults l (s.decodeScanArgs.endPixel l) (s.decodeScanArgs.endPtr l)
    ∃ (m : Memory 8) (acc : Byte),
      exec .decode s = .next { (if l % 8 = 0 then s.endedOk r else s.endedErr 6 r) with pay := m, acc := acc } := by
  intro l r
  obtain ⟨m, acc, hm⟩ := decode_acts_eq s l
  have hdone := (decode_scan_spec hl hh).eq_done hb hfits
  rw [hm] at hdone
  refine ⟨m, acc, ?_⟩
  rw [execDecode_scan hl h8 hh, hdone, decodeScanEnd, decodeTailEnd]
  split_ifs <;> rfl

/-- DECODE of more bits than the image holds reads those it holds (R140, R142). -/
theorem execDecode_of_truncated (hmore : s.decodeScanArgs.room < s.decodeScanArgs.len) :
    ∃ (m : Memory 8) (acc : Byte) (pix : Word) (ptr : BitIndex), s.N ≤ pix.toNat ∧
      exec .decode s =
        .next { s.endedErr 4 (s.decodedResults s.decodeScanArgs.room pix ptr) with pay := m, acc := acc } := by
  obtain ⟨m, acc, hm⟩ := decode_acts_eq s s.decodeScanArgs.room
  obtain ⟨q, ptr, hq, hend⟩ := (decode_scan_spec hl hh).eq_exhausted hb hmore
  rw [hm] at hend
  refine ⟨m, acc, q, ptr, hq, ?_⟩
  rw [execDecode_scan hl h8 hh, hend]
  rfl

end DecodeEnds

/-- Settles O31: on a backed platform no bit faults. -/
theorem decodeReadsAllBits : Obligations.DecodeReadsAllBits := by
  intro s hl hb hh hfits h l ptr r
  have hr : r = s.decodedResults l (s.decodeScanArgs.endPixel l) (s.decodeScanArgs.endPtr l) := by
    have hlen : BitVec.ofNat 32 l = h.len := by simp [l]
    rw [State.decodedResults, hlen]
    rfl
  rw [hr]
  exact execDecode_of_fits hl (headerWords_le hl hb.1) hh (decode_backed hl hh hb) hfits

/-- Settles O32: on a backed platform no bit faults. -/
theorem decodeTruncated : Obligations.DecodeTruncated := fun _ hl hb hh hmore =>
  execDecode_of_truncated hl (headerWords_le hl hb.1) hh (decode_backed hl hh hb) hmore

/-! ### What DECODE leaves in the memories -/

/-- A DECODE that scanned leaves the packer at the bits it says it did, over the payload memory it began with. -/
theorem packedTo_of_decode {s t : State} (hwf : s.pay.wf) (he : exec .decode s = .next t) (hl : s.PixelCountLegal)
    (hh : HeaderLegal (headerInPixels s.pix)) : PackedTo s.decodeScanArgs s.pay t.res.bitsDone.toNat t := by
  obtain ⟨n, q, ptr, hroom, hlen, hres, hpay, hacc, hpix, -⟩ := decode_inv he hl hh
  have hn : n < 2 ^ 32 := hlen.trans_lt (decodeScanArgs_len_lt s)
  have hbits : t.res.bitsDone.toNat = n := by
    rw [hres]
    exact Nat.mod_eq_of_lt hn
  have hparams : t.params = s.params := exec_params he
  have hpacked := decode_packed hwf hl hh hroom hn
  rw [hbits]
  refine ⟨?_, ?_, ?_, ?_, ?_⟩
  · rw [hpay]; exact hpacked.wf
  · rw [hres]; exact hpacked.count
  · have hbitsIn := hpacked.acc
    rw [acts_params, acts_pix_of_read rfl] at hbitsIn
    rw [hacc, hpix, hparams]
    exact hbitsIn
  · have hbytes := hpacked.bytes
    rw [acts_params, acts_pix_of_read rfl] at hbytes
    rw [hpay, hpix, hparams]
    exact hbytes
  · rw [hpay]; exact hpacked.rest

/-- Settles O33: the packer at the end of DECODE. -/
theorem decodePacksPayload : Obligations.DecodePacksPayload := by
  intro s t hwf he hl hh
  obtain ⟨-, hcount, -, hbytes, hrest⟩ := packedTo_of_decode hwf he hl hh
  have hpix : t.pix = s.pix := (exec_frame he).2.1 (by decide)
  rw [hpix, exec_params he] at hbytes
  refine ⟨hpix, hcount, fun a j ha hj => ?_, fun a ha => hrest a (hcount ▸ ha)⟩
  rw [← hbytes a j (hcount ▸ ha) hj]
  cases s.params.bitOrder <;> simp only [payBitPos, Nat.mod_eq_of_lt hj]

/-- Settles O34: DECODE's frame, and its two branches without a scan. -/
theorem decodeWithoutScanWritesNothing : Obligations.DecodeWithoutScanWritesNothing := by
  intro s t he
  refine ⟨(exec_frame he).2.1 (by decide), fun hn => ?_⟩
  rw [execDecode_eq] at he
  split_ifs at he with hl h8 hh
  · exact absurd ⟨hl, hh⟩ hn
  · cases he; exact ⟨rfl, rfl⟩
  · cases he; exact ⟨rfl, rfl⟩

/-! ### The round trip -/

/-- An ENCODE that completed passed its checks and its guard, and the platform backs every bit it wrote (R189). -/
theorem encode_completed {s t : State} (he : exec .encode s = .next t) (hok : t.status.err = false) :
    s.EncodeLegal ∧ s.FillOk ∧ 8 ≤ s.params.pixWords ∧
      ∀ j, j < (encodeArgs s).len → bitFault .write s.params j ((encodeArgs s).bitPos j / 32) = none := by
  rw [execEncode_eq] at he
  split_ifs at he with hl hf h8
  · have hspec := encode_scan_spec hl
    generalize scan (encodeArgs s) s.encodeStart = e at he hspec
    cases e with
    | done u =>
      obtain ⟨-, -, hbits, -⟩ := hspec
      exact ⟨hl, hf, h8, fun j hj => hbits j (Nat.zero_le j) (by omega)⟩
    | exhausted u => cases he; cases hok
    | unbacked f => cases he
  · cases he; cases hok
  · cases he; cases hok

/-- The bits a completed ENCODE wrote are backed for DECODE on a platform that backs what the encoder's did, or all
that R189 says. -/
theorem decode_backed_of_encode {s t : State} {p : Config.Params} (hwf : s.pix.wf) (he : exec .encode s = .next t)
    (hok : t.status.err = false)
    (hbacked : s.params.pixWords ≤ p.pixWords ∧ s.params.payBytes ≤ p.payBytes ∨
      s.N ≤ p.pixWords ∧ s.conf.payloadBytes.toNat ≤ p.payBytes) {j : Nat} (hj : j < (encodeArgs s).len) :
    bitFault .read p j ((encodeArgs s).bitPos j / 32) = none := by
  obtain ⟨hl, hf, -, hbits⟩ := encode_completed he hok
  obtain ⟨hpayBytes, hpixWords⟩ | ⟨hN, hbytes⟩ := hbacked
  · obtain ⟨hbyte, hpixel⟩ := bitFault_write_eq_none.1 (hbits j hj)
    exact bitFault_read_eq_none (by omega) (by omega)
  · obtain ⟨-, hroom, -, -, hall⟩ := encode_pixels hwf hl hf he
    have hlen : (encodeArgs s).len = 8 * s.conf.payloadBytes.toNat := rfl
    have hjroom : j < (encodeArgs s).room := (hall hok ▸ hj).trans_le hroom
    rw [ScanArgs.room_eq] at hjroom
    obtain ⟨h1, h8⟩ := capacityLegal_of_encodeLegal hl
    obtain ⟨i, q, hpos, -, hi, -, hq, -⟩ := ScanArgs.bitPos_mem h1 h8 hjroom
    have hiN : i < s.N := hi
    exact bitFault_read_eq_none (by omega) (by omega)

/-- A decoder `d` looks at an image of the encoder `s`: its pixels 0..7 hold the record of `s`, and WIDTH and HEIGHT are
the same (R147). -/
structure SameImage (s d : State) : Prop where
  record : headerInPixels d.pix = s.record
  width : d.conf.width = s.conf.width
  height : d.conf.height = s.conf.height

section SameImage

variable {s d : State} (h : SameImage s d) (hl : s.EncodeLegal)
include h hl

/-- DECODE reads where ENCODE wrote. -/
theorem SameImage.decodeScanArgs : d.decodeScanArgs = { encodeArgs s with dir := .read } := by
  obtain ⟨-, hbytes, -⟩ := hl
  have hlen : s.record.len.toNat = (encodeArgs s).len := by
    show (8 * s.conf.payloadBytes).toNat = 8 * s.conf.payloadBytes.toNat
    rw [BitVec.toNat_mul, Nat.mod_eq_of_lt (by simp; omega)]
    rfl
  unfold State.decodeScanArgs
  rw [h.record, hlen, h.width, h.height]
  rfl

theorem SameImage.pixelCountLegal (hmax : s.N ≤ d.params.maxPixels.toNat) : d.PixelCountLegal := by
  unfold State.PixelCountLegal State.N
  rw [h.width, h.height]
  exact ⟨(pixelCountLegal_of_encodeLegal hl).1, hmax⟩

theorem SameImage.headerLegal : HeaderLegal (headerInPixels d.pix) := by
  rw [h.record]
  exact ⟨capacityLegal_of_encodeLegal hl, regionLegal_of_encodeLegal hl⟩

/-- DECODE of a whole payload on a platform that backs its bits completes, with all bits read and all bytes counted
(R141). -/
theorem SameImage.decode_completes (hmax : s.N ≤ d.params.maxPixels.toNat) (h8 : 8 ≤ d.params.pixWords)
    (hfits : (encodeArgs s).len ≤ (encodeArgs s).room)
    (hb : ∀ j, j < (encodeArgs s).len → bitFault .read d.params j ((encodeArgs s).bitPos j / 32) = none) :
    ∃ u, exec .decode d = .next u ∧ u.status.err = false ∧ u.status.done = true ∧
      u.res.outBytes = s.conf.payloadBytes ∧ u.res.bitsDone.toNat = (encodeArgs s).len := by
  have hargs := h.decodeScanArgs hl
  have hlen : d.decodeScanArgs.len = 8 * s.conf.payloadBytes.toNat := by rw [hargs]; rfl
  obtain ⟨m, acc, hu⟩ := execDecode_of_fits (h.pixelCountLegal hl hmax) h8 (h.headerLegal hl)
    (by rw [hargs]; exact fun j hj _ => hb j hj) (by rw [hargs]; exact hfits)
  rw [hlen, if_pos (Nat.mul_mod_right 8 _)] at hu
  refine ⟨_, hu, rfl, rfl, ?_, Nat.mod_eq_of_lt (encodeArgs_len_lt s hl)⟩
  show BitVec.ofNat 32 (8 * s.conf.payloadBytes.toNat / 8) = _
  simp

end SameImage

/-- Payload bytes with the same bits at the places of R57 are the same. -/
theorem byte_ext {o : Config.BitOrder} {x y : Byte}
    (h : ∀ j, j < 8 → x.getLsbD (payBitPos o j) = y.getLsbD (payBitPos o j)) : x = y := by
  refine BitVec.eq_of_getLsbD_eq fun i hi => ?_
  cases o with
  | lsbFirst => simpa only [payBitPos, Nat.mod_eq_of_lt hi] using h i hi
  | msbFirst =>
    have hplace : payBitPos .msbFirst (7 - i) = i := by simp only [payBitPos]; omega
    simpa only [hplace] using h (7 - i) (by omega)

/-- Bit `8a + j` of the payload is bit `j` of byte `a`, in the order of R57. -/
theorem payBit_byte (o : Config.BitOrder) (m : Memory 8) (a : Nat) {j : Nat} (hj : j < 8) :
    payBit o m (8 * a + j) = (m.read a).getLsbD (payBitPos o j) := by
  rw [payBit, ← payBitPos_mod o (8 * a + j), show (8 * a + j) / 8 = a by omega, show (8 * a + j) % 8 = j by omega]

/-- Settles O35: DECODE completes, and packs each byte from the bits where ENCODE placed them. -/
theorem roundTrip : Obligations.RoundTrip := by
  intro s t d hwf hpay he hok hpix hwidth hheight horder hmax hbacked
  obtain ⟨hl, hf, h8, -⟩ := encode_completed he hok
  obtain ⟨-, hroom, hplaced, -, hall⟩ := encode_pixels hwf hl hf he
  rw [hall hok] at hroom hplaced
  have himage : SameImage s d := ⟨hpix ▸ headerInPixels_encode hwf hl hf he, hwidth, hheight⟩
  have hwords : 8 ≤ d.params.pixWords := by
    obtain ⟨hwords, -⟩ | ⟨hwords, -⟩ := hbacked
    · exact h8.trans hwords
    · exact (pixelCountLegal_of_encodeLegal hl).1.trans hwords
  obtain ⟨u, hu, herr, hdone, hout, hbits⟩ := himage.decode_completes hl hmax hwords hroom
    fun _ hj => decode_backed_of_encode hwf he hok hbacked hj
  refine ⟨u, hu, herr, hdone, hout, fun a ha => byte_ext (o := s.params.bitOrder) fun j hj => ?_⟩
  have hlen : (encodeArgs s).len = 8 * s.conf.payloadBytes.toNat := rfl
  have hpacked := packedTo_of_decode hpay hu (himage.pixelCountLegal hl hmax) (himage.headerLegal hl)
  have hread := hpacked.bytes a j (by omega) hj
  rw [exec_params hu, horder, (exec_frame hu).2.1 (by decide), hpix, himage.decodeScanArgs hl] at hread
  calc (u.pay.read a).getLsbD (payBitPos s.params.bitOrder j)
      = streamBit t.pix ((encodeArgs s).bitPos (8 * a + j)) := hread
    _ = payBit s.params.bitOrder s.pay (8 * a + j) := hplaced _ (by omega)
    _ = (s.pay.read a).getLsbD (payBitPos s.params.bitOrder j) := payBit_byte _ _ _ hj

/-! ### A second DECODE -/

/-- DECODE's scan depends on the configuration and pixel memory only. -/
theorem decodeScanArgs_congr {s t : State} (hc : t.conf = s.conf) (hx : t.pix = s.pix) :
    t.decodeScanArgs = s.decodeScanArgs := by
  unfold State.decodeScanArgs
  rw [hc, hx]

/-- DECODE leaves the parameters, the configuration and the image as they were. -/
theorem decode_keeps {s t : State} (he : exec .decode s = .next t) :
    t.params = s.params ∧ t.conf = s.conf ∧ t.pix = s.pix := by
  obtain ⟨hframe, -⟩ := decode_frame he
  rw [hframe]
  exact ⟨rfl, rfl, rfl⟩

/-- Two DECODEs of the same image and configuration scan alike, whatever payload memory holds. -/
theorem decode_scan_sameRead {s t : State} (hp : t.params = s.params) (hc : t.conf = s.conf) (hx : t.pix = s.pix) :
    ScanEndRel SameRead (scan s.decodeScanArgs s.decodeStart) (scan t.decodeScanArgs t.decodeStart) := by
  rw [decodeScanArgs_congr hc hx]
  exact scanFrom_closed closed_sameRead _ _ _ ⟨⟨hp, rfl, rfl, rfl⟩, hx, rfl, rfl⟩

/-- The scan of a second DECODE ends where the scan of the first did, payload memory aside. -/
theorem decode_scanned_again {s t : State} (he : exec .decode s = .next t) (hl : s.PixelCountLegal)
    (hh : HeaderLegal (headerInPixels s.pix)) {e e' : ScanEnd} {u u' : State}
    (hs : scan s.decodeScanArgs s.decodeStart = e) (ht : scan t.decodeScanArgs t.decodeStart = e')
    (hu : e = .done u ∨ e = .exhausted u) (hu' : e' = .done u' ∨ e' = .exhausted u') (h : SameRead u u') :
    u' = { u with pay := u'.pay } := by
  obtain ⟨hframe, hwdrop, -, -, hcursor, hwritable, hestimate⟩ := decode_frame he
  obtain ⟨hp, hc, hx⟩ := decode_keeps he
  obtain ⟨m, acc, ob, k, q, p, rfl⟩ := decode_scan_frame hl hh hs hu
  obtain ⟨m', acc', ob', k', q', p', rfl⟩ :=
    decode_scan_frame ((pixelCountLegal_congr hp hc).symm ▸ hl) (by rw [hx]; exact hh) ht hu'
  have hstatus : t.status.started = s.status.started := by
    unfold Status.started
    rw [hwdrop]
  exact State.ext_fields hp (congrArg State.everReset hframe :) hc
    (Results.ext_fields hcursor hwritable hestimate h.bits h.pixel h.ptr h.out (congrArg headerInPixels hx))
    hstatus rfl h.acc hx rfl (congrArg State.program hframe :) (congrArg State.turns hframe :)
    (congrArg State.readData hframe :) (congrArg State.draws hframe :)

/-- DECODE's end does not look at payload memory. -/
theorem decodeTailEnd_setPay (len : Nat) (u : State) (m : Memory 8) :
    decodeTailEnd len { u with pay := m } = { decodeTailEnd len u with pay := m } := by
  unfold decodeTailEnd
  split_ifs <;> rfl

/-- A second DECODE ends in the state of the first, payload memory aside. -/
theorem decode_again {s t : State} (he : exec .decode s = .next t) :
    ∃ m : Memory 8, exec .decode t = .next { t with pay := m } := by
  obtain ⟨hp, hc, hx⟩ := decode_keeps he
  have hfirst := he
  have hsecond := execDecode_eq t
  rw [execDecode_eq] at hfirst
  simp only [pixelCountLegal_congr hp hc, hp, hx] at hsecond
  rw [hsecond]
  split_ifs at hfirst ⊢ with hl h8 hh
  · have hrel := decode_scan_sameRead hp hc hx
    generalize hs : scan s.decodeScanArgs s.decodeStart = e at hfirst hrel
    generalize ht : scan t.decodeScanArgs t.decodeStart = e' at hrel ⊢
    cases hrel with
    | done hu =>
      rw [decode_scanned_again he hl hh hs ht (.inl rfl) (.inl rfl) hu, decodeScanEnd, decodeTailEnd_setPay,
        next_inj.1 hfirst]
      exact ⟨_, rfl⟩
    | exhausted hu =>
      rw [decode_scanned_again he hl hh hs ht (.inr rfl) (.inr rfl) hu, ← next_inj.1 hfirst]
      exact ⟨_, rfl⟩
    | unbacked f => cases hfirst
  · cases hfirst
    exact ⟨_, rfl⟩
  · cases hfirst
    exact ⟨_, rfl⟩

/-- A second DECODE leaves payload memory as the first did: the bytes it writes are there. -/
theorem decode_pay_again {s t : State} (hwf : s.pay.wf) (he : exec .decode s = .next t) {m : Memory 8}
    (he' : exec .decode t = .next { t with pay := m }) : m = t.pay := by
  obtain ⟨hp, hc, hx⟩ := decode_keeps he
  by_cases hscan : s.PixelCountLegal ∧ HeaderLegal (headerInPixels s.pix)
  · obtain ⟨hl, hh⟩ := hscan
    have hfirst := packedTo_of_decode hwf he hl hh
    have hsecond := packedTo_of_decode hfirst.wf he' ((pixelCountLegal_congr hp hc).symm ▸ hl) (by rw [hx]; exact hh)
    rw [decodeScanArgs_congr hc hx] at hsecond
    refine Memory.ext_read hsecond.wf hfirst.wf fun b => ?_
    by_cases hb : b < t.res.bitsDone.toNat / 8
    · exact byte_ext fun j hj => (hsecond.bytes b j hb hj).trans (hfirst.bytes b j hb hj).symm
    · exact hsecond.rest b (Nat.not_lt.1 hb)
  · obtain ⟨-, hnone⟩ := decodeWithoutScanWritesNothing _ _ he'
    exact (hnone (by rwa [pixelCountLegal_congr hp hc, hx])).1

/-- Settles O36: the second DECODE ends as the first did, payload memory included. -/
theorem decodeTwice : Obligations.DecodeTwice := by
  intro s t hwf he
  obtain ⟨m, hm⟩ := decode_again he
  obtain rfl := decode_pay_again hwf he hm
  exact hm

end Sys2Proof.Machine

/-! ## How commands end, and a write at that time (60_exceptions.md) -/

namespace Sys2Proof.Machine

/-! ### InvalidConfiguration -/

/-- The conditions a command tests before all else (R161). -/
abbrev State.ConfLegal (s : State) (i : Instr) : Prop :=
  match i with
  | .nextHdr => True
  | .nextPay => CapacityLegal s.conf.capacity
  | .isWritable => s.IsWritableLegal
  | .estimate => s.EstimateLegal
  | .encode => s.EncodeLegal
  | .decode | .readHeader => s.PixelCountLegal

/-- A command that fails its conditions ends there, before any access or result. -/
theorem exec_of_not_confLegal {i : Instr} {s : State} (h : ¬s.ConfLegal i) :
    exec i s = .next (s.endedErr 1 s.res) := by
  cases i with
  | nextHdr => exact absurd trivial h
  | nextPay => rw [execNextPay_eq, if_neg h]
  | isWritable => rw [execIsWritable_eq, if_neg h]
  | estimate => rw [execEstimate_eq, if_neg h]
  | encode => rw [execEncode_eq, if_neg h]
  | decode => rw [execDecode_eq, if_neg h]
  | readHeader => rw [execReadHeader_eq, if_neg h]

/-- DECODE's phase TAIL raises MalformedPayloadError only (R140). -/
theorem decodeTailEnd_errCode_ne_one {u : State} (hu : u.status.errCode = 0) (len : Nat) :
    (decodeTailEnd len u).status.errCode ≠ 1 := by
  unfold decodeTailEnd
  split_ifs
  · exact fun hc => absurd (hu.symm.trans hc) (by decide)
  · exact show (6 : BitVec 4) ≠ 1 by decide

/-- A DECODE with a legal pixel count ends with 0, CorruptHeader, Truncated or Malformed. -/
theorem decode_errCode_ne_one {s t : State} (hl : s.PixelCountLegal) (he : exec .decode s = .next t) :
    t.status.errCode ≠ 1 := by
  rw [execDecode_eq, if_pos hl] at he
  split_ifs at he with h8 hh
  · cases hs : scan s.decodeScanArgs s.decodeStart with
    | done u =>
      rw [hs] at he
      obtain ⟨m, acc, ob, k, q, p, hu⟩ := decode_scan_frame hl hh hs (.inl rfl)
      cases he
      exact decodeTailEnd_errCode_ne_one (by rw [hu]; rfl) _
    | exhausted u => rw [hs] at he; cases he; exact show (4 : BitVec 4) ≠ 1 by decide
    | unbacked f => rw [hs] at he; cases he
  · cases he; exact show (5 : BitVec 4) ≠ 1 by decide

/-- No test after the conditions of R161 ends a command with InvalidConfiguration. -/
theorem exec_errCode_ne_one {i : Instr} {s t : State} (hl : s.ConfLegal i) (he : exec i s = .next t) :
    t.status.errCode ≠ 1 := by
  have hok : ∀ r : Results, (s.endedOk r).status.errCode ≠ 1 := fun _ => show (0 : BitVec 4) ≠ 1 by decide
  cases i with
  | nextHdr => cases he; exact hok _
  | nextPay => rw [execNextPay_eq, if_pos hl] at he; cases he; exact hok _
  | isWritable => rw [execIsWritable_eq, if_pos hl] at he; cases he; exact hok _
  | estimate => rw [execEstimate_eq, if_pos hl] at he; cases he; exact hok _
  | readHeader =>
    rw [execReadHeader_eq, if_pos hl] at he
    split_ifs at he
    cases he; exact hok _
  | encode =>
    obtain ⟨-, -, -, -, -, -, -, -, hinvalid⟩ := encode_frame he
    exact fun hc => hinvalid hc hl
  | decode => exact decode_errCode_ne_one hl he

/-- The conditions of R161 are the only cause of InvalidConfiguration. -/
theorem exists_errCode_one_iff (i : Instr) (s : State) :
    (∃ t, exec i s = .next t ∧ t.status.errCode = 1) ↔ ¬s.ConfLegal i := by
  constructor
  · rintro ⟨t, he, hc⟩ hl
    exact exec_errCode_ne_one hl he hc
  · exact fun h => ⟨_, exec_of_not_confLegal h, rfl⟩

theorem not_isWritableLegal_iff (s : State) : ¬s.IsWritableLegal ↔
    s.conf.width.toNat = 0 ∨ s.conf.minX.toNat > s.conf.maxX.toNat ∨ s.conf.minY.toNat > s.conf.maxY.toNat := by
  rw [State.IsWritableLegal, RegionLegal, not_and_or, not_and_or, not_not, not_le, not_le]
  rfl

theorem not_encodeLegal_iff (s : State) : ¬s.EncodeLegal ↔
    ¬s.EstimateLegal ∨ s.conf.payloadBytes.toNat > 0x1FFFFFFF ∨ s.conf.fillDen.toNat = 0 := by
  rw [State.EncodeLegal, not_and_or, @not_and_or (_ ≤ _), not_le, not_not]

theorem not_pixelCountLegal_iff (s : State) : ¬s.PixelCountLegal ↔ s.N < 8 ∨ s.N > s.params.maxPixels.toNat := by
  rw [State.PixelCountLegal, not_and_or, not_le, not_le]

/-- Settles O20: each line of the table is the failure of a command's conditions, and a command that fails them ends
there. -/
theorem invalidConfigurationExactly : Obligations.InvalidConfigurationExactly := by
  intro s invalid
  have hiff (i : Instr) : invalid i ↔ ¬s.ConfLegal i := exists_errCode_one_iff i s
  exact ⟨fun h => (hiff .nextHdr).1 h trivial, hiff .nextPay, (hiff .isWritable).trans (not_isWritableLegal_iff s),
    hiff .estimate, (hiff .encode).trans (not_encodeLegal_iff s), (hiff .decode).trans (not_pixelCountLegal_iff s),
    (hiff .readHeader).trans (not_pixelCountLegal_iff s), fun i h => exec_of_not_confLegal ((hiff i).1 h)⟩

/-! ### DONE and WDROP -/

/-- A command that ends sets DONE and leaves WDROP, whether it completed or raised an error (R163, R164). -/
theorem exec_done_wdrop {i : Instr} {s t : State} (h : exec i s = .next t) :
    t.status.done = true ∧ t.status.wdrop = s.status.wdrop := by
  by_cases hn : i = .encode
  · subst hn
    obtain ⟨-, hwdrop, hdone, -⟩ := encode_frame h
    exact ⟨hdone, hwdrop⟩
  by_cases hd : i = .decode
  · subst hd
    obtain ⟨-, hwdrop, hdone, -⟩ := decode_frame h
    exact ⟨hdone, hwdrop⟩
  obtain ⟨r, rfl⟩ | rfl := exec_ended hn hd h <;> exact ⟨rfl, rfl⟩

/-- Settles O21: how a command leaves the FSM, DONE, WDROP, ERR and ERRCODE. -/
theorem commandsEndIdle : Obligations.CommandsEndIdle := by
  intro i s t h
  obtain ⟨hidle, herr⟩ := exec_status h
  obtain ⟨hdone, hwdrop⟩ := exec_done_wdrop h
  exact ⟨busy_of_idle hidle, hdone, hwdrop, herr⟩

/-! ### The block's turn and the host's -/

/-- The block's turn is one FSM step. -/
theorem step_core {s : State} {ts : List Turn} (he : s.everReset = true) (ht : s.turns = .core :: ts) :
    step s = coreStep { s with turns := ts } := by
  simp only [step, machineStep, ht, takeTurn, he, if_true]

/-- Settles O39: the block's turn is an FSM step, and in IDLE that does nothing. -/
theorem idleCoreDoesNothing : Obligations.IdleCoreDoesNothing := by
  intro s ts he hf ht
  rw [step_core he ht, coreStep, hf]

/-- The host's write into the bank, made at its turn while BUSY, is dropped with WDROP (R186). -/
theorem step_host_write_busy {s : State} {ts : List Turn} {o : Nat} {v : Word} {rest : List HostOp}
    (he : s.everReset = true) (ht : s.turns = .host :: ts) (hb : s.busy = true) (hlt : o < 0x100) (h4 : o % 4 = 0)
    (hp : s.program = .write (s.params.base + o) 4 v :: rest) :
    step s = .next (s.withHost s.everReset ts rest true) := by
  have hdrop (r : Option Reg) : busWrite startCommand r v { s with turns := ts, program := rest } =
      .next (dropWrite { s with turns := ts, program := rest }) := if_pos hb
  rw [step_host he ht, hostMove_write (s := { s with turns := ts }) hp, busTarget_bank s.params hlt h4]
  cases regAt o with
  | some r => exact hdrop (some r)
  | none => exact hdrop none

/-- The block's turn where its FSM step is known, whatever the host's side is. -/
theorem step_core_withHost {s t : State} (he : s.everReset = true) (h : coreStep s = .next t) (ts : List Turn)
    (p : List HostOp) (w : Bool) :
    step (s.withHost s.everReset (.core :: ts) p w) = .next (t.withHost t.everReset ts p w) := by
  obtain ⟨-, -, -, hever⟩ := coreStep_keeps h
  have hstep := coreStep_withHost_next s.everReset ts p w h
  rw [hever]
  exact (step_core (s := s.withHost s.everReset (.core :: ts) p w) he rfl).trans hstep

/-- The block's turn where its FSM step is known, on the state's own host side. -/
theorem step_core_next {s t : State} (he : s.everReset = true) (h : coreStep s = .next t) (ts : List Turn) :
    step { s with turns := .core :: ts } = .next { t with turns := ts } := by
  obtain ⟨-, hprogram, hwdrop, -⟩ := coreStep_keeps h
  exact (step_core_withHost he h ts s.program s.status.wdrop).trans (by rw [← hprogram, ← hwdrop]; rfl)

/-- Settles O58: with the host first its write is dropped and the FSM step is as it would be; with the block first the
write finds it idle. -/
theorem writeAtCompletionBothOrders : Obligations.WriteAtCompletionBothOrders := by
  intro s t v rest ts he hb hp hstep hidle
  constructor
  · have hdropped := step_host_write_busy (s := { s with turns := .host :: .core :: ts }) (o := 0x10) he rfl hb
      (by decide) (by decide) hp
    exact ⟨_, hdropped, step_core_withHost he hstep ts rest true⟩
  · obtain ⟨-, hprogram, -, hever⟩ := coreStep_keeps hstep
    have hnext : ({ t with turns := .host :: ts } : State).HostNext ts :=
      ⟨hever.trans he, (State.busy_eq_false t).1 hidle, .inr rfl⟩
    have hwrite : t.program = .write (t.params.base + Reg.capacity.offset) 4 v :: rest := by
      rw [hprogram, hp, (coreStep_frame hstep).1]
      rfl
    exact ⟨_, step_core_next he hstep (.host :: ts),
      step_hostNext_writeReg (r := .capacity) hnext (by decide) hwrite⟩

end Sys2Proof.Machine

/-! ## Reset, hazards and the platform (70_reset_and_hazards.md) -/

namespace Sys2Proof.Machine

/-! ### What stops a command -/

/-- Settles O24: each command's branch for a header that is not backed. -/
theorem unbackedHeaderFaults : Obligations.UnbackedHeaderFaults := by
  intro s hwords hl
  have h8 : ¬8 ≤ s.params.pixWords := by omega
  refine ⟨?_, ?_, fun he hf => ?_⟩
  · rw [execReadHeader_eq, if_pos hl, if_neg h8]
  · rw [execDecode_eq, if_pos hl, if_neg h8]
  · rw [execEncode_eq, if_pos he, if_pos hf, if_neg h8]

/-- ENCODE ends on a platform that backs its image and its payload (R189): in an error of its checks or its guard, or
with its scan. -/
theorem exists_exec_encode {s : State} (hb : s.EncodeBacked) : ∃ t, exec .encode s = .next t := by
  by_cases hl : s.EncodeLegal
  · by_cases hf : s.FillOk
    · obtain hmore | hfits := Nat.lt_or_ge (encodeArgs s).room (encodeArgs s).len
      · obtain ⟨m, q, ptr, -, hm⟩ := encodeRunsOut s hl hf hb hmore
        exact ⟨_, hm⟩
      · obtain ⟨m, hm⟩ := encodeSucceeds s hl hf hb hfits
        exact ⟨_, hm⟩
    · exact ⟨_, encodeCapacityError s hl hf⟩
  · exact ⟨_, exec_of_not_confLegal hl⟩

/-- DECODE ends on a platform that backs its image and the bytes its header announces (R189): in an error of its checks,
or with its scan. -/
theorem exists_exec_decode {s : State} (hb : s.DecodeBacked) : ∃ t, exec .decode s = .next t := by
  by_cases hl : s.PixelCountLegal
  · by_cases hh : HeaderLegal (headerInPixels s.pix)
    · obtain hmore | hfits := Nat.lt_or_ge s.decodeScanArgs.room s.decodeScanArgs.len
      · obtain ⟨m, acc, q, ptr, -, hm⟩ := decodeTruncated s hl hb hh hmore
        exact ⟨_, hm⟩
      · obtain ⟨m, acc, hm⟩ := decodeReadsAllBits s hl hb hh hfits
        exact ⟨_, hm⟩
    · exact ⟨_, decodeCorruptHeader s hl (headerWords_le hl hb.1) hh⟩
  · exact ⟨_, exec_of_not_confLegal hl⟩

/-- Settles O23: no branch of the four small commands stops, and what could stop the others is backed. -/
theorem backedCommandsComplete : Obligations.BackedCommandsComplete := by
  intro s
  refine ⟨⟨_, execNextHdr_eq s⟩, ?_, ?_, ?_, fun h8 => ?_, exists_exec_encode, exists_exec_decode⟩
  · rw [execNextPay_eq]; split_ifs <;> exact ⟨_, rfl⟩
  · rw [execIsWritable_eq]; split_ifs <;> exact ⟨_, rfl⟩
  · rw [execEstimate_eq]; split_ifs <;> exact ⟨_, rfl⟩
  · rw [execReadHeader_eq, if_pos h8]; split_ifs <;> exact ⟨_, rfl⟩

/-! ### Reset -/

/-- Reset leaves every register at R22's reset value. -/
theorem readReg_resetInput (r : Reg) (s : State) :
    readReg r s.resetInput = if r = .fillNum then 2 else if r = .fillDen then 5 else 0 := by
  have hfixed : readReg r s.resetInput = readReg r State.reset := by cases r <;> rfl
  rw [hfixed]
  cases r <;> decide

/-- Settles O44: the turn is the reset input. -/
theorem resetInput : Obligations.ResetInput := by
  intro s ts ht
  have hstep : step s = .next ({ s with turns := ts } : State).resetInput := by
    simp only [step, machineStep, ht, takeTurn]
  exact ⟨_, hstep, fun r => readReg_resetInput r _, rfl, rfl, rfl, rfl, rfl, rfl⟩

/-- The configuration reset leaves meets the conditions of NEXT_HDR only (R161, R183). -/
theorem not_confLegal_of_reset {s : State} (hc : s.conf = Conf.reset) {i : Instr} (hi : i ≠ .nextHdr) :
    ¬s.ConfLegal i := by
  have hcapacity : ¬CapacityLegal s.conf.capacity := by rw [hc]; decide
  have hwidth : s.conf.width.toNat = 0 := by rw [hc]; rfl
  have hcount : ¬s.PixelCountLegal := by
    rw [State.PixelCountLegal, State.N, hwidth, Nat.zero_mul]
    omega
  cases i with
  | nextHdr => exact absurd rfl hi
  | nextPay => exact hcapacity
  | isWritable => exact fun hl => hl.1 hwidth
  | estimate => exact fun hl => hcapacity hl.1
  | encode => exact fun hl => hcapacity (capacityLegal_of_encodeLegal hl)
  | decode => exact hcount
  | readHeader => exact hcount

/-- Settles O45: the conditions reset leaves unmet, NEXT_HDR from index 0, and a region of one point. -/
theorem commandsAfterReset : Obligations.CommandsAfterReset := by
  intro s hc
  refine ⟨fun i hi => exec_of_not_confLegal (not_confLegal_of_reset hc hi), ?_, fun i w => .inl ?_⟩
  · have hcursor : nextHeaderBit s.conf.cursorIn = 1 := by rw [hc]; decide
    rw [execNextHdr_eq, hcursor]
  · rw [hc]; exact ⟨rfl, rfl⟩

/-- Settles O46: every other turn, and the move made where no order is given, asks whether reset was asserted. -/
theorem nothingBeforeReset : Obligations.NothingBeforeReset := by
  intro s he hreset
  unfold step machineStep
  cases ht : s.turns with
  | nil => simp [defaultTurn, he]
  | cons t ts =>
    cases t with
    | reset => exact absurd (by rw [ht]; rfl) hreset
    | host | core | stall => simp [takeTurn, he]

/-! ### The host's moves while busy -/

/-- Settles O52: the dropped write. -/
theorem busyWritesDropped : Obligations.BusyWritesDropped :=
  fun _ _ _ _ _ he ht hb hlt h4 hp => step_host_write_busy he ht hb hlt h4 hp

/-- A busy block lets no access of the host's reach a memory (R188). -/
theorem hostMemory_busy {s : State} (hb : s.busy = true) (backed : Bool) (f : Fault) (s' : State) :
    hostMemory backed f s s' = .refused .memoryWhileBusy := if_pos hb

/-- Settles O56: the host's turn is one of four accesses, and each asks for BUSY first. -/
theorem hostMemoryRefusedWhileBusy : Obligations.HostMemoryRefusedWhileBusy := by
  intro s ts op rest he ht hb hp hop
  have hb' : ({ s with turns := ts } : State).busy = true := hb
  rw [step_host he ht]
  obtain ⟨i, v, rfl⟩ | ⟨i, rfl⟩ | ⟨a, v, rfl⟩ | ⟨a, rfl⟩ := hop
  · rw [hostMove_storePix (s := { s with turns := ts }) hp, hostMemory_busy hb']
  · rw [hostMove_loadPix (s := { s with turns := ts }) hp, hostMemory_busy hb']
  · rw [hostMove_storePay (s := { s with turns := ts }) hp, hostMemory_busy hb']
  · rw [hostMove_loadPay (s := { s with turns := ts }) hp, hostMemory_busy hb']

/-- A read of a result register while BUSY draws a value, any other read returns the register's (R187). -/
theorem busRead_busy {s : State} (hb : s.busy = true) (r : Reg) :
    busRead r s = if r.isResult then { s with readData := Config.busyRead s.draws, draws := s.draws + 1 }
      else s.returnData (readReg r s) := by
  rw [busRead, hb, Bool.true_and]

/-- STATUS while BUSY, under R25: bit 0, and WDROP in bit 8. -/
theorem readReg_status_busy {s : State} (hb : s.busy = true) (hs : StatusOk s) :
    readReg .status s = BitVec.ofNat 32 (1 + if s.status.wdrop then 256 else 0) := by
  obtain ⟨hdone, herr⟩ := hs.busyClear hb
  have hcode := hs.noErrNoCode herr
  show statusWord s.busy s.status = _
  rw [statusWord, hb, hdone, herr, hcode]
  cases s.status.wdrop <;> rfl

/-- What a register other than a result shows while BUSY, under R25: STATUS as above, CMD 0. -/
theorem readReg_busy {s : State} (hb : s.busy = true) (hs : StatusOk s) (r : Reg) :
    readReg r s = if r = .cmd then 0
      else if r = .status then BitVec.ofNat 32 (1 + if s.status.wdrop then 256 else 0)
      else readReg r s := by
  by_cases hstatus : r = .status
  · subst hstatus; exact readReg_status_busy hb hs
  · by_cases hcmd : r = .cmd
    · subst hcmd; rfl
    · rw [if_neg hcmd, if_neg hstatus]

/-- Settles O53: the read of a register, and the one that reaches none. -/
theorem busyReads : Obligations.BusyReads := by
  intro s rest ts he ht hb hs
  have hb' : ({ s with turns := ts, program := rest } : State).busy = true := hb
  rw [step_host he ht]
  refine ⟨fun r hp => ?_, fun o hlt h4 hn hp => ?_⟩
  · rw [hostMove_read (s := { s with turns := ts }) hp, busTarget_reg, ← readReg_busy hb hs]
    simp only [busRead_busy hb', readReg_withHostSide]
    rfl
  · rw [hostMove_read (s := { s with turns := ts }) hp, busTarget_reserved s.params hlt h4 hn]
    rfl

/-! ### A command's FSM steps add up to its effect -/

theorem thenRun_zero (r : Result) : Result.thenRun 0 r = r := by cases r <;> rfl

/-- A run of one step. -/
theorem coreRun_one (s : State) : coreRun 1 s = coreStep s := (coreRun_succ 0 s).trans (thenRun_zero _)

/-- Runs one after the other. -/
theorem coreRun_trans {m n : Nat} {s t : State} {r : Result} (h : coreRun m s = .next t) (h' : coreRun n t = r) :
    coreRun (m + n) s = r := by
  rw [coreRun_add, h]
  exact h'

/-- A run that stopped with a fault goes no further. -/
theorem coreRun_add_fault {m : Nat} {s : State} {f : Fault} (h : coreRun m s = .fault f) (n : Nat) :
    coreRun (m + n) s = .fault f := by
  rw [coreRun_add, h]
  rfl

/-- Once the FSM has come to a command's outcome it stays there, as a command ends idle (R164, R174). -/
theorem coreRun_exec_of_le {i : Instr} {s u : State} {m n : Nat} (h : coreRun m u = exec i s) (hmn : m ≤ n) :
    coreRun n u = exec i s := by
  obtain ⟨e, rfl⟩ := Nat.exists_eq_add_of_le hmn
  rw [coreRun_add, h]
  cases ht : exec i s with
  | next t => exact coreRun_idle e (exec_status ht).1
  | fault f => rfl
  | refused r => rfl

/-- A command whose conditions fail ends in its first step (R161, R191). -/
theorem coreRun_of_not_confLegal {i : Instr} {s : State} (h : ¬s.ConfLegal i) :
    coreRun 1 (s.begin (.start i)) = exec i s := by
  rw [coreRun_one]
  cases i with
  | nextHdr | nextPay | isWritable => rfl
  | estimate =>
    rw [exec_of_not_confLegal h]
    exact if_neg fun hc => h ((estimateConfOk_iff s).1 hc)
  | encode =>
    rw [exec_of_not_confLegal h]
    exact if_neg fun hc => h ((encodeConfOk_iff s).1 hc)
  | decode | readHeader =>
    rw [exec_of_not_confLegal h]
    exact if_neg fun hc => h ((pixelCountOk_iff s).1 hc)

/-- The header's backing as a proposition (R120, R189). -/
theorem headerBacked_iff (p : Config.Params) : headerBacked p = true ↔ 8 ≤ p.pixWords := decide_eq_true_iff

/-! #### ESTIMATE and READ_HEADER -/

/-- How many steps a loop over the pixels from EST_FIRST_PIXEL on takes: one for each, and one where there is none. -/
def State.estSteps (s : State) : Nat := s.conf.pixelCount - (s.params.estFirst.toNat + 1) + 1

theorem estSteps_le {s : State} (hl : s.PixelCountLegal) : s.estSteps ≤ s.N - 7 := by
  have hfirst := estFirst_ge s.params.estFirst
  have hN : s.conf.pixelCount = s.N := rfl
  obtain ⟨h8, -⟩ := hl
  unfold State.estSteps
  omega

/-- What such a loop counts, times the bits of a pixel, is the estimate (R102). -/
theorem count_mul_bitsPerPixel (s : State) :
    (0 + countWritable s.params.estFirst.toNat s.conf.pixelCount s.conf.width.toNat s.conf.region) *
      bitsPerPixel s.conf.capacity.toNat = s.estimateOf := by
  rw [Nat.zero_add]
  exact estimate_eq s

/-- ESTIMATE's first step is its loop's, if its configuration is legal (R106). -/
theorem coreStep_begin_estimate {s : State} (hl : s.EstimateLegal) : coreStep (s.begin (.start .estimate)) =
    coreStep ((s.begin (.start .estimate)).setFsm (.estimatePixel s.params.estFirst.toNat 0)) :=
  if_pos ((estimateConfOk_iff s).2 hl)

/-- ESTIMATE's loop ends with the command's outcome (R106, R191). -/
theorem coreRun_estimate {s : State} (hl : s.EstimateLegal) :
    coreRun s.estSteps (s.begin (.start .estimate)) = exec .estimate s := by
  have hloop := coreRun_estimatePixel _ s.params.estFirst.toNat 0 (s.begin (.start .estimate)) rfl
  rw [State.begin_conf, count_mul_bitsPerPixel, coreRun_succ, ← coreStep_begin_estimate hl, ← coreRun_succ] at hloop
  rw [execEstimate_eq, if_pos hl]
  exact hloop

/-- READ_HEADER's first step is its loop's, if its pixel count is legal and the header backed (R122). -/
theorem coreStep_begin_readHeader {s : State} (hl : s.PixelCountLegal) (h8 : 8 ≤ s.params.pixWords) :
    coreStep (s.begin (.start .readHeader)) =
      coreStep ((s.begin (.start .readHeader)).setFsm (.readHdr 0 beforeStream 0)) :=
  (if_pos ((pixelCountOk_iff s).2 hl)).trans (if_pos ((headerBacked_iff _).2 h8))

/-- READ_HEADER's loop ends with the command's outcome, or its first step with the fault (R122, R189, R191). -/
theorem coreRun_readHeader {s : State} (hl : s.PixelCountLegal) :
    coreRun 192 (s.begin (.start .readHeader)) = exec .readHeader s := by
  rw [execReadHeader_eq, if_pos hl]
  by_cases h8 : 8 ≤ s.params.pixWords
  · have hloop := coreRun_readHdr 191 0 beforeStream 0 (s.begin (.start .readHeader)) rfl
    rw [coreRun_succ, ← coreStep_begin_readHeader hl h8, ← coreRun_succ] at hloop
    rw [if_pos h8, ← readHeader_eq]
    exact hloop
  · have hfault : coreRun 1 (s.begin (.start .readHeader)) = .fault .unbackedPixel := by
      rw [coreRun_one]
      exact (if_pos ((pixelCountOk_iff s).2 hl)).trans (if_neg fun hc => h8 ((headerBacked_iff _).1 hc))
    rw [if_neg h8]
    exact coreRun_add_fault hfault 191

/-! #### ENCODE -/

/-- ENCODE in its phase HDR, before the first header bit: ESTIMATE and HDR_* are set (R135). -/
def State.encodeHdrStart (s : State) : State :=
  { s with
    status := s.status.started
    fsm := .encodeHdr 0 beforeStream
    res := { s.res with estimate := BitVec.ofNat 64 s.estimateOf, hdr := s.record } }

/-- ENCODE's phases CHECK and EST (R135). -/
theorem coreRun_begin_encode {s : State} (hl : s.EncodeLegal) :
    coreRun (1 + s.estSteps) (s.begin (.start .encode)) = encodeEstEnd s.estimateOf (s.begin (.start .encode)) := by
  have hcheck : coreRun 1 (s.begin (.start .encode)) =
      .next ((s.begin (.start .encode)).setFsm (.encodeEst s.params.estFirst.toNat 0)) :=
    (coreRun_one _).trans (if_pos ((encodeConfOk_iff s).2 hl))
  have hest := coreRun_encodeEst _ s.params.estFirst.toNat 0 (s.begin (.start .encode)) rfl
  rw [State.begin_conf, count_mul_bitsPerPixel] at hest
  exact coreRun_trans hcheck hest

/-- How EST ends: the guard, the header's backing, then phase HDR (R135). -/
theorem encodeEstEnd_begin (s : State) : encodeEstEnd s.estimateOf (s.begin (.start .encode)) =
    if s.FillOk then if 8 ≤ s.params.pixWords then .next s.encodeHdrStart else .fault .unbackedPixel
    else .next (s.endedErr 2 { s.res with estimate := BitVec.ofNat 64 s.estimateOf }) := by
  by_cases hf : s.FillOk
  · rw [if_pos hf]
    refine (if_pos ((fillOk_iff s).2 hf)).trans ?_
    by_cases h8 : 8 ≤ s.params.pixWords
    · rw [if_pos h8]
      refine (if_pos ((headerBacked_iff _).2 h8)).trans ?_
      rw [State.begin_conf, encodeHeader_eq]
      rfl
    · rw [if_neg h8]
      exact if_neg fun hc => h8 ((headerBacked_iff _).1 hc)
  · rw [if_neg hf]
    exact if_neg fun hc => hf ((fillOk_iff s).1 hc)

/-- ENCODE's phase HDR leaves what exec's scan starts from, in phase SCAN (R123, R131). -/
theorem coreRun_encodeHdrStart (s : State) :
    coreRun 192 s.encodeHdrStart = .next (scanInit (s.encodeStart.setFsm .encodeScan)) :=
  coreRun_encodeHdr s.record 191 0 beforeStream s.encodeHdrStart rfl rfl rfl

/-- ENCODE's phase SCAN ends as the scan of exec, in at most a step per bit, a step per pixel and one more (R131). -/
theorem coreRun_encodeStart {s : State} (hl : s.EncodeLegal) :
    ∃ j, j ≤ s.conf.payloadBits + (s.N - 9) ∧
      coreRun (j + 1) (scanInit (s.encodeStart.setFsm .encodeScan)) =
        encodeScanEnd (scan (encodeArgs s) s.encodeStart) := by
  obtain ⟨h1, h8⟩ := capacityLegal_of_encodeLegal hl
  have hn := pixelCount_lt (pixelCountLegal_of_encodeLegal hl)
  obtain ⟨j, hj, hrun⟩ := coreRun_scan (encode_scanPhase s.conf) hn h1 h8 (encodeArgs_len_lt s hl) _ _ 0
    (scanInit (s.encodeStart.setFsm .encodeScan)) ⟨rfl, rfl⟩ (scanAt_init _) (Nat.zero_add _) rfl
  refine ⟨j, hj, ?_⟩
  rw [← encodeScanEnd_setFsm (encodeArgs s) s.encodeStart .encodeScan]
  exact (hrun 0).trans (thenRun_zero _)

/-- ENCODE's phases, one after the other, for a legal configuration (R130, R135). -/
theorem coreRun_encode {s : State} (hl : s.EncodeLegal) :
    coreRun (stepBound .encode s) (s.begin (.start .encode)) = exec .encode s := by
  have hest := coreRun_begin_encode hl
  have hsteps := estSteps_le (pixelCountLegal_of_encodeLegal hl)
  have hbound : stepBound .encode s = 1 + s.N + 192 + s.conf.payloadBits + s.N := rfl
  obtain ⟨h8, -⟩ := pixelCountLegal_of_encodeLegal hl
  rw [encodeEstEnd_begin] at hest
  by_cases hgo : s.FillOk ∧ 8 ≤ s.params.pixWords
  · obtain ⟨hf, hwords⟩ := hgo
    rw [if_pos hf, if_pos hwords] at hest
    obtain ⟨j, hj, hscan⟩ := coreRun_encodeStart hl
    rw [← execEncode_scan hl hf hwords] at hscan
    exact coreRun_exec_of_le (coreRun_trans (coreRun_trans hest (coreRun_encodeHdrStart s)) hscan) (by omega)
  · refine coreRun_exec_of_le (hest.trans ?_) (by omega)
    rw [execEncode_eq, if_pos hl]
    split_ifs with hf hwords
    · exact absurd ⟨hf, hwords⟩ hgo
    · rfl
    · rfl

/-! #### DECODE -/

/-- DECODE's phases CHECK and HDR, for a legal pixel count and a header that is backed (R140). -/
theorem coreRun_begin_decode {s : State} (hl : s.PixelCountLegal) (h8 : 8 ≤ s.params.pixWords) :
    coreRun (1 + 192) (s.begin (.start .decode)) =
      .next (((s.begin (.start .decode)).setHdr (headerInPixels s.pix)).setFsm .decodeValidate) := by
  have hcheck : coreRun 1 (s.begin (.start .decode)) =
      .next ((s.begin (.start .decode)).setFsm (.decodeHdr 0 beforeStream 0)) :=
    (coreRun_one _).trans ((if_pos ((pixelCountOk_iff s).2 hl)).trans (if_pos ((headerBacked_iff _).2 h8)))
  rw [← readHeader_eq]
  exact coreRun_trans hcheck (coreRun_decodeHdr 191 0 beforeStream 0 (s.begin (.start .decode)) rfl)

/-- DECODE's phase VALIDATE: on with the scan of exec, in phase SCAN, or CorruptHeaderError (R125, R140). -/
theorem coreStep_decodeValidate (s : State) :
    coreStep (((s.begin (.start .decode)).setHdr (headerInPixels s.pix)).setFsm .decodeValidate) =
      if HeaderLegal (headerInPixels s.pix) then .next (scanInit (s.decodeStart.setFsm .decodeScan))
      else .next (s.endedErr 5 { s.res with hdr := headerInPixels s.pix }) := by
  split_ifs with hh
  · exact if_pos ((validHeader_iff _).2 hh)
  · exact if_neg fun hc => hh ((validHeader_iff _).1 hc)

/-- A scan does not look at the FSM's phase. -/
theorem scan_setFsm (a : ScanArgs) (s : State) (f : Fsm) :
    ScanEndRel (fun u u' => u' = u.setFsm f) (scan a s) (scan a (s.setFsm f)) :=
  scanFrom_closed (closed_fsm a.dir f) a.len (scanInit s) (scanInit (s.setFsm f)) rfl

/-- DECODE's phase TAIL (R140). -/
theorem coreRun_decodeTail (u : State) :
    coreRun 1 (u.setFsm .decodeTail) = .next (decodeTailEnd u.res.hdr.len.toNat u) := by
  have hend : decodeTailEnd u.res.hdr.len.toNat (u.setFsm .decodeTail) = decodeTailEnd u.res.hdr.len.toNat u := by
    unfold decodeTailEnd
    split_ifs <;> rfl
  rw [coreRun_one, ← hend]
  rfl

/-- After the end of its scan and the phase TAIL DECODE has ended as exec's does (R140). -/
theorem thenRun_decodeScanStepEnd {s : State} (hl : s.PixelCountLegal) (hh : HeaderLegal (headerInPixels s.pix)) :
    Result.thenRun 1 (decodeScanStepEnd (scan s.decodeScanArgs (s.decodeStart.setFsm .decodeScan))) =
      decodeScanEnd s.decodeScanArgs.len (scan s.decodeScanArgs s.decodeStart) := by
  have hends := scan_setFsm s.decodeScanArgs s.decodeStart .decodeScan
  generalize scan s.decodeScanArgs (s.decodeStart.setFsm .decodeScan) = e' at hends ⊢
  cases hs : scan s.decodeScanArgs s.decodeStart with
  | done u =>
    obtain ⟨m, acc, ob, k, q, p, hu⟩ := decode_scan_frame hl hh hs (.inl rfl)
    have hlen : s.decodeScanArgs.len = u.res.hdr.len.toNat := by rw [hu]; rfl
    rw [hs] at hends
    cases hends with
    | done h => rw [h, hlen]; exact coreRun_decodeTail u
  | exhausted u =>
    rw [hs] at hends
    cases hends with
    | exhausted h => rw [h]; exact thenRun_next_idle rfl
  | unbacked f =>
    rw [hs] at hends
    cases hends
    rfl

/-- DECODE's phases SCAN and TAIL, in at most a step per bit, a step per pixel and two more (R131, R140). -/
theorem coreRun_decodeStart {s : State} (hl : s.PixelCountLegal) (hh : HeaderLegal (headerInPixels s.pix)) :
    ∃ j, j ≤ s.decodeScanArgs.len + (s.N - 9) ∧
      coreRun (j + 1 + 1) (scanInit (s.decodeStart.setFsm .decodeScan)) =
        decodeScanEnd s.decodeScanArgs.len (scan s.decodeScanArgs s.decodeStart) := by
  obtain ⟨h1, h8⟩ := hh.1
  obtain ⟨j, hj, hrun⟩ := coreRun_scan (decode_scanPhase s.conf (headerInPixels s.pix)) (pixelCount_lt hl) h1 h8
    (decodeScanArgs_len_lt s) _ _ 0 (scanInit (s.decodeStart.setFsm .decodeScan)) ⟨rfl, rfl, rfl⟩ (scanAt_init _)
    (Nat.zero_add _) rfl
  refine ⟨j, hj, ?_⟩
  rw [← thenRun_decodeScanStepEnd hl hh]
  exact hrun 1

/-- DECODE's phases, one after the other, for a legal pixel count (R130, R140). -/
theorem coreRun_decode {s : State} (hl : s.PixelCountLegal) :
    coreRun (stepBound .decode s) (s.begin (.start .decode)) = exec .decode s := by
  have hbound : stepBound .decode s = 1 + 192 + 1 + s.decodeScanArgs.len + s.N + 1 := by
    rw [stepBound, readHeader_eq]
    rfl
  have hN := hl.1
  by_cases h8 : 8 ≤ s.params.pixWords
  · have hhdr := coreRun_begin_decode hl h8
    have hvalidate := (coreRun_one _).trans (coreStep_decodeValidate s)
    by_cases hh : HeaderLegal (headerInPixels s.pix)
    · rw [if_pos hh] at hvalidate
      obtain ⟨j, hj, hscan⟩ := coreRun_decodeStart hl hh
      rw [← execDecode_scan hl h8 hh] at hscan
      exact coreRun_exec_of_le (coreRun_trans (coreRun_trans hhdr hvalidate) hscan) (by omega)
    · rw [if_neg hh, ← decodeCorruptHeader s hl h8 hh] at hvalidate
      exact coreRun_exec_of_le (coreRun_trans hhdr hvalidate) (by omega)
  · have hfault : coreRun 1 (s.begin (.start .decode)) = .fault .unbackedPixel :=
      (coreRun_one _).trans
        ((if_pos ((pixelCountOk_iff s).2 hl)).trans (if_neg fun hc => h8 ((headerBacked_iff _).1 hc)))
    refine coreRun_exec_of_le (hfault.trans ?_) (by omega : 1 ≤ _)
    rw [execDecode_eq, if_pos hl, if_neg h8]

/-! #### Every command -/

theorem one_le_stepBound (i : Instr) (s : State) : 1 ≤ stepBound i s := by
  cases i <;> simp only [stepBound] <;> omega

/-- Within R191's bound the FSM's steps end with the command's outcome. -/
theorem coreRun_stepBound (i : Instr) (s : State) : coreRun (stepBound i s) (s.begin (.start i)) = exec i s := by
  by_cases hl : s.ConfLegal i
  · cases i with
    | nextHdr | nextPay | isWritable => exact coreRun_one _
    | estimate =>
      have hsteps := estSteps_le hl.2.2
      exact coreRun_exec_of_le (coreRun_estimate hl) ((hsteps.trans (Nat.sub_le _ _)).trans (le_max_right _ _))
    | encode => exact coreRun_encode hl
    | decode => exact coreRun_decode hl
    | readHeader => exact coreRun_readHeader hl
  · exact coreRun_exec_of_le (coreRun_of_not_confLegal hl) (one_le_stepBound i s)

/-- Settles O38: the machine's run is as many FSM steps as the order names the block, and they end with exec's
outcome, which keeps the order empty. -/
theorem fsmStepsRefineExec : Obligations.FsmStepsRefineExec := by
  refine ⟨coreRun_stepBound, fun i s ts he hts hbound => ?_⟩
  have hsteps : coreRun (ts.count .core) (({ s with turns := [] } : State).begin (.start i)) =
      exec i { s with turns := [] } := coreRun_exec_of_le (coreRun_stepBound i _) hbound
  have hrun := run_core_stall ts (({ s with turns := [] } : State).begin (.start i)) he hts
  rw [hsteps] at hrun
  refine hrun.trans ?_
  cases ht : exec i { s with turns := [] } with
  | next t =>
    obtain ⟨hframe, -⟩ := exec_frame ht
    have hturns : t.turns = [] := by rw [hframe]
    rw [Result.mapNext, ← hturns]
  | fault f => rfl
  | refused r => rfl

end Sys2Proof.Machine
